-- ==== Sys2Proof/Word.lean ====
section
/-! DEFINITION. The word types of the machine (00_scope.md R9, R10). -/

namespace Sys2Proof

/-- A byte, 8 bits (R10). -/
abbrev Byte := BitVec 8

/-- A word of the manual, 16 bits (R10): one element of a destination. -/
abbrev Word := BitVec 16

/-- A quad-word, 64 bits (R10): one element of a source, a general register, an address. -/
abbrev QWord := BitVec 64

/-- MAXVL, the width in bits of a full vector register (R8; 92_eei_decisions.md D3). -/
abbrev Config.MAXVL : Nat := 512

/-- A full vector register: MAXVL bits (R8, R17). -/
abbrev Zmm := BitVec Config.MAXVL

end Sys2Proof
end

