-- ==== Sys2Proof/Syntax.lean ====
section
/-! DEFINITION. The instructions: one constructor for each of the 18 rows of spec/opcode_table.json,
and the operand shapes of 30_encoding.md R59 to R64 and R67. -/

namespace Sys2Proof

/-- The vector length of a form (30_encoding.md R58). -/
inductive VL where
  | v128
  | v256
  | v512
deriving DecidableEq, Repr

/-- The number of elements of a form: "(KL, VL) = (2, 128), (4, 256), (8, 512)" (R93). -/
def VL.kl : VL → Nat
  | .v128 => 2
  | .v256 => 4
  | .v512 => 8

/-- The factor N of a compressed displacement, which is also the size in bytes of the memory operand
(30_encoding.md R63; 20_memory.md R41). -/
def VL.operandBytes (vl : VL) : Nat := 2 * vl.kl

/-- The three conversions, one for each mnemonic (R90, R91, R92). -/
inductive Conversion where
  /-- VPMOVQW, opcode byte 34h -/
  | truncate
  /-- VPMOVSQW, opcode byte 24h -/
  | signedSaturate
  /-- VPMOVUSQW, opcode byte 14h -/
  | unsignedSaturate
deriving DecidableEq, Repr

/-- The segment registers (10_state.md R27). -/
inductive SegReg where
  | es
  | cs
  | ss
  | ds
  | fs
  | gs
deriving DecidableEq, Repr

/-- The legacy prefixes that may precede the EVEX prefix: at most one segment override and at most one
address-size prefix 67h (30_encoding.md R67). -/
structure Prefixes where
  seg : Option SegReg
  addrSize : Bool
deriving DecidableEq, Repr

/-- The displacement that ModRM.mod selects when there is a base register (30_encoding.md R61, R63). -/
inductive Disp where
  /-- mod = 00b: no displacement byte -/
  | none
  /-- mod = 01b: one byte, multiplied by N -/
  | disp8 (d : BitVec 8)
  /-- mod = 10b: four bytes, never scaled -/
  | disp32 (d : BitVec 32)
deriving DecidableEq, Repr

/-- An index register and its scale, the value `x[index] * 2^scale` (30_encoding.md R62). -/
structure ScaledIndex where
  index : BitVec 4
  scale : BitVec 2
deriving DecidableEq, Repr

/-- A memory destination, in the four shapes of 30_encoding.md R61 and R62. -/
inductive MemOperand where
  /-- mod = 00b, r/m = 101b: RIP-relative in 64-bit mode (R61), absolute in 32-bit mode (R66) -/
  | dispOnly (d : BitVec 32)
  /-- a base register and no SIB byte (R61) -/
  | base (b : BitVec 4) (d : Disp)
  /-- a SIB byte with a base register (R62) -/
  | sib (b : BitVec 4) (index : Option ScaledIndex) (d : Disp)
  /-- a SIB byte with base = 101b and mod = 00b: no base register (R62) -/
  | sibNoBase (index : Option ScaledIndex) (d : BitVec 32)
deriving DecidableEq, Repr

/-- The instructions. A register form is `pfx d aaa z s`: prefixes, destination `zmm[d]`, writemask field,
zeroing bit, source `zmm[s]`. A memory form is `pfx m aaa s`: it has no `z` (30_encoding.md R72). -/
inductive Instr where
  | vpmovqw128Reg (pfx : Prefixes) (d : BitVec 5) (aaa : BitVec 3) (z : Bool) (src : BitVec 5)
  | vpmovqw128Mem (pfx : Prefixes) (m : MemOperand) (aaa : BitVec 3) (src : BitVec 5)
  | vpmovsqw128Reg (pfx : Prefixes) (d : BitVec 5) (aaa : BitVec 3) (z : Bool) (src : BitVec 5)
  | vpmovsqw128Mem (pfx : Prefixes) (m : MemOperand) (aaa : BitVec 3) (src : BitVec 5)
  | vpmovusqw128Reg (pfx : Prefixes) (d : BitVec 5) (aaa : BitVec 3) (z : Bool) (src : BitVec 5)
  | vpmovusqw128Mem (pfx : Prefixes) (m : MemOperand) (aaa : BitVec 3) (src : BitVec 5)
  | vpmovqw256Reg (pfx : Prefixes) (d : BitVec 5) (aaa : BitVec 3) (z : Bool) (src : BitVec 5)
  | vpmovqw256Mem (pfx : Prefixes) (m : MemOperand) (aaa : BitVec 3) (src : BitVec 5)
  | vpmovsqw256Reg (pfx : Prefixes) (d : BitVec 5) (aaa : BitVec 3) (z : Bool) (src : BitVec 5)
  | vpmovsqw256Mem (pfx : Prefixes) (m : MemOperand) (aaa : BitVec 3) (src : BitVec 5)
  | vpmovusqw256Reg (pfx : Prefixes) (d : BitVec 5) (aaa : BitVec 3) (z : Bool) (src : BitVec 5)
  | vpmovusqw256Mem (pfx : Prefixes) (m : MemOperand) (aaa : BitVec 3) (src : BitVec 5)
  | vpmovqw512Reg (pfx : Prefixes) (d : BitVec 5) (aaa : BitVec 3) (z : Bool) (src : BitVec 5)
  | vpmovqw512Mem (pfx : Prefixes) (m : MemOperand) (aaa : BitVec 3) (src : BitVec 5)
  | vpmovsqw512Reg (pfx : Prefixes) (d : BitVec 5) (aaa : BitVec 3) (z : Bool) (src : BitVec 5)
  | vpmovsqw512Mem (pfx : Prefixes) (m : MemOperand) (aaa : BitVec 3) (src : BitVec 5)
  | vpmovusqw512Reg (pfx : Prefixes) (d : BitVec 5) (aaa : BitVec 3) (z : Bool) (src : BitVec 5)
  | vpmovusqw512Mem (pfx : Prefixes) (m : MemOperand) (aaa : BitVec 3) (src : BitVec 5)
deriving DecidableEq, Repr

/-- The register form of a conversion at a vector length (30_encoding.md R75 to R83, mod = 11b). -/
def Instr.regForm (c : Conversion) (vl : VL) : Prefixes → BitVec 5 → BitVec 3 → Bool → BitVec 5 → Instr :=
  match c, vl with
  | .truncate, .v128 => .vpmovqw128Reg
  | .truncate, .v256 => .vpmovqw256Reg
  | .truncate, .v512 => .vpmovqw512Reg
  | .signedSaturate, .v128 => .vpmovsqw128Reg
  | .signedSaturate, .v256 => .vpmovsqw256Reg
  | .signedSaturate, .v512 => .vpmovsqw512Reg
  | .unsignedSaturate, .v128 => .vpmovusqw128Reg
  | .unsignedSaturate, .v256 => .vpmovusqw256Reg
  | .unsignedSaturate, .v512 => .vpmovusqw512Reg

/-- The memory form of a conversion at a vector length (30_encoding.md R75 to R83, mod not 11b). -/
def Instr.memForm (c : Conversion) (vl : VL) : Prefixes → MemOperand → BitVec 3 → BitVec 5 → Instr :=
  match c, vl with
  | .truncate, .v128 => .vpmovqw128Mem
  | .truncate, .v256 => .vpmovqw256Mem
  | .truncate, .v512 => .vpmovqw512Mem
  | .signedSaturate, .v128 => .vpmovsqw128Mem
  | .signedSaturate, .v256 => .vpmovsqw256Mem
  | .signedSaturate, .v512 => .vpmovsqw512Mem
  | .unsignedSaturate, .v128 => .vpmovusqw128Mem
  | .unsignedSaturate, .v256 => .vpmovusqw256Mem
  | .unsignedSaturate, .v512 => .vpmovusqw512Mem

/-- What an instruction is, whichever of the nine register or nine memory constructors it has. -/
inductive Form where
  | reg (c : Conversion) (vl : VL) (pfx : Prefixes) (d : BitVec 5) (aaa : BitVec 3) (z : Bool) (src : BitVec 5)
  | mem (c : Conversion) (vl : VL) (pfx : Prefixes) (m : MemOperand) (aaa : BitVec 3) (src : BitVec 5)
deriving DecidableEq, Repr

/-- The conversion, the vector length and the operands of each row of the opcode table (R75 to R83). -/
def Instr.form : Instr → Form
  | .vpmovqw128Reg pfx d aaa z src => .reg .truncate .v128 pfx d aaa z src
  | .vpmovqw128Mem pfx m aaa src => .mem .truncate .v128 pfx m aaa src
  | .vpmovsqw128Reg pfx d aaa z src => .reg .signedSaturate .v128 pfx d aaa z src
  | .vpmovsqw128Mem pfx m aaa src => .mem .signedSaturate .v128 pfx m aaa src
  | .vpmovusqw128Reg pfx d aaa z src => .reg .unsignedSaturate .v128 pfx d aaa z src
  | .vpmovusqw128Mem pfx m aaa src => .mem .unsignedSaturate .v128 pfx m aaa src
  | .vpmovqw256Reg pfx d aaa z src => .reg .truncate .v256 pfx d aaa z src
  | .vpmovqw256Mem pfx m aaa src => .mem .truncate .v256 pfx m aaa src
  | .vpmovsqw256Reg pfx d aaa z src => .reg .signedSaturate .v256 pfx d aaa z src
  | .vpmovsqw256Mem pfx m aaa src => .mem .signedSaturate .v256 pfx m aaa src
  | .vpmovusqw256Reg pfx d aaa z src => .reg .unsignedSaturate .v256 pfx d aaa z src
  | .vpmovusqw256Mem pfx m aaa src => .mem .unsignedSaturate .v256 pfx m aaa src
  | .vpmovqw512Reg pfx d aaa z src => .reg .truncate .v512 pfx d aaa z src
  | .vpmovqw512Mem pfx m aaa src => .mem .truncate .v512 pfx m aaa src
  | .vpmovsqw512Reg pfx d aaa z src => .reg .signedSaturate .v512 pfx d aaa z src
  | .vpmovsqw512Mem pfx m aaa src => .mem .signedSaturate .v512 pfx m aaa src
  | .vpmovusqw512Reg pfx d aaa z src => .reg .unsignedSaturate .v512 pfx d aaa z src
  | .vpmovusqw512Mem pfx m aaa src => .mem .unsignedSaturate .v512 pfx m aaa src

/-- The vector length of an instruction. -/
def Instr.vl (i : Instr) : VL :=
  match i.form with
  | .reg _ vl _ _ _ _ _ => vl
  | .mem _ vl _ _ _ _ => vl

/-- The writemask field of an instruction (30_encoding.md R69). -/
def Instr.aaa (i : Instr) : BitVec 3 :=
  match i.form with
  | .reg _ _ _ _ aaa _ _ => aaa
  | .mem _ _ _ _ aaa _ => aaa

/-- The number of legacy prefix bytes (30_encoding.md R65, `npfx`). -/
def Prefixes.length (pfx : Prefixes) : Nat :=
  (if pfx.seg.isSome then 1 else 0) + (if pfx.addrSize then 1 else 0)

/-- The number of displacement bytes of a displacement (30_encoding.md R53). -/
def Disp.length : Disp → Nat
  | .none => 0
  | .disp8 _ => 1
  | .disp32 _ => 4

/-- The number of SIB and displacement bytes of a memory operand (30_encoding.md R65, `nsib + ndisp`). -/
def MemOperand.length : MemOperand → Nat
  | .dispOnly _ => 4
  | .base _ d => d.length
  | .sib _ _ d => 1 + d.length
  | .sibNoBase _ _ => 5

/-- The length of a register form: `npfx + 4 + 1 + 1` (30_encoding.md R65). -/
def regLength (pfx : Prefixes) : Nat := pfx.length + 6

/-- The length of a memory form: `npfx + 4 + 1 + 1 + nsib + ndisp` (30_encoding.md R65). -/
def memLength (pfx : Prefixes) (m : MemOperand) : Nat := pfx.length + 6 + m.length

/-- The length of an instruction in bytes (30_encoding.md R65). -/
def Instr.length (i : Instr) : Nat :=
  match i.form with
  | .reg _ _ pfx _ _ _ _ => regLength pfx
  | .mem _ _ pfx m _ _ => memLength pfx m

end Sys2Proof
end

