-- ==== Sys2Proof/Machine/Convert.lean ====
section
/-! DEFINITION. The three conversions and the packing of words (40_down_convert_qword_to_word.md R90 to R94). -/

namespace Sys2Proof.Machine

/-- TruncateQuadWordToWord (R90). -/
def truncateQuadWordToWord (q : QWord) : Word := q.extractLsb' 0 16

/-- SaturateSignedQuadWordToWord (R91). -/
def saturateSignedQuadWordToWord (q : QWord) : Word :=
  if q.toInt > 32767 then 0x7FFF#16
  else if q.toInt < -32768 then 0x8000#16
  else q.extractLsb' 0 16

/-- SaturateUnsignedQuadWordToWord (R92). -/
def saturateUnsignedQuadWordToWord (q : QWord) : Word :=
  if q.toNat > 65535 then 0xFFFF#16 else q.extractLsb' 0 16

/-- The conversion of a mnemonic (R97 to R102). -/
def convert : Conversion → QWord → Word
  | .truncate => truncateQuadWordToWord
  | .signedSaturate => saturateSignedQuadWordToWord
  | .unsignedSaturate => saturateUnsignedQuadWordToWord

/-- Element `j` of a vector of quad-words, bits `64j+63 : 64j` (R94). -/
def quadElement (v : Zmm) (j : Nat) : QWord := v.extractLsb' (64 * j) 64

/-- Element `j` of a vector of words, bits `16j+15 : 16j` (R94). -/
def wordElement (v : Zmm) (j : Nat) : Word := v.extractLsb' (16 * j) 16

/-- The MAXVL-bit value whose word elements 0 to n-1 are `f 0` to `f (n-1)` and whose other bits are 0 (R97, R103). -/
def packWords (f : Nat → Word) : Nat → Zmm
  | 0 => 0
  | n + 1 => packWords f n ||| ((f n).setWidth Config.MAXVL <<< (16 * n))

end Sys2Proof.Machine
end

