-- ==== Sys2Proof/Config.lean ====
section
/-! DEFINITION. What an implementation fixes: the constants of 00_scope.md R8, the parameters of R8 as
plain data, and the free values (constants with no body). -/

namespace Sys2Proof

/-- MAXLEN, the longest legal instruction in bytes (R8; 30_encoding.md R65). -/
def Config.MAXLEN : Nat := 15

/-- The processor identification that EDX holds after reset (10_state.md R24). PRESUMED (log 5), unsafe: the spec
gives no value; this is the signature of a part of the family that has AVX512F and AVX512VL. State.reset extends it with zeros to
the 64 bits of x[2], a DESIGN CHOICE (log 5). -/
def Config.processorSignature : BitVec 32 := 0x00050654#32

/-- FREE VALUE (log 10), safe: which of several memory faults of one instruction is reported (60_exceptions.md R122,
93_implementation_defined.md U17). The list of candidates is indexed by this number modulo its length. -/
opaque Config.faultDraw : Nat → Nat

/-- FREE VALUE (log 11), safe: the platform's bits of a page-fault error code (60_exceptions.md R119, U26). -/
opaque Config.pageFaultPlatformBits : Nat → BitVec 32

/-- KW, the width of an opmask register (10_state.md R21): 16 with AVX512F alone, 64 with AVX512BW. -/
inductive OpmaskWidth where
  | kw16
  | kw64
deriving DecidableEq, Repr

/-- What stands behind a range of linear addresses (20_memory.md R47). -/
inductive RegionKind where
  | ordinary
  | device
deriving DecidableEq, Repr

/-- One range of mapped linear addresses and what may be done there: the data behind the predicates Mapped and
Writable of 20_memory.md R38. DESIGN CHOICE (log 8). -/
structure Region where
  base : Nat
  size : Nat
  kind : RegionKind
  /-- a store at CPL 0, 1 or 2 is permitted -/
  storeSupervisor : Bool
  /-- a store at CPL 3 is permitted -/
  storeUser : Bool
  /-- an instruction may be fetched (60_exceptions.md R122 step 1) -/
  execute : Bool
deriving DecidableEq, Repr

/-- The parameters of 00_scope.md R8 that a platform or a part fixes. No step writes them (R15). -/
structure Platform where
  hasAVX512F : Bool
  hasAVX512VL : Bool
  /-- VA_BITS, the number of implemented linear-address bits (20_memory.md R37) -/
  vaBits : Nat
  kw : OpmaskWidth
  /-- the first region that holds an address decides -/
  regions : List Region
deriving DecidableEq, Repr

/-- The program text of a run: its first address and END, the address at which the run ends
(70_reset_and_hazards.md R134, R135; 20_memory.md R51). -/
structure ProgramText where
  first : QWord
  endAddr : QWord
deriving DecidableEq, Repr

end Sys2Proof
end

