-- ==== Sys2Proof/Machine/State.lean ====
section
/-! DEFINITION. The state of the machine as plain data, the reasons a step can stop, and the state after reset. -/

namespace Sys2Proof.Machine

/-- The exceptions an instruction of this group can raise (60_exceptions.md R112). -/
inductive Exception where
  /-- #UD, invalid opcode -/
  | ud
  /-- #NM, device not available -/
  | nm
  /-- #SS(0), stack-segment fault -/
  | ss0
  /-- #GP(0), general protection -/
  | gp0
  /-- #PF(code), page fault, with the faulting linear address for CR2 -/
  | pf (code : BitVec 32) (cr2 : QWord)
  /-- #AC(0), alignment check -/
  | ac0
deriving DecidableEq, Repr

/-- The vector number (60_exceptions.md R112). -/
def Exception.vector : Exception → Nat
  | .ud => 6
  | .nm => 7
  | .ss0 => 12
  | .gp0 => 13
  | .pf _ _ => 14
  | .ac0 => 17

/-- The error code, for the exceptions that have one (60_exceptions.md R112). -/
def Exception.errorCode : Exception → Option (BitVec 32)
  | .ud => none
  | .nm => none
  | .ss0 => some 0
  | .gp0 => some 0
  | .pf code _ => some code
  | .ac0 => some 0

/-- The linear address a page fault records in CR2 (60_exceptions.md R119, R123). -/
def Exception.cr2 : Exception → Option QWord
  | .pf _ addr => some addr
  | _ => none

/-- Why a step stops with a fault. -/
inductive Fault where
  /-- raised by an instruction or by its fetch: the outcome Fault(vector, error_code, cr2) of 60_exceptions.md R123,
  with the state as it was before the instruction. Safe: the hardware would go on in a handler (log 2). -/
  | exception (e : Exception)
  /-- raised by the fetch of a byte that the launch state gave no value (70_reset_and_hazards.md R134). Safe: the
  hardware reads some value (log 4). -/
  | unwrittenByte (addr : QWord)
deriving DecidableEq, Repr

/-- Why a step refuses. -/
inductive Refusal where
  /-- raised by exec for an instruction without a meaning; no arm of exec does so. Safe. -/
  | notModelled (mnemonic : String)
  /-- raised by the fetch: the bytes are not one of the 18 forms (30_encoding.md R74). Safe. -/
  | notInGroup
  /-- raised by the fetch: 62h is BOUND here (30_encoding.md R66). Safe. -/
  | bound
  /-- raised by the fetch: a repeated prefix (30_encoding.md R67). Safe. -/
  | repeatedPrefix
  /-- raised by the fetch: stored B̄ or R̄' is 0 in 32-bit mode (30_encoding.md R66). Safe. -/
  | mode32RegisterBits
  /-- raised by the fetch: 16-bit addressing (30_encoding.md R66; 00_scope.md R7). Safe. -/
  | addressSize16
  /-- raised by the fetch: a 16-bit code segment (60_exceptions.md R127). Safe. -/
  | codeSegment16
  /-- raised by the fetch of a byte that is not canonical, and so not mapped, or lies outside the code segment's limit: the
  instruction-fetch fault `e` of 10_state.md R25, which ends the run refused (60_exceptions.md R122 step 1). Safe (log 14). -/
  | fetchFault (e : Exception) (addr : QWord)
  /-- raised by the fetch of any other byte that is not mapped and executable (60_exceptions.md R122 step 1). Safe. -/
  | fetchNotExecutable (addr : QWord)
  /-- raised by a memory form whose enabled bytes overlap the program text (20_memory.md R51). Safe. -/
  | storeIntoProgram
  /-- raised by a memory form whose enabled bytes lie in a device (20_memory.md R47). Safe. -/
  | deviceStore
  /-- raised by a memory form under alignment checking where 60_exceptions.md R120 says that nothing available
  settles whether #AC is raised. Safe (log 12). -/
  | alignmentUnsettled
  /-- raised by the fetch: single-stepping or a breakpoint is armed (60_exceptions.md R130). Safe (log 21). -/
  | debugArmed
  /-- raised by the fetch: alignment checking is on (AC_ENABLED), and the spec refuses such a run (20_memory.md R42;
  60_exceptions.md R120). Safe (log 12). -/
  | alignmentCheckingOn
  /-- raised by the fetch of a byte outside the program text: no program was launched, or an instruction goes past END
  (70_reset_and_hazards.md R134, R135; 00_scope.md R15). Safe (log 22). -/
  | outsideProgram
  /-- raised by the fetch: pc = END, the run is over (70_reset_and_hazards.md R135). Safe (log 22). -/
  | runEnded
deriving DecidableEq, Repr

/-- Why an operation stops an instruction. -/
inductive Stop where
  | fault (f : Fault)
  | refuse (r : Refusal)
deriving DecidableEq, Repr

/-- A segment register: selector, base, limit and the access right that the group's stores test
(10_state.md R27; 60_exceptions.md R117). The widths of the
selector, of the limit and of a base other than those of FS and GS are PRESUMED (log 32). -/
structure Segment where
  selector : BitVec 16
  base : QWord
  limit : BitVec 32
  writable : Bool
deriving DecidableEq, Repr

/-- Linear memory: the bytes that hold a value, in one canonical form (addresses strictly rising). A byte that is
not listed has no value (log 4). -/
abbrev Memory := List Host.Cell

/-- The state of the machine (INVENTORY.md, State). -/
structure State where
  /-- ZMM0 to ZMM31 (10_state.md R17) -/
  zmm : Vector Zmm 32
  /-- the opmask registers k0 to k7 (10_state.md R21) -/
  k : Vector QWord 8
  /-- 10_state.md R23; its width is PRESUMED (log 32) -/
  mxcsr : BitVec 32
  /-- the general registers RAX, RCX, RDX, RBX, RSP, RBP, RSI, RDI, R8 to R15 (10_state.md R24) -/
  gpr : Vector QWord 16
  /-- RIP or EIP (10_state.md R25) -/
  pc : QWord
  /-- 10_state.md R26; its width is PRESUMED (log 32) -/
  rflags : QWord
  /-- 10_state.md R29; its width is PRESUMED (log 32) -/
  cr0 : QWord
  /-- 10_state.md R29, which gives it bits 63:0 -/
  cr2 : QWord
  /-- 10_state.md R29; its width is PRESUMED (log 32) -/
  cr4 : QWord
  /-- 10_state.md R30 -/
  xcr0 : QWord
  /-- IA32_EFER (10_state.md R29); its width is PRESUMED (log 32) -/
  efer : QWord
  es : Segment
  /-- the low two bits of its selector are CPL (10_state.md R32) -/
  cs : Segment
  ss : Segment
  ds : Segment
  fs : Segment
  gs : Segment
  /-- CS.L (10_state.md R32) -/
  csL : Bool
  /-- CS.D (10_state.md R32) -/
  csD : Bool
  /-- the debug registers (60_exceptions.md R130); their width is PRESUMED (log 32) -/
  dr0 : QWord
  dr1 : QWord
  dr2 : QWord
  dr3 : QWord
  dr7 : QWord
  /-- IDTR (60_exceptions.md R124); its widths are PRESUMED (log 32) -/
  idtrBase : QWord
  idtrLimit : BitVec 16
  /-- linear memory (10_state.md R28) -/
  mem : Memory
  /-- the program text of the run, if it was launched with one (70_reset_and_hazards.md R134) -/
  program : Option ProgramText
  /-- the parameters of 00_scope.md R8 -/
  platform : Platform
  /-- the MODEL's own counter, which picks among open outcomes (log 10) -/
  draws : Nat
deriving DecidableEq, Repr

/-- All addresses, ordinary memory, everything permitted. -/
def wholeMemory : Region :=
  { base := 0, size := 2 ^ 64, kind := .ordinary, storeSupervisor := true, storeUser := true, execute := true }

/-- The parameters that State.reset takes: VA_BITS and KW as 00_scope.md R8 gives them. The rest is a
DESIGN CHOICE (log 7), unsafe. -/
def defaultPlatform : Platform :=
  { hasAVX512F := true, hasAVX512VL := true, vaBits := 48, kw := .kw64, regions := [wholeMemory] }

/-- A segment register after reset, but for its selector and base: PRESUMED (log 6), unsafe. -/
def Segment.atReset (selector : BitVec 16) (base : QWord) : Segment :=
  { selector, base, limit := 0xFFFF#32, writable := true }

/-- The machine right after reset (10_state.md R34; 70_reset_and_hazards.md R132). The values R34 does not give are in
logs 5, 6, 7 and 10. That bits 63:32 of x[2], above EDX, are 0 is a DESIGN CHOICE (log 5), unsafe. -/
def State.reset : State :=
  { zmm := Vector.replicate 32 0
    k := Vector.replicate 8 0
    mxcsr := 0x1F80#32
    gpr := (Vector.replicate 16 0#64).set 2 (Config.processorSignature.setWidth 64)
    pc := 0x0000FFF0#64
    rflags := 0x00000002#64
    cr0 := 0x60000010#64
    cr2 := 0
    cr4 := 0
    xcr0 := 1
    efer := 0
    es := Segment.atReset 0 0
    cs := Segment.atReset 0xF000#16 0xFFFF0000#64
    ss := Segment.atReset 0 0
    ds := Segment.atReset 0 0
    fs := Segment.atReset 0 0
    gs := Segment.atReset 0 0
    csL := false
    csD := false
    dr0 := 0
    dr1 := 0
    dr2 := 0
    dr3 := 0
    dr7 := 0x400#64
    idtrBase := 0
    idtrLimit := 0xFFFF#16
    mem := []
    program := none
    platform := defaultPlatform
    draws := 0 }

end Sys2Proof.Machine
end

