-- ==== Sys2Proof/WellFormed.lean ====
section
/-! DEFINITION. Which instructions an encoding exists for, in 64-bit mode and in 32-bit mode
(30_encoding.md R61, R62, R66, R71). -/

namespace Sys2Proof

/-- The processor modes a decoder tells apart (10_state.md R32; 60_exceptions.md R114, R127). -/
inductive DecodeMode where
  | mode64
  | mode32
  /-- real-address or virtual-8086 mode: every form is #UD (R114) -/
  | realOrV86
deriving DecidableEq, Repr

/-- A displacement that a base register with low bits 101b admits: mod = 00b is another operand (R61, R62). -/
def Disp.presentFor101 (b : BitVec 4) (d : Disp) : Bool :=
  b.extractLsb' 0 3 != 0b101#3 || d != .none

/-- Register number 4 cannot be an index (30_encoding.md R62). -/
def indexOk : Option ScaledIndex → Bool
  | none => true
  | some si => si.index != 4#4

/-- A memory operand that has an encoding (30_encoding.md R61, R62): r/m = 100b means a SIB byte. -/
def MemOperand.encodable : MemOperand → Bool
  | .dispOnly _ => true
  | .base b d => b.extractLsb' 0 3 != 0b100#3 && d.presentFor101 b
  | .sib b index d => indexOk index && d.presentFor101 b
  | .sibNoBase index _ => indexOk index

/-- Only the general registers 0 to 7 exist in 32-bit mode (30_encoding.md R66). -/
def indexLow : Option ScaledIndex → Bool
  | none => true
  | some si => si.index.extractLsb' 3 1 == 0#1

/-- A memory operand whose registers exist in 32-bit mode (30_encoding.md R66). -/
def MemOperand.low : MemOperand → Bool
  | .dispOnly _ => true
  | .base b _ => b.extractLsb' 3 1 == 0#1
  | .sib b index _ => b.extractLsb' 3 1 == 0#1 && indexLow index
  | .sibNoBase index _ => indexLow index

/-- NZMM, the number of vector registers that can be named: 32 in 64-bit mode, 8 outside it (00_scope.md R8; 10_state.md R20). -/
def Config.NZMM : DecodeMode → Nat
  | .mode64 => 32
  | .mode32 => 8
  | .realOrV86 => 8

/-- A vector register that can be named in the mode (10_state.md R20). -/
def vectorReachable (mode : DecodeMode) (r : BitVec 5) : Bool := decide (r.toNat < Config.NZMM mode)

/-- An instruction that some byte sequence encodes in the mode. -/
def WellFormed (mode : DecodeMode) (i : Instr) : Bool :=
  match mode, i.form with
  | .realOrV86, _ => false
  | .mode64, .reg _ _ _ d aaa z src =>
    !(z && aaa == 0#3) && vectorReachable .mode64 d && vectorReachable .mode64 src
  | .mode64, .mem _ _ _ m _ src => m.encodable && vectorReachable .mode64 src
  | .mode32, .reg _ _ _ d aaa z src =>
    !(z && aaa == 0#3) && vectorReachable .mode32 d && vectorReachable .mode32 src
  | .mode32, .mem _ _ pfx m _ src => m.encodable && m.low && vectorReachable .mode32 src && !pfx.addrSize

end Sys2Proof
end

