-- ==== Sys2Proof/Machine/Flags.lean ====
section
/-! DEFINITION. The status and control bits: RFLAGS, CR0, CR4, XCR0, IA32_EFER, CPL, the processor mode they make,
and the conditions of 00_scope.md R8 computed from them. No form of the group writes a flag
(10_state.md R26; 40_down_convert_qword_to_word.md R106), so no flag computation stands here. -/

namespace Sys2Proof.Machine

/-- CR0.PE, bit 0 (10_state.md R29). -/
def State.pe (s : State) : Bool := s.cr0.getLsbD 0

/-- CR0.TS, bit 3 (10_state.md R29). -/
def State.ts (s : State) : Bool := s.cr0.getLsbD 3

/-- CR0.AM, bit 18 (10_state.md R29). -/
def State.am (s : State) : Bool := s.cr0.getLsbD 18

/-- CR4.OSXSAVE, bit 18 (10_state.md R29). -/
def State.osxsave (s : State) : Bool := s.cr4.getLsbD 18

/-- RFLAGS.VM, bit 17 (10_state.md R26). -/
def State.vm (s : State) : Bool := s.rflags.getLsbD 17

/-- RFLAGS.AC, bit 18 (10_state.md R26). -/
def State.ac (s : State) : Bool := s.rflags.getLsbD 18

/-- RFLAGS.TF, bit 8 (60_exceptions.md R130; the position is PRESUMED, log 28). -/
def State.tf (s : State) : Bool := s.rflags.getLsbD 8

/-- RFLAGS.IF, bit 9 (10_state.md R34; the position is PRESUMED, log 28). -/
def State.interruptFlag (s : State) : Bool := s.rflags.getLsbD 9

/-- IA32_EFER.LMA, bit 10 (10_state.md R29). -/
def State.lma (s : State) : Bool := s.efer.getLsbD 10

/-- CPL, the low two bits of the CS selector (10_state.md R32). -/
def State.cpl (s : State) : BitVec 2 := s.cs.selector.extractLsb' 0 2

/-- The processor modes (10_state.md R32; 60_exceptions.md R127). -/
inductive ProcMode where
  | real
  | virtual86
  /-- protected mode with a 16-bit code segment -/
  | code16
  | mode32
  | mode64
deriving DecidableEq, Repr

/-- The mode the machine is in (10_state.md R29, R32; 60_exceptions.md R127). -/
def State.mode (s : State) : ProcMode :=
  if !s.pe then .real
  else if s.vm then .virtual86
  else if s.lma && s.csL then .mode64
  else if s.csD then .mode32
  else .code16

/-- 64-bit mode. -/
def State.is64 (s : State) : Bool := s.mode == .mode64

/-- How bytes at `pc` are decoded; none with a 16-bit code segment, which the spec refuses (60_exceptions.md R127). -/
def State.decodeMode (s : State) : Option DecodeMode :=
  match s.mode with
  | .real => some .realOrV86
  | .virtual86 => some .realOrV86
  | .code16 => none
  | .mode32 => some .mode32
  | .mode64 => some .mode64

/-- The state conditions whose failure is #UD for every form: rows 1 to 5 of 60_exceptions.md R114. -/
def State.avx512Enabled (s : State) : Bool :=
  s.pe && !s.vm && s.osxsave && s.xcr0.extractLsb' 5 3 == 0b111#3 && s.xcr0.extractLsb' 1 2 == 0b11#2

/-- OS_ENABLED (10_state.md R30). -/
def State.osEnabled (s : State) : Bool := s.avx512Enabled && !s.ts

/-- The CPUID flags of a form: AVX512F, and AVX512VL too for VL = 128 or 256 (60_exceptions.md R114). -/
def State.hasVL (s : State) (vl : VL) : Bool :=
  s.platform.hasAVX512F && (vl == .v512 || s.platform.hasAVX512VL)

/-- AC_ENABLED: CR0.AM = 1, RFLAGS.AC = 1 and CPL = 3 (00_scope.md R8). -/
def State.alignmentChecking (s : State) : Bool := s.am && s.ac && s.cpl == 3#2

/-- Single-stepping or an enabled breakpoint (60_exceptions.md R130): RFLAGS.TF, or an enable bit L0, G0 to L3, G3 of DR7
(bits 7:0, PRESUMED, log 21). -/
def State.debugArmed (s : State) : Bool := s.tf || s.dr7.extractLsb' 0 8 != 0#8

/-- `pc` is END (70_reset_and_hazards.md R135). -/
def State.atEnd (s : State) : Bool :=
  match s.program with
  | none => false
  | some t => s.pc == t.endAddr

end Sys2Proof.Machine
end

