-- ==== Sys2Proof/Machine/Ops.lean ====
section
/-! DEFINITION. The named operations over memory, registers and the instruction pointer, and raising an exception. -/

namespace Sys2Proof.Machine

/-! ## Memory (20_memory.md) -/

/-- The byte at an address; none where nothing gave it a value. -/
def Memory.read : Memory → Nat → Option Byte
  | [], _ => none
  | c :: cs, a => if a = c.1 then some c.2 else Memory.read cs a

/-- Write one byte and keep the canonical form. -/
def Memory.write : Memory → Nat → Byte → Memory
  | [], a, b => [(a, b)]
  | c :: cs, a, b =>
    if a < c.1 then (a, b) :: c :: cs
    else if a = c.1 then (a, b) :: cs
    else c :: Memory.write cs a b

/-- The canonical form: addresses strictly rising, each below 2^64 (20_memory.md R35). An unlisted address has no value,
and no entry says that, so no entry repeats what an unlisted address reads as. -/
abbrev Memory.wf (m : Memory) : Prop :=
  m.Pairwise (fun c d => c.1 < d.1) ∧ ∀ c ∈ m, c.1 < 2 ^ 64

/-- Address arithmetic is modulo 2^64 in 64-bit mode and modulo 2^32 otherwise (00_scope.md R11; 20_memory.md R36). -/
def wrapAddr (is64 : Bool) (a : QWord) : QWord :=
  if is64 then a else (a.setWidth 32).setWidth 64

/-- The address of byte `i` of an access at `a`. -/
def byteAddr (is64 : Bool) (a : QWord) (i : Nat) : QWord := wrapAddr is64 (a + BitVec.ofNat 64 i)

/-- MemRead(a, n): `n` bytes, the one at the lowest address in bits 7:0 (20_memory.md R39). -/
def Memory.readLE (is64 : Bool) (m : Memory) (a : QWord) : (n : Nat) → Option (BitVec (8 * n))
  | 0 => some 0#0
  | n + 1 =>
    match Memory.readLE is64 m a n, m.read (byteAddr is64 a n).toNat with
    | some low, some b => some ((b ++ low).cast (by omega))
    | _, _ => none

/-- MemWrite(a, n, v): byte `a + i` gets bits `8i+7 : 8i` of `v`, for `i = 0 .. n-1` (20_memory.md R40). -/
def Memory.writeLE (is64 : Bool) (m : Memory) (a : QWord) (n : Nat) (v : BitVec (8 * n)) : Memory :=
  (List.range n).foldl (fun m i => m.write (byteAddr is64 a i).toNat (v.extractLsb' (8 * i) 8)) m

/-- The byte at a linear address. -/
def State.readByte (s : State) (a : QWord) : Option Byte := s.mem.read a.toNat

/-- The same state with another memory. -/
def State.setMem (s : State) (m : Memory) : State := { s with mem := m }

/-! ## The platform's predicates over linear byte addresses -/

/-- A canonical address: bits 63 : VA_BITS-1 all equal (20_memory.md R37). -/
def State.canonical (s : State) (a : QWord) : Bool :=
  a.sshiftRight (s.platform.vaBits - 1) == 0#64 || a.sshiftRight (s.platform.vaBits - 1) == BitVec.allOnes 64

/-- The first region that holds an address. -/
def State.regionAt (s : State) (a : QWord) : Option Region :=
  s.platform.regions.find? fun r => decide (r.base ≤ a.toNat) && decide (a.toNat < r.base + r.size)

/-- In 64-bit mode an address must be canonical (20_memory.md R37). -/
def State.canonicalOk (s : State) (a : QWord) : Bool := !s.is64 || s.canonical a

/-- Mapped(a) (20_memory.md R37, R38). -/
def State.mapped (s : State) (a : QWord) : Bool := s.canonicalOk a && (s.regionAt a).isSome

/-- Whether the region of an address answers a question with yes. -/
def State.regionSays (s : State) (a : QWord) (q : Region → Bool) : Bool := (s.regionAt a).any q

/-- Writable(a): a store at the current CPL is permitted, and the byte is mapped (20_memory.md R38). -/
def State.writable (s : State) (a : QWord) : Bool :=
  s.mapped a && s.regionSays a fun r => if s.cpl = 3#2 then r.storeUser else r.storeSupervisor

/-- A byte that may be fetched (60_exceptions.md R122 step 1). -/
def State.executable (s : State) (a : QWord) : Bool :=
  s.mapped a && s.regionSays a fun r => r.execute && r.kind == .ordinary

/-- A byte of a device (20_memory.md R47). -/
def State.isDevice (s : State) (a : QWord) : Bool := s.regionSays a fun r => r.kind == .device

/-- The base of the code segment, which counts outside 64-bit mode only (10_state.md R27). -/
def State.codeBase (s : State) : QWord := if s.is64 then 0 else s.cs.base

/-- A byte of the program text: from its first byte up to END (20_memory.md R51). `pc` and END are offsets in the code
segment, and the distances from the first byte wrap as `pc` does (10_state.md R25). -/
def State.inProgram (s : State) (a : QWord) : Bool :=
  match s.program with
  | none => false
  | some t => decide (wrapAddr s.is64 (a - s.codeBase - t.first) < wrapAddr s.is64 (t.endAddr - t.first))

/-! ## Registers -/

/-- `zmm[i]` (00_scope.md R11). -/
def State.getZmm (s : State) (i : BitVec 5) : Zmm := s.zmm[i.toNat]'i.isLt

/-- `zmm[i] <- v`, all 512 bits (00_scope.md R11). -/
def State.setZmm (s : State) (i : BitVec 5) (v : Zmm) : State :=
  { s with zmm := s.zmm.set i.toNat v i.isLt }

/-- `x[i]` (00_scope.md R11; 10_state.md R24). -/
def State.getGpr (s : State) (i : BitVec 4) : QWord := s.gpr[i.toNat]'i.isLt

/-- `k[i]`, a KW-bit value (00_scope.md R11; 10_state.md R21). -/
def State.getK (s : State) (i : BitVec 3) : QWord :=
  match s.platform.kw with
  | .kw64 => s.k[i.toNat]'i.isLt
  | .kw16 => ((s.k[i.toNat]'i.isLt).setWidth 16).setWidth 64

/-- A segment register by name. -/
def State.segment (s : State) : SegReg → Segment
  | .es => s.es
  | .cs => s.cs
  | .ss => s.ss
  | .ds => s.ds
  | .fs => s.fs
  | .gs => s.gs

/-! ## The instruction pointer -/

/-- The address of the next instruction, `pc + len`, modulo 2^64, or 2^32 outside 64-bit mode (10_state.md R25). -/
def State.nextPc (s : State) (len : Nat) : QWord := byteAddr s.is64 s.pc len

/-- An instruction completes: `pc <- pc + len` (40_down_convert_qword_to_word.md R96 step 6, R105). The model's counter of
open outcomes advances (log 10). -/
def State.retire (s : State) (len : Nat) : State :=
  { s with pc := s.nextPc len, draws := s.draws + 1 }

/-! ## Exceptions -/

/-- What a step answers. -/
abbrev StepResult := Host.Outcome State Fault Refusal

/-- TAKING AN EXCEPTION (60_exceptions.md R123): the run ends in Fault(vector, error_code, cr2), and the state at the fault is
the state before the instruction. The delivery through a descriptor table, and the return from it, are left out by
00_scope.md R7, which replaces them by this outcome. -/
def raise (e : Exception) : StepResult := .fault (.exception e)

/-- The outcome of an operation that stops the instruction. -/
def Stop.outcome : Stop → StepResult
  | .fault f => .fault f
  | .refuse r => .refused r

end Sys2Proof.Machine
end

