-- ==== Sys2Proof/Machine/Operands.lean ====
section
/-! DEFINITION. The operands: writemask, effective and linear addresses, and the checks of a store. -/

namespace Sys2Proof.Machine

/-! ## The writemask -/

/-- `enabled(j)` (40_down_convert_qword_to_word.md R95): no writemask (aaa = 000b), or bit `j` of `k[aaa]`. -/
def State.enabled (s : State) (aaa : BitVec 3) (j : Nat) : Bool :=
  aaa == 0#3 || (s.getK aaa).getLsbD j

/-- The enabled elements of a form, in rising order: the set E of 20_memory.md R43. -/
def State.enabledElements (s : State) (vl : VL) (aaa : BitVec 3) : List Nat :=
  (List.range vl.kl).filter (s.enabled aaa)

/-- The offsets of the bytes of the enabled elements: `2j` and `2j + 1` (20_memory.md R43). -/
def State.enabledBytes (s : State) (vl : VL) (aaa : BitVec 3) : List Nat :=
  (s.enabledElements vl aaa).flatMap fun j => [2 * j, 2 * j + 1]

/-! ## Addresses (30_encoding.md R61 to R66; 20_memory.md R36) -/

/-- 32-bit address size: prefix 67h in 64-bit mode (30_encoding.md R64), always outside it (R66). -/
def State.addr32 (s : State) (pfx : Prefixes) : Bool := !s.is64 || pfx.addrSize

/-- A base or index register, read as its low 32 bits with 32-bit address size (30_encoding.md R64, R66). -/
def State.addrReg (s : State) (a32 : Bool) (r : BitVec 4) : QWord :=
  if a32 then ((s.getGpr r).setWidth 32).setWidth 64 else s.getGpr r

/-- The index value `x[index] * 2^scale`, 0 when there is no index (30_encoding.md R62, R64). -/
def State.indexValue (s : State) (a32 : Bool) : Option ScaledIndex → QWord
  | none => 0
  | some si => s.addrReg a32 si.index <<< si.scale.toNat

/-- The displacement: nothing, `N * sext_64(disp8)`, or `sext_64(disp32)` (30_encoding.md R61, R63). -/
def dispValue (n : Nat) : Disp → QWord
  | .none => 0
  | .disp8 d => BitVec.ofNat 64 n * d.signExtend 64
  | .disp32 d => d.signExtend 64

/-- The sum of base, index and displacement (30_encoding.md R61, R62, R64). Without base and SIB byte the base is `pc + len` in
64-bit mode (R61) and nothing in 32-bit mode (R66). -/
def State.addressSum (s : State) (a32 : Bool) (n len : Nat) : MemOperand → QWord
  | .dispOnly d => (if s.is64 then s.nextPc len else 0) + d.signExtend 64
  | .base b d => s.addrReg a32 b + dispValue n d
  | .sib b index d => s.addrReg a32 b + s.indexValue a32 index + dispValue n d
  | .sibNoBase index d => s.indexValue a32 index + d.signExtend 64

/-- The effective address EA (30_encoding.md R64, R66). -/
def State.effectiveAddress (s : State) (vl : VL) (pfx : Prefixes) (m : MemOperand) : QWord :=
  wrapAddr (!s.addr32 pfx) (s.addressSum (s.addr32 pfx) vl.operandBytes (memLength pfx m) m)

/-- The base register of an address, if there is one (30_encoding.md R61, R62). -/
def baseReg : MemOperand → Option (BitVec 4)
  | .dispOnly _ => none
  | .base b _ => some b
  | .sib b _ _ => some b
  | .sibNoBase _ _ => none

/-- The default segment: SS when the base register is RSP or RBP, else DS (20_memory.md R36). -/
def defaultSegment (m : MemOperand) : SegReg :=
  if baseReg m = some 4#4 ∨ baseReg m = some 5#4 then .ss else .ds

/-- The segment of the access. In 64-bit mode the overrides for CS, DS, ES and SS are ignored (20_memory.md R36). -/
def State.accessSegment (s : State) (pfx : Prefixes) (m : MemOperand) : SegReg :=
  match pfx.seg with
  | none => defaultSegment m
  | some .fs => .fs
  | some .gs => .gs
  | some seg => if s.is64 then defaultSegment m else seg

/-- The segment's base: in 64-bit mode only FS and GS have one (20_memory.md R36; 10_state.md R27). -/
def State.segmentBase (s : State) (seg : SegReg) : QWord :=
  if s.is64 then
    match seg with
    | .fs => s.fs.base
    | .gs => s.gs.base
    | _ => 0
  else (s.segment seg).base

/-- The linear address LA of the memory destination (20_memory.md R36). -/
def State.linearAddress (s : State) (vl : VL) (pfx : Prefixes) (m : MemOperand) : QWord :=
  wrapAddr s.is64 (s.segmentBase (s.accessSegment pfx m) + s.effectiveAddress vl pfx m)

/-- The linear address of byte `i` of the memory destination (20_memory.md R41). -/
def State.operandByte (s : State) (vl : VL) (pfx : Prefixes) (m : MemOperand) (i : Nat) : QWord :=
  byteAddr s.is64 (s.linearAddress vl pfx m) i

/-! ## The checks of a store (60_exceptions.md R117 to R120, R122) -/

/-- A null selector: bits 15:2 are 0. -/
def Segment.isNull (g : Segment) : Bool := g.selector.extractLsb' 2 14 == 0#14

/-- SegCheck32 at one byte (20_memory.md R36; 60_exceptions.md R117, R118): the selector is null, the segment is not
writable, or the byte's effective address is outside the limit. DESIGN CHOICE (log 9). -/
def Segment.violated (g : Segment) (ea : QWord) : Bool :=
  g.isNull || !g.writable || decide (g.limit < ea.setWidth 32)

/-- Byte `i` has a segment or canonical violation (60_exceptions.md R117, R118). -/
def State.segmentViolation (s : State) (vl : VL) (pfx : Prefixes) (m : MemOperand) (i : Nat) : Bool :=
  if s.is64 then !s.canonical (s.operandByte vl pfx m i)
  else (s.segment (s.accessSegment pfx m)).violated (byteAddr false (s.effectiveAddress vl pfx m) i)

/-- The exception of a segment or canonical violation: #SS(0) through SS, else #GP(0) (60_exceptions.md R117, R118). -/
def State.segmentException (s : State) (pfx : Prefixes) (m : MemOperand) : Exception :=
  if s.accessSegment pfx m = .ss then .ss0 else .gp0

/-- The error code of a page fault at a byte (60_exceptions.md R119): P, W/R, U/S, I/D as the rule says, the other
bits the platform's (free, log 11). -/
def State.pageFaultCode (s : State) (a : QWord) : BitVec 32 :=
  (Config.pageFaultPlatformBits s.draws &&& ~~~0x17#32)
    ||| (if s.mapped a then 1#32 else 0#32) ||| 2#32 ||| (if s.cpl = 3#2 then 4#32 else 0#32)

/-- A free draw from the candidates (60_exceptions.md R122; log 10). -/
def drawFrom {α : Type} (draw : Nat) (l : List α) : Option α := l[Config.faultDraw draw % l.length]?

/-- Step 6 of 60_exceptions.md R122: over the bytes of the enabled elements, a segment or canonical violation comes
first; else a page fault at one of the bytes that are not writable, drawn freely. -/
def State.memoryFault (s : State) (vl : VL) (pfx : Prefixes) (m : MemOperand) (aaa : BitVec 3) : Option Exception :=
  if (s.enabledBytes vl aaa).any (s.segmentViolation vl pfx m) then some (s.segmentException pfx m)
  else
    (drawFrom s.draws ((s.enabledBytes vl aaa).filter fun i => !s.writable (s.operandByte vl pfx m i))).map fun i =>
      .pf (s.pageFaultCode (s.operandByte vl pfx m i)) (s.operandByte vl pfx m i)

/-- Step 7 of 60_exceptions.md R122, the alignment check of R120. It concerns a store that accesses memory at an address that is
no multiple of the operand's size, while AC_ENABLED holds. A 4- or 8-byte operand with every element enabled raises
#AC(0). The cases R120 calls unsettled (16 bytes, masked-off elements) are refused (log 12). -/
def State.alignmentStop (s : State) (vl : VL) (pfx : Prefixes) (m : MemOperand) (aaa : BitVec 3) : Option Stop :=
  if !s.alignmentChecking || (s.enabledElements vl aaa).isEmpty
      || (s.linearAddress vl pfx m).toNat % vl.operandBytes == 0 then none
  else if vl == .v512 || (s.enabledElements vl aaa).length != vl.kl then some (.refuse .alignmentUnsettled)
  else some (.fault (.exception .ac0))

/-- The stores the spec refuses: into the program text (20_memory.md R51), into a device (R47). -/
def State.storeRefusal (s : State) (vl : VL) (pfx : Prefixes) (m : MemOperand) (aaa : BitVec 3) : Option Stop :=
  if (s.enabledBytes vl aaa).any fun i => s.inProgram (s.operandByte vl pfx m i) then some (.refuse .storeIntoProgram)
  else if (s.enabledBytes vl aaa).any fun i => s.isDevice (s.operandByte vl pfx m i) then some (.refuse .deviceStore)
  else none

/-- Everything that can stop a store, in the order of 60_exceptions.md R122. -/
def State.storeStop (s : State) (vl : VL) (pfx : Prefixes) (m : MemOperand) (aaa : BitVec 3) : Option Stop :=
  match s.memoryFault vl pfx m aaa with
  | some e => some (.fault (.exception e))
  | none =>
    match s.alignmentStop vl pfx m aaa with
    | some stop => some stop
    | none => s.storeRefusal vl pfx m aaa

/-! ## The state and feature checks (60_exceptions.md R114, R115) -/

/-- Step 2 of 40_down_convert_qword_to_word.md R96: #UD, then #NM. -/
def State.checkEnabled (s : State) (vl : VL) : Option Exception :=
  if !s.avx512Enabled || !s.hasVL vl then some .ud
  else if s.ts then some .nm
  else none

end Sys2Proof.Machine
end

