-- ==== Sys2Proof/Machine/DownConvert.lean ====
section
/-! DEFINITION. The meanings of VPMOVQW, VPMOVSQW and VPMOVUSQW (40_down_convert_qword_to_word.md R96 to R104): two shared
operations, and one definition for each row of the opcode table. -/

namespace Sys2Proof.Machine

/-- The result of a register form (R97, R99, R101): word `j` below KL is the converted element where enabled, the old word
under merging, 0 under zeroing; bits 511 : 16*KL are 0 (R103). -/
def State.registerResult (s : State) (c : Conversion) (vl : VL) (d : BitVec 5) (aaa : BitVec 3) (z : Bool)
    (src : BitVec 5) : Zmm :=
  packWords (fun j =>
    if s.enabled aaa j then convert c (quadElement (s.getZmm src) j)
    else if z then 0#16
    else wordElement (s.getZmm d) j) vl.kl

/-- The memory after a memory form (R98, R100, R102): MemWrite(a + 2j, 2, converted element j) for every enabled `j`. -/
def State.storedMemory (s : State) (c : Conversion) (vl : VL) (pfx : Prefixes) (m : MemOperand) (aaa : BitVec 3)
    (src : BitVec 5) : Memory :=
  (s.enabledElements vl aaa).foldl (fun mem j =>
    Memory.writeLE s.is64 mem (s.operandByte vl pfx m (2 * j)) 2 (convert c (quadElement (s.getZmm src) j))) s.mem

/-- A form with a register destination (R96, R97, R99, R101). -/
def execRegister (c : Conversion) (vl : VL) (pfx : Prefixes) (d : BitVec 5) (aaa : BitVec 3) (z : Bool)
    (src : BitVec 5) (s : State) : StepResult :=
  match s.checkEnabled vl with
  | some e => raise e
  | none => .next ((s.setZmm d (s.registerResult c vl d aaa z src)).retire (regLength pfx))

/-- A form with a memory destination (R96, R98, R100, R102). -/
def execMemory (c : Conversion) (vl : VL) (pfx : Prefixes) (m : MemOperand) (aaa : BitVec 3)
    (src : BitVec 5) (s : State) : StepResult :=
  match s.checkEnabled vl with
  | some e => raise e
  | none =>
    match s.storeStop vl pfx m aaa with
    | some stop => stop.outcome
    | none => .next ((s.setMem (s.storedMemory c vl pfx m aaa src)).retire (memLength pfx m))

/-- VPMOVQW, VL = 128, register destination (R75, R97). -/
def execVpmovqw128Reg (pfx : Prefixes) (d : BitVec 5) (aaa : BitVec 3) (z : Bool) (src : BitVec 5) (s : State) : StepResult :=
  execRegister .truncate .v128 pfx d aaa z src s

/-- VPMOVQW, VL = 128, memory destination (R75, R98). -/
def execVpmovqw128Mem (pfx : Prefixes) (m : MemOperand) (aaa : BitVec 3) (src : BitVec 5) (s : State) : StepResult :=
  execMemory .truncate .v128 pfx m aaa src s

/-- VPMOVSQW, VL = 128, register destination (R76, R99). -/
def execVpmovsqw128Reg (pfx : Prefixes) (d : BitVec 5) (aaa : BitVec 3) (z : Bool) (src : BitVec 5) (s : State) : StepResult :=
  execRegister .signedSaturate .v128 pfx d aaa z src s

/-- VPMOVSQW, VL = 128, memory destination (R76, R100). -/
def execVpmovsqw128Mem (pfx : Prefixes) (m : MemOperand) (aaa : BitVec 3) (src : BitVec 5) (s : State) : StepResult :=
  execMemory .signedSaturate .v128 pfx m aaa src s

/-- VPMOVUSQW, VL = 128, register destination (R77, R101). -/
def execVpmovusqw128Reg (pfx : Prefixes) (d : BitVec 5) (aaa : BitVec 3) (z : Bool) (src : BitVec 5) (s : State) : StepResult :=
  execRegister .unsignedSaturate .v128 pfx d aaa z src s

/-- VPMOVUSQW, VL = 128, memory destination (R77, R102). -/
def execVpmovusqw128Mem (pfx : Prefixes) (m : MemOperand) (aaa : BitVec 3) (src : BitVec 5) (s : State) : StepResult :=
  execMemory .unsignedSaturate .v128 pfx m aaa src s

/-- VPMOVQW, VL = 256, register destination (R78, R97). -/
def execVpmovqw256Reg (pfx : Prefixes) (d : BitVec 5) (aaa : BitVec 3) (z : Bool) (src : BitVec 5) (s : State) : StepResult :=
  execRegister .truncate .v256 pfx d aaa z src s

/-- VPMOVQW, VL = 256, memory destination (R78, R98). -/
def execVpmovqw256Mem (pfx : Prefixes) (m : MemOperand) (aaa : BitVec 3) (src : BitVec 5) (s : State) : StepResult :=
  execMemory .truncate .v256 pfx m aaa src s

/-- VPMOVSQW, VL = 256, register destination (R79, R99). -/
def execVpmovsqw256Reg (pfx : Prefixes) (d : BitVec 5) (aaa : BitVec 3) (z : Bool) (src : BitVec 5) (s : State) : StepResult :=
  execRegister .signedSaturate .v256 pfx d aaa z src s

/-- VPMOVSQW, VL = 256, memory destination (R79, R100). -/
def execVpmovsqw256Mem (pfx : Prefixes) (m : MemOperand) (aaa : BitVec 3) (src : BitVec 5) (s : State) : StepResult :=
  execMemory .signedSaturate .v256 pfx m aaa src s

/-- VPMOVUSQW, VL = 256, register destination (R80, R101). -/
def execVpmovusqw256Reg (pfx : Prefixes) (d : BitVec 5) (aaa : BitVec 3) (z : Bool) (src : BitVec 5) (s : State) : StepResult :=
  execRegister .unsignedSaturate .v256 pfx d aaa z src s

/-- VPMOVUSQW, VL = 256, memory destination (R80, R102). -/
def execVpmovusqw256Mem (pfx : Prefixes) (m : MemOperand) (aaa : BitVec 3) (src : BitVec 5) (s : State) : StepResult :=
  execMemory .unsignedSaturate .v256 pfx m aaa src s

/-- VPMOVQW, VL = 512, register destination (R81, R97). -/
def execVpmovqw512Reg (pfx : Prefixes) (d : BitVec 5) (aaa : BitVec 3) (z : Bool) (src : BitVec 5) (s : State) : StepResult :=
  execRegister .truncate .v512 pfx d aaa z src s

/-- VPMOVQW, VL = 512, memory destination (R81, R98). -/
def execVpmovqw512Mem (pfx : Prefixes) (m : MemOperand) (aaa : BitVec 3) (src : BitVec 5) (s : State) : StepResult :=
  execMemory .truncate .v512 pfx m aaa src s

/-- VPMOVSQW, VL = 512, register destination (R82, R99). -/
def execVpmovsqw512Reg (pfx : Prefixes) (d : BitVec 5) (aaa : BitVec 3) (z : Bool) (src : BitVec 5) (s : State) : StepResult :=
  execRegister .signedSaturate .v512 pfx d aaa z src s

/-- VPMOVSQW, VL = 512, memory destination (R82, R100). -/
def execVpmovsqw512Mem (pfx : Prefixes) (m : MemOperand) (aaa : BitVec 3) (src : BitVec 5) (s : State) : StepResult :=
  execMemory .signedSaturate .v512 pfx m aaa src s

/-- VPMOVUSQW, VL = 512, register destination (R83, R101). -/
def execVpmovusqw512Reg (pfx : Prefixes) (d : BitVec 5) (aaa : BitVec 3) (z : Bool) (src : BitVec 5) (s : State) : StepResult :=
  execRegister .unsignedSaturate .v512 pfx d aaa z src s

/-- VPMOVUSQW, VL = 512, memory destination (R83, R102). -/
def execVpmovusqw512Mem (pfx : Prefixes) (m : MemOperand) (aaa : BitVec 3) (src : BitVec 5) (s : State) : StepResult :=
  execMemory .unsignedSaturate .v512 pfx m aaa src s

end Sys2Proof.Machine
end

