-- ==== Sys2Proof/Machine/Dispatch.lean ====
section
/-! DEFINITION. The meaning of every instruction, one arm per constructor. -/

namespace Sys2Proof.Machine

/-- What executing an instruction does (40_down_convert_qword_to_word.md R96). -/
def exec (i : Instr) (s : State) : Host.Outcome State Fault Refusal :=
  match i with
  | .vpmovqw128Reg pfx d aaa z src => Sys2Proof.Machine.execVpmovqw128Reg pfx d aaa z src s
  | .vpmovqw128Mem pfx m aaa src => Sys2Proof.Machine.execVpmovqw128Mem pfx m aaa src s
  | .vpmovsqw128Reg pfx d aaa z src => Sys2Proof.Machine.execVpmovsqw128Reg pfx d aaa z src s
  | .vpmovsqw128Mem pfx m aaa src => Sys2Proof.Machine.execVpmovsqw128Mem pfx m aaa src s
  | .vpmovusqw128Reg pfx d aaa z src => Sys2Proof.Machine.execVpmovusqw128Reg pfx d aaa z src s
  | .vpmovusqw128Mem pfx m aaa src => Sys2Proof.Machine.execVpmovusqw128Mem pfx m aaa src s
  | .vpmovqw256Reg pfx d aaa z src => Sys2Proof.Machine.execVpmovqw256Reg pfx d aaa z src s
  | .vpmovqw256Mem pfx m aaa src => Sys2Proof.Machine.execVpmovqw256Mem pfx m aaa src s
  | .vpmovsqw256Reg pfx d aaa z src => Sys2Proof.Machine.execVpmovsqw256Reg pfx d aaa z src s
  | .vpmovsqw256Mem pfx m aaa src => Sys2Proof.Machine.execVpmovsqw256Mem pfx m aaa src s
  | .vpmovusqw256Reg pfx d aaa z src => Sys2Proof.Machine.execVpmovusqw256Reg pfx d aaa z src s
  | .vpmovusqw256Mem pfx m aaa src => Sys2Proof.Machine.execVpmovusqw256Mem pfx m aaa src s
  | .vpmovqw512Reg pfx d aaa z src => Sys2Proof.Machine.execVpmovqw512Reg pfx d aaa z src s
  | .vpmovqw512Mem pfx m aaa src => Sys2Proof.Machine.execVpmovqw512Mem pfx m aaa src s
  | .vpmovsqw512Reg pfx d aaa z src => Sys2Proof.Machine.execVpmovsqw512Reg pfx d aaa z src s
  | .vpmovsqw512Mem pfx m aaa src => Sys2Proof.Machine.execVpmovsqw512Mem pfx m aaa src s
  | .vpmovusqw512Reg pfx d aaa z src => Sys2Proof.Machine.execVpmovusqw512Reg pfx d aaa z src s
  | .vpmovusqw512Mem pfx m aaa src => Sys2Proof.Machine.execVpmovusqw512Mem pfx m aaa src s

end Sys2Proof.Machine
end

