-- ==== Sys2Proof/Decode.lean ====
section
/-! DEFINITION. The decoder of 30_encoding.md R84, total on any bytes, and after it the encoder. -/

namespace Sys2Proof

/-! ## The fields of the encoding -/

/-- ModRM.mod (00_scope.md R13). -/
def modField (b : Byte) : BitVec 2 := b.extractLsb' 6 2

/-- ModRM.reg, and SIB.index, bits 5:3 (00_scope.md R13; 30_encoding.md R62). -/
def regField (b : Byte) : BitVec 3 := b.extractLsb' 3 3

/-- ModRM.r/m, and SIB.base, bits 2:0 (00_scope.md R13; 30_encoding.md R62). -/
def rmField (b : Byte) : BitVec 3 := b.extractLsb' 0 3

/-- SIB.scale, bits 7:6 (30_encoding.md R62). -/
def scaleField (b : Byte) : BitVec 2 := b.extractLsb' 6 2

/-- A logical bit whose complement is stored at bit `n` (30_encoding.md R54). -/
def invertedBit (b : Byte) (n : Nat) : BitVec 1 := BitVec.ofBool (!b.getLsbD n)

/-- A displacement or immediate of four bytes, little-endian in the instruction stream (20_memory.md R39). -/
def le32 (b0 b1 b2 b3 : Byte) : BitVec 32 := b3 ++ b2 ++ b1 ++ b0

/-- `mm`, the opcode map: P0 bits 1:0 (30_encoding.md R54). -/
def mmField (p0 : Byte) : BitVec 2 := p0.extractLsb' 0 2

/-- `pp`, the mandatory prefix: P1 bits 1:0 (30_encoding.md R54). -/
def ppField (p1 : Byte) : BitVec 2 := p1.extractLsb' 0 2

/-- The stored vvvv: P1 bits 6:3 (30_encoding.md R54). -/
def vvvvField (p1 : Byte) : BitVec 4 := p1.extractLsb' 3 4

/-- `aaa`, the writemask register number: P2 bits 2:0 (30_encoding.md R69). -/
def aaaField (p2 : Byte) : BitVec 3 := p2.extractLsb' 0 3

/-- `z`, P2 bit 7: zeroing-masking (30_encoding.md R69). -/
def zField (p2 : Byte) : Bool := p2.getLsbD 7

/-- `L'L`, P2 bits 6:5: the vector length; 11b is reserved (30_encoding.md R58). -/
def vlField (p2 : Byte) : Option VL :=
  if p2.extractLsb' 5 2 = 0b00#2 then some .v128
  else if p2.extractLsb' 5 2 = 0b01#2 then some .v256
  else if p2.extractLsb' 5 2 = 0b10#2 then some .v512
  else none

/-- The mnemonic by opcode byte: 34h, 24h, 14h (00_scope.md R1; 30_encoding.md R84 step 8). -/
def conversionOf (op : Byte) : Option Conversion :=
  if op = 0x34#8 then some .truncate
  else if op = 0x24#8 then some .signedSaturate
  else if op = 0x14#8 then some .unsignedSaturate
  else none

/-- The source register number `s = R' ++ R ++ ModRM.reg` (30_encoding.md R59). In 32-bit mode R and R' are 0
when decoding gets this far, so that `s = ModRM.reg` (R66). -/
def sourceNumber (p0 modrm : Byte) : BitVec 5 := invertedBit p0 4 ++ invertedBit p0 7 ++ regField modrm

/-- The register destination number `d = X ++ B ++ ModRM.r/m` (30_encoding.md R60). -/
def destNumber (p0 modrm : Byte) : BitVec 5 := invertedBit p0 6 ++ invertedBit p0 5 ++ rmField modrm

/-! ## Steps 1 to 3: prefixes, EVEX, opcode -/

/-- Why bytes are no instruction of this spec. -/
inductive DecodeRefusal where
  /-- not 62h, or another map, mandatory prefix or opcode (30_encoding.md R74) -/
  | notInGroup
  /-- 62h in 32-bit mode that is BOUND (30_encoding.md R66) -/
  | bound
  /-- a second segment override or a second 67h (30_encoding.md R67) -/
  | repeatedPrefix
  /-- stored B̄ = 0 or R̄' = 0 in 32-bit mode (30_encoding.md R66) -/
  | mode32RegisterBits
  /-- 67h in 32-bit mode with a memory destination: 16-bit addressing (30_encoding.md R66) -/
  | addressSize16
deriving DecidableEq, Repr

/-- What decoding a byte list answers. -/
inductive DecodeResult where
  /-- an instruction, and the bytes after it -/
  | instr (i : Instr) (rest : List Byte)
  /-- an encoding that raises #UD -/
  | ud
  | refuse (r : DecodeRefusal)
  /-- the list ends before the instruction does -/
  | truncated
deriving DecidableEq, Repr

/-- What a byte is where a prefix may stand (30_encoding.md R67, R68). -/
inductive PrefixByte where
  | segOverride (s : SegReg)
  | addressSize
  /-- 66h, F2h, F3h, F0h, or REX in 64-bit mode: the instruction is #UD -/
  | forbidden
  | notAPrefix
deriving DecidableEq, Repr

/-- Step 1 of 30_encoding.md R84: which bytes are legacy prefixes. REX (40h to 4Fh) is a prefix in 64-bit mode only. -/
def classifyByte (mode : DecodeMode) (b : Byte) : PrefixByte :=
  if b = 0x26#8 then .segOverride .es
  else if b = 0x2E#8 then .segOverride .cs
  else if b = 0x36#8 then .segOverride .ss
  else if b = 0x3E#8 then .segOverride .ds
  else if b = 0x64#8 then .segOverride .fs
  else if b = 0x65#8 then .segOverride .gs
  else if b = 0x67#8 then .addressSize
  else if b = 0x66#8 || b = 0xF2#8 || b = 0xF3#8 || b = 0xF0#8 then .forbidden
  else if mode = .mode64 ∧ b.extractLsb' 4 4 = 4#4 then .forbidden
  else .notAPrefix

/-- What reading the legacy prefixes answers. -/
inductive PrefixResult where
  | done (pfx : Prefixes) (forbidden : Bool) (rest : List Byte)
  | refuse (r : DecodeRefusal)
  | truncated
deriving DecidableEq, Repr

/-- Step 1 of 30_encoding.md R84. -/
def readPrefixes (mode : DecodeMode) (pfx : Prefixes) (forbidden : Bool) : List Byte → PrefixResult
  | [] => .truncated
  | b :: bs =>
    match classifyByte mode b with
    | .segOverride s =>
      if pfx.seg.isSome then .refuse .repeatedPrefix
      else readPrefixes mode { pfx with seg := some s } forbidden bs
    | .addressSize =>
      if pfx.addrSize then .refuse .repeatedPrefix
      else readPrefixes mode { pfx with addrSize := true } forbidden bs
    | .forbidden => readPrefixes mode pfx true bs
    | .notAPrefix => .done pfx forbidden (b :: bs)

/-- What steps 1 to 3 of 30_encoding.md R84 have read. -/
structure Header where
  pfx : Prefixes
  /-- 66h, F2h, F3h, F0h or REX was read -/
  forbidden : Bool
  p0 : Byte
  p1 : Byte
  p2 : Byte
  conv : Conversion
  rest : List Byte
deriving DecidableEq, Repr

/-- What steps 1 to 3 answer. -/
inductive HeaderResult where
  | header (h : Header)
  | refuse (r : DecodeRefusal)
  | truncated
deriving DecidableEq, Repr

/-- Outside 64-bit mode byte 62h is BOUND unless bits 7:6 of the byte after it are 11b (30_encoding.md R66). -/
def isBound (mode : DecodeMode) (p0 : Byte) : Bool :=
  mode != .mode64 && p0.extractLsb' 6 2 != 0b11#2

/-- Step 3 of 30_encoding.md R84: map, mandatory prefix and opcode. -/
def readOpcode (pfx : Prefixes) (forbidden : Bool) (p0 : Byte) : List Byte → HeaderResult
  | p1 :: p2 :: op :: rest =>
    if mmField p0 = 0b10#2 ∧ ppField p1 = 0b10#2 then
      match conversionOf op with
      | some c => .header ⟨pfx, forbidden, p0, p1, p2, c, rest⟩
      | none => .refuse .notInGroup
    else .refuse .notInGroup
  | _ => .truncated

/-- Step 2 of 30_encoding.md R84: the EVEX byte 62h, and BOUND outside 64-bit mode. -/
def readEvex (mode : DecodeMode) (pfx : Prefixes) (forbidden : Bool) : List Byte → HeaderResult
  | b :: bs =>
    if b = 0x62#8 then
      match bs with
      | p0 :: rest => if isBound mode p0 then .refuse .bound else readOpcode pfx forbidden p0 rest
      | [] => .truncated
    else .refuse .notInGroup
  | [] => .truncated

/-- Steps 1 to 3 of 30_encoding.md R84. -/
def readHeader (mode : DecodeMode) (bs : List Byte) : HeaderResult :=
  match readPrefixes mode ⟨none, false⟩ false bs with
  | .done pfx forbidden rest => readEvex mode pfx forbidden rest
  | .refuse r => .refuse r
  | .truncated => .truncated

/-! ## Steps 4 and 5: the encodings that raise #UD -/

/-- Steps 4 and 5 of 30_encoding.md R84: a forbidden prefix (R68), stored vvvv not 1111b (R70), or a reserved
combination (R71). -/
def headerUd (h : Header) : Bool :=
  h.forbidden || h.p0.extractLsb' 2 2 != 0b00#2 || !h.p1.getLsbD 2 || h.p1.getLsbD 7
    || vvvvField h.p1 != 0b1111#4 || !h.p2.getLsbD 3 || (vlField h.p2).isNone || h.p2.getLsbD 4
    || (zField h.p2 && aaaField h.p2 == 0#3)

/-! ## Step 6: the operands -/

/-- A displacement of four bytes and the bytes after it. -/
def takeDisp32 : List Byte → Option (BitVec 32 × List Byte)
  | b0 :: b1 :: b2 :: b3 :: rest => some (le32 b0 b1 b2 b3, rest)
  | _ => none

/-- The displacement that `mod` selects after a base register (30_encoding.md R61). -/
def takeDisp (mod : BitVec 2) (bs : List Byte) : Option (Disp × List Byte) :=
  if mod = 0b00#2 then some (.none, bs)
  else if mod = 0b01#2 then
    match bs with
    | d :: rest => some (.disp8 d, rest)
    | [] => none
  else (takeDisp32 bs).map fun p => (.disp32 p.1, p.2)

/-- The index of a SIB byte: register number `X ++ index`, none when it is 4 (30_encoding.md R62). -/
def sibIndex (p0 sib : Byte) : Option ScaledIndex :=
  if invertedBit p0 6 ++ regField sib = 4#4 then none
  else some ⟨invertedBit p0 6 ++ regField sib, scaleField sib⟩

/-- A memory destination with a SIB byte (30_encoding.md R62). -/
def readSib (p0 : Byte) (mod : BitVec 2) : List Byte → Option (MemOperand × List Byte)
  | sib :: rest =>
    if rmField sib = 0b101#3 ∧ mod = 0b00#2 then
      (takeDisp32 rest).map fun p => (.sibNoBase (sibIndex p0 sib) p.1, p.2)
    else
      (takeDisp mod rest).map fun p => (.sib (invertedBit p0 5 ++ rmField sib) (sibIndex p0 sib) p.1, p.2)
  | [] => none

/-- A memory destination (30_encoding.md R61, R62). -/
def readMem (p0 modrm : Byte) (bs : List Byte) : Option (MemOperand × List Byte) :=
  if rmField modrm = 0b100#3 then readSib p0 (modField modrm) bs
  else if modField modrm = 0b00#2 ∧ rmField modrm = 0b101#3 then
    (takeDisp32 bs).map fun p => (.dispOnly p.1, p.2)
  else
    (takeDisp (modField modrm) bs).map fun p => (.base (invertedBit p0 5 ++ rmField modrm) p.1, p.2)

/-- Stored B̄ = 0 or R̄' = 0, which 32-bit mode leaves open (30_encoding.md R66, 92_eei_decisions.md D20). -/
def mode32BitsOpen (mode : DecodeMode) (p0 : Byte) : Bool :=
  mode == .mode32 && (!p0.getLsbD 5 || !p0.getLsbD 4)

/-- Steps 6 to 8 of 30_encoding.md R84. -/
def readOperands (mode : DecodeMode) (h : Header) (vl : VL) : List Byte → DecodeResult
  | modrm :: bs =>
    if modField modrm = 0b11#2 then
      if mode32BitsOpen mode h.p0 then .refuse .mode32RegisterBits
      else .instr (.regForm h.conv vl h.pfx (destNumber h.p0 modrm) (aaaField h.p2) (zField h.p2)
        (sourceNumber h.p0 modrm)) bs
    else if zField h.p2 then .ud
    else
      match readMem h.p0 modrm bs with
      | none => .truncated
      | some (m, rest) =>
        if mode32BitsOpen mode h.p0 then .refuse .mode32RegisterBits
        else if mode == .mode32 && h.pfx.addrSize then .refuse .addressSize16
        else .instr (.memForm h.conv vl h.pfx m (aaaField h.p2) (sourceNumber h.p0 modrm)) rest
  | [] => .truncated

/-- The decoder (30_encoding.md R84). In real-address and virtual-8086 mode every form is #UD (60_exceptions.md R114). -/
def decode (mode : DecodeMode) (bs : List Byte) : DecodeResult :=
  match readHeader mode bs with
  | .refuse r => .refuse r
  | .truncated => .truncated
  | .header h =>
    if mode = .realOrV86 ∨ headerUd h then .ud
    else
      match vlField h.p2 with
      | none => .ud
      | some vl => readOperands mode h vl h.rest

/-- The bytes after the ModRM byte, the SIB byte and the displacement of a form, whose layout no field of the EVEX prefix
changes (30_encoding.md R53). -/
def operandsEnd (p0 : Byte) : List Byte → Option (List Byte)
  | modrm :: bs => if modField modrm = 0b11#2 then some bs else (readMem p0 modrm bs).map fun p => p.2
  | [] => none

/-- The bytes hold a form of the group, reserved fields included, up to its last byte: what must be fetched before it raises
#UD (60_exceptions.md R122 steps 1 and 3). -/
def formComplete (mode : DecodeMode) (bs : List Byte) : Bool :=
  match readHeader mode bs with
  | .header h => (operandsEnd h.p0 h.rest).isSome
  | _ => false

/-! ## The encoder -/

/-- The byte of a segment override (30_encoding.md R67). -/
def SegReg.byte : SegReg → Byte
  | .es => 0x26#8
  | .cs => 0x2E#8
  | .ss => 0x36#8
  | .ds => 0x3E#8
  | .fs => 0x64#8
  | .gs => 0x65#8

/-- The legacy prefix bytes: the segment override, then 67h. -/
def encodePrefixes (pfx : Prefixes) : List Byte :=
  (match pfx.seg with
    | some s => [s.byte]
    | none => []) ++ if pfx.addrSize then [0x67#8] else []

/-- P0 = R̄ X̄ B̄ R̄' 0010b (30_encoding.md R55), from the logical R, X, B, R'. -/
def encodeP0 (r x b r' : Bool) : Byte :=
  BitVec.ofBool (!r) ++ BitVec.ofBool (!x) ++ BitVec.ofBool (!b) ++ BitVec.ofBool (!r') ++ 0b0010#4

/-- L'L (30_encoding.md R58). -/
def VL.bits : VL → BitVec 2
  | .v128 => 0b00#2
  | .v256 => 0b01#2
  | .v512 => 0b10#2

/-- P2 = z L'L 0 1 aaa (30_encoding.md R55). -/
def encodeP2 (z : Bool) (vl : VL) (aaa : BitVec 3) : Byte :=
  BitVec.ofBool z ++ vl.bits ++ 0b01#2 ++ aaa

/-- The opcode byte (00_scope.md R1). -/
def Conversion.opcode : Conversion → Byte
  | .truncate => 0x34#8
  | .signedSaturate => 0x24#8
  | .unsignedSaturate => 0x14#8

/-- ModRM or SIB: two bits, three bits, three bits (00_scope.md R13; 30_encoding.md R62). -/
def packByte (top : BitVec 2) (mid low : BitVec 3) : Byte := top ++ mid ++ low

/-- Four bytes, little-endian (20_memory.md R39). -/
def bytes32 (d : BitVec 32) : List Byte :=
  [d.extractLsb' 0 8, d.extractLsb' 8 8, d.extractLsb' 16 8, d.extractLsb' 24 8]

/-- ModRM.mod of a displacement (30_encoding.md R61). -/
def Disp.mod : Disp → BitVec 2
  | .none => 0b00#2
  | .disp8 _ => 0b01#2
  | .disp32 _ => 0b10#2

/-- The bytes of a displacement (30_encoding.md R61, R85). -/
def Disp.bytes : Disp → List Byte
  | .none => []
  | .disp8 d => [d]
  | .disp32 d => bytes32 d

/-- SIB.index of an index, 100b for none (30_encoding.md R62). -/
def indexBits : Option ScaledIndex → BitVec 3
  | none => 0b100#3
  | some si => si.index.extractLsb' 0 3

/-- SIB.scale of an index, 00b for none, where it has no effect (30_encoding.md R62). -/
def scaleBits : Option ScaledIndex → BitVec 2
  | none => 0b00#2
  | some si => si.scale

/-- The X bit of an index (30_encoding.md R62). -/
def indexX : Option ScaledIndex → Bool
  | none => false
  | some si => si.index.getLsbD 3

/-- ModRM.mod of a memory operand (30_encoding.md R61, R62). -/
def MemOperand.mod : MemOperand → BitVec 2
  | .dispOnly _ => 0b00#2
  | .base _ d => d.mod
  | .sib _ _ d => d.mod
  | .sibNoBase _ _ => 0b00#2

/-- ModRM.r/m of a memory operand (30_encoding.md R61, R62). -/
def MemOperand.rm : MemOperand → BitVec 3
  | .dispOnly _ => 0b101#3
  | .base b _ => b.extractLsb' 0 3
  | .sib _ _ _ => 0b100#3
  | .sibNoBase _ _ => 0b100#3

/-- The B bit of a memory operand (30_encoding.md R61, R62). -/
def MemOperand.bitB : MemOperand → Bool
  | .dispOnly _ => false
  | .base b _ => b.getLsbD 3
  | .sib b _ _ => b.getLsbD 3
  | .sibNoBase _ _ => false

/-- The X bit of a memory operand (30_encoding.md R62). -/
def MemOperand.bitX : MemOperand → Bool
  | .dispOnly _ => false
  | .base _ _ => false
  | .sib _ index _ => indexX index
  | .sibNoBase index _ => indexX index

/-- The SIB byte and the displacement bytes of a memory operand (30_encoding.md R61, R62). -/
def MemOperand.tail : MemOperand → List Byte
  | .dispOnly d => bytes32 d
  | .base _ d => d.bytes
  | .sib b index d => packByte (scaleBits index) (indexBits index) (b.extractLsb' 0 3) :: d.bytes
  | .sibNoBase index d => packByte (scaleBits index) (indexBits index) 0b101#3 :: bytes32 d

/-- The bytes of a register form (30_encoding.md R53, R55, R59, R60). -/
def encodeReg (c : Conversion) (vl : VL) (pfx : Prefixes) (d : BitVec 5) (aaa : BitVec 3) (z : Bool)
    (src : BitVec 5) : List Byte :=
  encodePrefixes pfx ++
    [0x62#8, encodeP0 (src.getLsbD 3) (d.getLsbD 4) (d.getLsbD 3) (src.getLsbD 4), 0x7E#8, encodeP2 z vl aaa,
      c.opcode, packByte 0b11#2 (src.extractLsb' 0 3) (d.extractLsb' 0 3)]

/-- The bytes of a memory form (30_encoding.md R53, R55, R59, R61, R62). -/
def encodeMem (c : Conversion) (vl : VL) (pfx : Prefixes) (m : MemOperand) (aaa : BitVec 3)
    (src : BitVec 5) : List Byte :=
  encodePrefixes pfx ++
    [0x62#8, encodeP0 (src.getLsbD 3) m.bitX m.bitB (src.getLsbD 4), 0x7E#8, encodeP2 false vl aaa,
      c.opcode, packByte m.mod (src.extractLsb' 0 3) m.rm] ++ m.tail

/-- The bytes of an instruction, in increasing address order (30_encoding.md R53). -/
def encode (i : Instr) : List Byte :=
  match i.form with
  | .reg c vl pfx d aaa z src => encodeReg c vl pfx d aaa z src
  | .mem c vl pfx m aaa src => encodeMem c vl pfx m aaa src

/-! ## The opcode table's words -/

/-- The first `n` bytes of a number whose bits are numbered from the first byte up. -/
def bytesOfNat (n w : Nat) : List Byte :=
  (List.range n).map fun i => BitVec.ofNat 8 (w / 2 ^ (8 * i))

/-- The longest admitted instruction in bytes (30_encoding.md R65). -/
def longestInstruction : Nat := 13

/-- The bytes of an instruction whose first `nbits` bits are `w` and whose other bits are zero. -/
def tableBytes (nbits w : Nat) : List Byte := bytesOfNat longestInstruction (w % 2 ^ nbits)

/-- The instruction the decoder reads, in 64-bit mode, from the opcode table's word. -/
def decodeTableWord (nbits w : Nat) : Option Instr :=
  match decode .mode64 (tableBytes nbits w) with
  | .instr i _ => some i
  | _ => none

end Sys2Proof
end

