-- ==== Sys2Proof/Machine/Fetch.lean ====
section
/-! DEFINITION. Fetching and decoding the instruction at `pc`, and placing one there. -/

namespace Sys2Proof.Machine

/-- The offset of byte `i` of the instruction at `pc` in the code segment (10_state.md R25). -/
def State.codeOffset (s : State) (i : Nat) : QWord := byteAddr s.is64 s.pc i

/-- The linear address of byte `i` of the instruction at `pc` (10_state.md R27). -/
def State.codeAddress (s : State) (i : Nat) : QWord := wrapAddr s.is64 (s.codeBase + s.codeOffset i)

/-- The number of bytes from `pc` up to END, 0 where `pc` is not in the program text (70_reset_and_hazards.md R134, R135). -/
def State.textLeft (s : State) : Nat :=
  match s.program with
  | none => 0
  | some t => if s.inProgram (s.codeAddress 0) then (wrapAddr s.is64 (t.endAddr - s.pc)).toNat else 0

/-- A fetch address that is not canonical, or is outside the code segment's limit outside 64-bit mode (10_state.md R25). -/
def State.fetchViolation (s : State) (i : Nat) : Bool :=
  if s.is64 then !s.canonical (s.codeAddress i)
  else decide (s.cs.limit < (s.codeOffset i).setWidth 32)

/-- Byte `i` of the instruction at `pc`: refused where it is not mapped and executable (60_exceptions.md R122 step 1), under the
name of #GP(0) where 10_state.md R25 gives the fetch that fault (log 14), and a fault where it holds no value (70_reset_and_hazards.md R134). -/
def State.fetchByte (s : State) (i : Nat) : Except Stop Byte :=
  if s.fetchViolation i then .error (.refuse (.fetchFault .gp0 (s.codeAddress i)))
  else if !s.executable (s.codeAddress i) then .error (.refuse (.fetchNotExecutable (s.codeAddress i)))
  else
    match s.readByte (s.codeAddress i) with
    | some b => .ok b
    | none => .error (.fault (.unwrittenByte (s.codeAddress i)))

/-- The bytes from `i` on, at most `n` of them, up to the first that cannot be fetched, and why that one cannot. After `n` bytes
the program text ends (00_scope.md R15). -/
def State.fetchFrom (s : State) (i : Nat) : Nat → List Byte × Stop
  | 0 => ([], .refuse .outsideProgram)
  | n + 1 =>
    match s.fetchByte i with
    | .ok b => (b :: (s.fetchFrom (i + 1) n).1, (s.fetchFrom (i + 1) n).2)
    | .error e => ([], e)

/-- The bytes of the program text at `pc`, and why the byte after them cannot be fetched. -/
def State.fetchWindow (s : State) : List Byte × Stop := s.fetchFrom 0 s.textLeft

/-- What fetching and decoding answers. -/
inductive Fetched where
  | run (i : Instr)
  | stop (e : Stop)
deriving DecidableEq, Repr

/-- The refusal of bytes that are no instruction of this spec. -/
def refusalOf : DecodeRefusal → Refusal
  | .notInGroup => .notInGroup
  | .bound => .bound
  | .repeatedPrefix => .repeatedPrefix
  | .mode32RegisterBits => .mode32RegisterBits
  | .addressSize16 => .addressSize16

/-- What a window means, in the order of 60_exceptions.md R122: an instruction or a form that is #UD needs all its bytes, and stops
as the fetch of the first missing one does (step 1); then a refusal (step 2), #UD (step 3), and #GP(0) for more than
MAXLEN bytes, which no admitted encoding has (step 4; 30_encoding.md R65). -/
def fetchedOf (mode : DecodeMode) (window : List Byte × Stop) : Fetched :=
  match decode mode window.1 with
  | .truncated => .stop window.2
  | .refuse r => .stop (.refuse (refusalOf r))
  | .ud => if formComplete mode window.1 then .stop (.fault (.exception .ud)) else .stop window.2
  | .instr i _ => if Config.MAXLEN < i.length then .stop (.fault (.exception .gp0)) else .run i

/-- Steps 1 to 4 of 60_exceptions.md R122, after the conditions under which nothing is fetched: END is reached
(70_reset_and_hazards.md R135), a debug feature is armed (60_exceptions.md R130), alignment checking is on (R120), a 16-bit
code segment (R127). -/
def State.fetch (s : State) : Fetched :=
  if s.atEnd then .stop (.refuse .runEnded)
  else if s.debugArmed then .stop (.refuse .debugArmed)
  else if s.alignmentChecking then .stop (.refuse .alignmentCheckingOn)
  else
    match s.decodeMode with
    | none => .stop (.refuse .codeSegment16)
    | some mode => fetchedOf mode s.fetchWindow

/-! ## Launching a program (70_reset_and_hazards.md R133, R134) -/

/-- The launch premises hold: OS_ENABLED, a 32- or 64-bit mode, not AC_ENABLED, no debug feature armed
(70_reset_and_hazards.md R134). -/
def State.launched (s : State) : Bool :=
  s.osEnabled && (s.mode == .mode64 || s.mode == .mode32) && !s.alignmentChecking && !s.debugArmed

/-- The boot steps 1 to 6 of 70_reset_and_hazards.md R133 for 64-bit mode, with RFLAGS.AC = 0 for step 6, and no debug feature
armed (60_exceptions.md R130). The positions of CR0.PG, CR4.PAE and IA32_EFER.LME are PRESUMED (log 28). -/
def State.boot (s : State) : State :=
  { s with
    cr0 := (s.cr0 ||| 0x80000001#64) &&& ~~~0x8#64
    cr4 := s.cr4 ||| 0x40020#64
    efer := s.efer ||| 0x500#64
    xcr0 := s.xcr0 ||| 0xE7#64
    rflags := s.rflags &&& ~~~0x60100#64
    dr7 := s.dr7 &&& ~~~0xFF#64
    csL := true
    csD := false }

/-- The premises of R134, by the boot where they do not hold yet. -/
def State.launch (s : State) : State := if s.launched then s else s.boot

/-- Bytes stored where the instruction at `pc` is fetched. -/
def State.placeCode (s : State) (bs : List Byte) : State :=
  { s with mem := (bs.zipIdx.foldl (fun m p => m.write (s.codeAddress p.2).toNat p.1) s.mem) }

/-- The program text is the `n` bytes from `pc` on, and END is after them (70_reset_and_hazards.md R134). -/
def State.declareText (s : State) (n : Nat) : State :=
  { s with program := some { first := s.pc, endAddr := s.nextPc n } }

/-- The length of the instruction the bytes begin with, or all of them where they begin with none. -/
def programLength (mode : Option DecodeMode) (bs : List Byte) : Nat :=
  match mode with
  | none => bs.length
  | some mode =>
    match decode mode bs with
    | .instr i _ => i.length
    | _ => bs.length

/-- A program of one instruction, loaded at `pc` (70_reset_and_hazards.md R134). -/
def State.load (s : State) (bs : List Byte) : State :=
  (s.placeCode bs).declareText (programLength s.decodeMode bs)

end Sys2Proof.Machine
end

