-- ==== Sys2Proof/Machine/Step.lean ====
section
/-! DEFINITION. One step of the machine (00_scope.md R14; 40_down_convert_qword_to_word.md R96). -/

namespace Sys2Proof.Machine

/-- One step: fetch and decode the instruction at `pc`, then execute it. The meaning itself advances `pc`. -/
def step (s : State) : Host.Outcome State Fault Refusal :=
  match s.fetch with
  | .run i => exec i s
  | .stop e => e.outcome

/-- The launch state of one instruction (70_reset_and_hazards.md R134; log 1): the instruction's bytes at `pc`, END after them, and
the launch premises where they do not hold, since right after reset every form is #UD (R132). -/
def State.withFetchWord (s : State) (nbits w : Nat) : State :=
  s.launch.load (tableBytes nbits w)

end Sys2Proof.Machine
end

