-- ==== Sys2Proof/Machine/Intrinsics.lean ====
section
/-! DEFINITION. The compiler intrinsics of the group and the forms they stand for (40_down_convert_qword_to_word.md R110, R111). -/

namespace Sys2Proof.Machine

/-- The three shapes of an intrinsic that returns a value, all at VL = 512 (R111). -/
inductive IntrinsicShape where
  /-- `_mm512_cvt*epi64_epi16(a)` -/
  | plain
  /-- `_mm512_mask_cvt*epi64_epi16(s, k, a)` -/
  | mask
  /-- `_mm512_maskz_cvt*epi64_epi16(k, a)` -/
  | maskz
deriving DecidableEq, Repr

/-- The form an intrinsic that returns a value stands for, with `zmm[d]` for `s` and the result, `k[kreg]` for `k` and
`zmm[src]` for `a` (R111). -/
def intrinsicForm (c : Conversion) (shape : IntrinsicShape) (d : BitVec 5) (kreg : BitVec 3) (src : BitVec 5) : Instr :=
  match shape with
  | .plain => .regForm c .v512 ⟨none, false⟩ d 0#3 false src
  | .mask => .regForm c .v512 ⟨none, false⟩ d kreg false src
  | .maskz => .regForm c .v512 ⟨none, false⟩ d kreg true src

/-- The form `_mm512_mask_cvt*epi64_storeu_epi16(d, k, a)` stands for, with `x[base]` for `d` (R111). A base of low bits 100b or
101b has no encoding in this shape (30_encoding.md R61). -/
def intrinsicStoreForm (c : Conversion) (base : BitVec 4) (kreg : BitVec 3) (src : BitVec 5) : Instr :=
  .memForm c .v512 ⟨none, false⟩ (.base base .none) kreg src

/-- Word `j` of the value an intrinsic returns for `s`, `k` and `a` (R111). -/
def intrinsicWord (c : Conversion) (shape : IntrinsicShape) (s : BitVec 128) (k : BitVec 8) (a : Zmm) (j : Nat) : Word :=
  match shape with
  | .plain => convert c (quadElement a j)
  | .mask => if k.getLsbD j then convert c (quadElement a j) else s.extractLsb' (16 * j) 16
  | .maskz => if k.getLsbD j then convert c (quadElement a j) else 0#16

end Sys2Proof.Machine
end

