-- ==== Sys2Proof/Safety.lean ====
section
/-! DEFINITION. The terms in which claims about the machine are stated: when a form is able to execute, when a store is
admitted, the invariant of the state, and what counts as a safe outcome. -/

namespace Sys2Proof.Machine

/-- No state, feature or mode condition of 60_exceptions.md R114 and R115 stops a form of this vector length. -/
def State.Ready (s : State) (vl : VL) : Prop :=
  s.avx512Enabled = true ∧ s.hasVL vl = true ∧ s.ts = false

/-- Element `j` is enabled: no writemask, or bit `j` of the writemask register is 1
(40_down_convert_qword_to_word.md R95). -/
def State.ElementEnabled (s : State) (aaa : BitVec 3) (j : Nat) : Prop :=
  aaa = 0#3 ∨ (s.getK aaa).getLsbD j = true

/-- Byte `i` of the memory destination may be stored to: no segment or canonical violation, writable, outside the program
text, not a device (20_memory.md R37, R38, R47, R51). -/
def State.ByteStorable (s : State) (vl : VL) (pfx : Prefixes) (m : MemOperand) (i : Nat) : Prop :=
  s.segmentViolation vl pfx m i = false ∧ s.writable (s.operandByte vl pfx m i) = true ∧
    s.inProgram (s.operandByte vl pfx m i) = false ∧ s.isDevice (s.operandByte vl pfx m i) = false

/-- Alignment checking is off, or the memory operand is aligned to its size (20_memory.md R42; 60_exceptions.md R120). -/
def State.AlignmentAccepted (s : State) (vl : VL) (pfx : Prefixes) (m : MemOperand) : Prop :=
  s.alignmentChecking = false ∨ (s.linearAddress vl pfx m).toNat % vl.operandBytes = 0

/-- Both bytes of every enabled element may be stored to (20_memory.md R43, R44). -/
def State.StoreAdmitted (s : State) (vl : VL) (pfx : Prefixes) (m : MemOperand) (aaa : BitVec 3) : Prop :=
  ∀ j, j < vl.kl → s.ElementEnabled aaa j →
    s.ByteStorable vl pfx m (2 * j) ∧ s.ByteStorable vl pfx m (2 * j + 1)

/-- An address that is one of the bytes of the enabled elements (20_memory.md R43). -/
def State.IsStoredByte (s : State) (vl : VL) (pfx : Prefixes) (m : MemOperand) (aaa : BitVec 3) (a : Nat) : Prop :=
  ∃ j, j < vl.kl ∧ s.ElementEnabled aaa j ∧
    (a = (s.operandByte vl pfx m (2 * j)).toNat ∨ a = (s.operandByte vl pfx m (2 * j + 1)).toNat)

/-- The invariant: memory keeps its canonical form, and outside 64-bit mode the instruction pointer has 32 bits
(10_state.md R25, R28). -/
def State.Inv (s : State) : Prop :=
  Memory.wf s.mem ∧ (s.is64 = false → s.pc.toNat < 2 ^ 32)

/-- A step that raises no exception and reads no byte without a value. -/
def safeOutcome : StepResult → Bool
  | .fault _ => false
  | _ => true

/-- What a register form does (40_down_convert_qword_to_word.md R97, R99, R101), for one constructor, vector length and conversion:
#UD, then #NM, then the result word by word, the zeroed upper bits, the instruction pointer and nothing else. -/
def RegisterRule (mk : Prefixes → BitVec 5 → BitVec 3 → Bool → BitVec 5 → Instr) (vl : VL) (conv : QWord → Word) : Prop :=
  ∀ (pfx : Prefixes) (d : BitVec 5) (aaa : BitVec 3) (z : Bool) (src : BitVec 5) (s : State),
    (s.avx512Enabled = false ∨ s.hasVL vl = false → exec (mk pfx d aaa z src) s = .fault (.exception .ud)) ∧
    (s.avx512Enabled = true → s.hasVL vl = true → s.ts = true →
      exec (mk pfx d aaa z src) s = .fault (.exception .nm)) ∧
    (s.Ready vl → ∃ (v : Zmm) (n : Nat),
      exec (mk pfx d aaa z src) s =
        .next { s with zmm := s.zmm.set d.toNat v d.isLt, pc := s.nextPc (regLength pfx), draws := n } ∧
      (∀ j, j < vl.kl → s.ElementEnabled aaa j → wordElement v j = conv (quadElement (s.getZmm src) j)) ∧
      (∀ j, j < vl.kl → ¬ s.ElementEnabled aaa j →
        wordElement v j = if z then 0#16 else wordElement (s.getZmm d) j) ∧
      (∀ b, 16 * vl.kl ≤ b → v.getLsbD b = false))

/-- What a memory form does (40_down_convert_qword_to_word.md R98, R100, R102), for one constructor, vector length and
conversion: #UD, then #NM, a stop for every store that is not admitted, and for an admitted store the two bytes of every enabled
word, the instruction pointer and nothing else. -/
def MemoryRule (mk : Prefixes → MemOperand → BitVec 3 → BitVec 5 → Instr) (vl : VL) (conv : QWord → Word) : Prop :=
  ∀ (pfx : Prefixes) (m : MemOperand) (aaa : BitVec 3) (src : BitVec 5) (s : State),
    (s.avx512Enabled = false ∨ s.hasVL vl = false → exec (mk pfx m aaa src) s = .fault (.exception .ud)) ∧
    (s.avx512Enabled = true → s.hasVL vl = true → s.ts = true →
      exec (mk pfx m aaa src) s = .fault (.exception .nm)) ∧
    (¬ s.StoreAdmitted vl pfx m aaa → ∀ t, exec (mk pfx m aaa src) s ≠ .next t) ∧
    (s.Ready vl → s.StoreAdmitted vl pfx m aaa → s.AlignmentAccepted vl pfx m → ∃ (mem : Memory) (n : Nat),
      exec (mk pfx m aaa src) s = .next { s with mem := mem, pc := s.nextPc (memLength pfx m), draws := n } ∧
      (∀ j, j < vl.kl → s.ElementEnabled aaa j →
        mem.read (s.operandByte vl pfx m (2 * j)).toNat =
          some ((conv (quadElement (s.getZmm src) j)).extractLsb' 0 8) ∧
        mem.read (s.operandByte vl pfx m (2 * j + 1)).toNat =
          some ((conv (quadElement (s.getZmm src) j)).extractLsb' 8 8)) ∧
      (∀ a, ¬ s.IsStoredByte vl pfx m aaa a → mem.read a = s.mem.read a))

/-- Steps 1 to 3 of 30_encoding.md R84 take these EVEX bytes for the group: not BOUND, `mm = 10b`, `pp = 10b`. -/
def InGroup (mode : DecodeMode) (p0 p1 : Byte) : Prop :=
  (mode = .mode64 ∨ p0.extractLsb' 6 2 = 0b11#2) ∧ p0.extractLsb' 0 2 = 0b10#2 ∧ p1.extractLsb' 0 2 = 0b10#2

/-- The segment override prefixes (30_encoding.md R67). -/
def isOverride (b : Byte) : Bool := [0x26#8, 0x2E#8, 0x36#8, 0x3E#8, 0x64#8, 0x65#8].contains b

/-- The prefixes that make the instruction #UD: 66h, F2h, F3h, F0h, and REX in 64-bit mode (30_encoding.md R68). -/
def isForbiddenPrefix (mode : DecodeMode) (b : Byte) : Bool :=
  [0x66#8, 0xF2#8, 0xF3#8, 0xF0#8].contains b || (mode == .mode64 && b.extractLsb' 4 4 == 4#4)

/-- A byte that step 1 of 30_encoding.md R84 reads as a prefix. -/
def IsPrefixByte (mode : DecodeMode) (b : Byte) : Prop :=
  isOverride b = true ∨ b = 0x67#8 ∨ isForbiddenPrefix mode b = true

/-- Prefix bytes in any order with at most one segment override and at most one 67h (30_encoding.md R67, R84). -/
def PrefixBytes (mode : DecodeMode) (ps : List Byte) : Prop :=
  (∀ b ∈ ps, IsPrefixByte mode b) ∧ ps.countP isOverride ≤ 1 ∧ ps.count 0x67#8 ≤ 1

/-- The bytes of an instruction of the group after its prefixes, up to the opcode, and what follows. -/
def evexBytes (p0 p1 p2 : Byte) (c : Conversion) (rest : List Byte) : List Byte :=
  0x62#8 :: p0 :: p1 :: p2 :: c.opcode :: rest

/-- The number of bytes that the SIB byte and the displacement take after a ModRM byte, given the bytes after it
(30_encoding.md R61, R62). -/
def operandBytesAfter (modrm : Byte) (tail : List Byte) : Nat :=
  (if modrm.extractLsb' 6 2 ≠ 0b11#2 ∧ modrm.extractLsb' 0 3 = 0b100#3 then 1 else 0) +
  (if modrm.extractLsb' 6 2 = 0b01#2 then 1
   else if modrm.extractLsb' 6 2 = 0b10#2 then 4
   else if modrm.extractLsb' 6 2 = 0b00#2 ∧ (modrm.extractLsb' 0 3 = 0b101#3 ∨
     modrm.extractLsb' 0 3 = 0b100#3 ∧ (tail.headD 0).extractLsb' 0 3 = 0b101#3) then 4
   else 0)

/-- The bytes after the opcode hold the ModRM byte, and the SIB byte and displacement it asks for (30_encoding.md R53). -/
def OperandsPresent (rest : List Byte) : Prop :=
  ∃ (modrm : Byte) (tail : List Byte), rest = modrm :: tail ∧ operandBytesAfter modrm tail ≤ tail.length

/-- The prefixes, the payload bytes and the ModRM byte meet no #UD condition of the encoding (30_encoding.md R68, R70, R71). -/
def NoEncodingUd (mode : DecodeMode) (ps : List Byte) (p0 p1 p2 modrm : Byte) : Prop :=
  (∀ b ∈ ps, isForbiddenPrefix mode b = false) ∧ p0.extractLsb' 2 2 = 0b00#2 ∧ p1.getLsbD 7 = false ∧
    p1.extractLsb' 3 4 = 0b1111#4 ∧ p1.getLsbD 2 = true ∧ p2.getLsbD 3 = true ∧ p2.getLsbD 4 = false ∧
    p2.extractLsb' 5 2 ≠ 0b11#2 ∧
    (p2.getLsbD 7 = true → p2.extractLsb' 0 3 ≠ 0#3 ∧ modrm.extractLsb' 6 2 = 0b11#2)

/-- The machine is at an instruction it fetches and decodes in the mode. -/
def State.Fetches (s : State) (mode : DecodeMode) : Prop :=
  s.atEnd = false ∧ s.debugArmed = false ∧ s.alignmentChecking = false ∧ s.decodeMode = some mode

/-- An instruction of the group whose bytes begin so raises #UD: the decoder says so whatever follows the opcode, and a step of a
machine that fetches it up to its last byte does so (60_exceptions.md R122 steps 1 and 3). -/
def FormRaisesUd (mode : DecodeMode) (ps : List Byte) (p0 p1 p2 : Byte) (c : Conversion) (rest : List Byte) : Prop :=
  decode mode (ps ++ evexBytes p0 p1 p2 c rest) = .ud ∧
    ∀ s : State, s.Fetches mode → s.fetchWindow.1 = ps ++ evexBytes p0 p1 p2 c rest → OperandsPresent rest →
      step s = .fault (.exception .ud)

/-- The bytes are refused: the decoder says so, and a step of a machine that fetches them does so. -/
def BytesAreRefused (mode : DecodeMode) (bs : List Byte) (r : DecodeRefusal) : Prop :=
  decode mode bs = .refuse r ∧
    ∀ s : State, s.Fetches mode → s.fetchWindow.1 = bs → step s = .refused (refusalOf r)

/-- The bytes at `pc` are fetched, and the instruction they begin needs the byte after them: they decode to no answer yet, or to
#UD before the last byte of the form (60_exceptions.md R122 step 1). -/
def State.NeedsByteAfter (s : State) (mode : DecodeMode) (bs : List Byte) : Prop :=
  s.Fetches mode ∧ bs.length ≤ s.textLeft ∧ (∀ j, (h : j < bs.length) → s.fetchByte j = .ok bs[j]) ∧
    (decode mode bs = .truncated ∨ decode mode bs = .ud ∧ formComplete mode bs = false)

/-! ## Addresses as integers, from the register values -/

/-- A general register read as its low `bits` bits (30_encoding.md R64, R66). -/
def State.registerAmount (s : State) (bits : Nat) (r : BitVec 4) : Int := ((s.getGpr r).toNat % 2 ^ bits : Nat)

/-- `x[index] * 2^scale`, 0 with no index (30_encoding.md R62). -/
def State.indexAmount (s : State) (bits : Nat) : Option ScaledIndex → Int
  | none => 0
  | some si => s.registerAmount bits si.index * 2 ^ si.scale.toNat

/-- The displacement after a base register: 0, `N` times disp8, or disp32, signed (30_encoding.md R61, R63). -/
def dispAmount (n : Nat) : Disp → Int
  | .none => 0
  | .disp8 d => n * d.toInt
  | .disp32 d => d.toInt

/-- The effective address of every operand shape with address size `bits`, where `next` is what the shape without base and SIB byte
adds its displacement to (30_encoding.md R61 to R64). -/
def State.EffectiveAddressRule (s : State) (vl : VL) (pfx : Prefixes) (bits : Nat) (next : Int) : Prop :=
  (∀ d : BitVec 32, ((s.effectiveAddress vl pfx (.dispOnly d)).toNat : Int) = (next + d.toInt) % 2 ^ bits) ∧
  (∀ (b : BitVec 4) (d : Disp), ((s.effectiveAddress vl pfx (.base b d)).toNat : Int) =
    (s.registerAmount bits b + dispAmount vl.operandBytes d) % 2 ^ bits) ∧
  (∀ (b : BitVec 4) (index : Option ScaledIndex) (d : Disp), ((s.effectiveAddress vl pfx (.sib b index d)).toNat : Int) =
    (s.registerAmount bits b + s.indexAmount bits index + dispAmount vl.operandBytes d) % 2 ^ bits) ∧
  (∀ (index : Option ScaledIndex) (d : BitVec 32), ((s.effectiveAddress vl pfx (.sibNoBase index d)).toNat : Int) =
    (s.indexAmount bits index + d.toInt) % 2 ^ bits)

end Sys2Proof.Machine
end

