-- ==== Sys2Proof/Certificates/Slice0/Obligations.lean ====
section
/-! DEFINITION. The statements for the provers. -/

open Sys2Proof Sys2Proof.Machine

/-! ## Reset -/

/-- 70_reset_and_hazards.md R132, and the values 10_state.md R27, R29 and R34 give: real-address mode at CPL 0 with interrupts disabled, the
entry point FFFFFFF0h, and #UD from every form. x[2] is left out (log 5), and the widths of MXCSR, RFLAGS, CR0 and CR4 are the
model's (log 32). -/
def Obligations.ResetStateAndEveryFormUd : Prop :=
  (∀ r, State.reset.getZmm r = 0) ∧ (∀ r, State.reset.getK r = 0) ∧ (∀ r, r ≠ 2#4 → State.reset.getGpr r = 0) ∧
  State.reset.mxcsr = 0x1F80#32 ∧ State.reset.pc = 0xFFF0#64 ∧ State.reset.cs.base = 0xFFFF0000#64 ∧
  State.reset.es.base = 0 ∧ State.reset.ss.base = 0 ∧ State.reset.ds.base = 0 ∧ State.reset.fs.base = 0 ∧
  State.reset.gs.base = 0 ∧ State.reset.rflags = 2#64 ∧ State.reset.cr0 = 0x60000010#64 ∧ State.reset.cr2 = 0 ∧
  State.reset.cr4 = 0 ∧ State.reset.lma = false ∧ State.reset.xcr0 = 1#64 ∧ State.reset.cpl = 0#2 ∧ State.reset.interruptFlag = false ∧
  State.reset.mode = .real ∧ State.reset.codeAddress 0 = 0xFFFFFFF0#64 ∧
  ∀ i, exec i State.reset = .fault (.exception .ud)

/-- State.reset meets the invariant. -/
def Obligations.ResetMeetsInvariant : Prop := State.reset.Inv

/-! ## The step -/

/-- A step runs the decoded instruction; the meaning itself advances the instruction pointer, so the step adds nothing. -/
def Obligations.StepRunsDecodedInstruction : Prop :=
  ∀ (s : State) (mode : DecodeMode) (i : Instr) (rest : List Byte), s.Fetches mode →
    decode mode s.fetchWindow.1 = .instr i rest → step s = exec i s

/-- Where the bytes of a well-formed instruction stand at the instruction pointer, in the program text, and can be fetched, the step
runs it. -/
def Obligations.StepRunsEncodedInstruction : Prop :=
  ∀ (s : State) (mode : DecodeMode) (i : Instr), s.Fetches mode → WellFormed mode i = true → i.length ≤ s.textLeft →
    (∀ k, (h : k < (encode i).length) → s.fetchByte k = .ok (encode i)[k]) → step s = exec i s

/-- The model's launch (log 1): the instruction of an opcode-table word runs as the first one after reset. -/
def Obligations.FirstInstructionAfterLaunchRuns : Prop :=
  ∀ (nbits w : Nat) (i : Instr), decodeTableWord nbits w = some i →
    step (State.reset.withFetchWord nbits w) = exec i (State.reset.withFetchWord nbits w)

/-- The stops before anything is fetched: END (70_reset_and_hazards.md R135), an armed debug feature (60_exceptions.md R130),
alignment checking (20_memory.md R42), a 16-bit code segment (60_exceptions.md R127), no program text at the instruction pointer
(70_reset_and_hazards.md R134); the way the model stops, and its order, are its choice (logs 12, 20, 21, 22). -/
def Obligations.StepStopsBeforeFetch : Prop :=
  ∀ s : State, (s.atEnd = true → step s = .refused .runEnded) ∧
    (s.atEnd = false → s.debugArmed = true → step s = .refused .debugArmed) ∧
    (s.atEnd = false → s.debugArmed = false → s.alignmentChecking = true → step s = .refused .alignmentCheckingOn) ∧
    (s.atEnd = false → s.debugArmed = false → s.alignmentChecking = false → s.mode = .code16 →
      step s = .refused .codeSegment16) ∧
    (s.atEnd = false → s.debugArmed = false → s.alignmentChecking = false → s.mode ≠ .code16 →
      s.inProgram (s.codeAddress 0) = false → step s = .refused .outsideProgram)

/-- 60_exceptions.md R122 step 1 and 10_state.md R25 (log 14): the first byte an instruction needs that lies at a non-canonical
address in 64-bit mode, or above the code segment's limit outside it, ends the run refused, under the name of the fault #GP(0). -/
def Obligations.NonCanonicalFetchIsRefused : Prop :=
  ∀ (s : State) (mode : DecodeMode) (bs : List Byte), s.NeedsByteAfter mode bs → bs.length < s.textLeft →
    (s.mode = .mode64 → s.canonical (s.pc + BitVec.ofNat 64 bs.length) = false →
      step s = .refused (.fetchFault .gp0 (s.pc + BitVec.ofNat 64 bs.length))) ∧
    (s.mode ≠ .mode64 → s.cs.limit.toNat < (s.pc.toNat + bs.length) % 2 ^ 32 →
      step s = .refused (.fetchFault .gp0 (s.codeAddress bs.length)))

/-- The stops of the fetch, at the first byte an instruction needs: a byte that is not mapped or not executable is refused
(60_exceptions.md R122 step 1), whether or not a violation names a fault; a byte with no value faults (70_reset_and_hazards.md R134; log 4), and a byte after the program text
is refused (00_scope.md R15; log 22). -/
def Obligations.UnfetchableByteStops : Prop :=
  ∀ (s : State) (mode : DecodeMode) (bs : List Byte), s.NeedsByteAfter mode bs →
    (bs.length < s.textLeft → s.mapped (s.codeAddress bs.length) = false ∨ s.executable (s.codeAddress bs.length) = false →
      ∃ r, step s = .refused r) ∧
    (bs.length < s.textLeft → s.fetchViolation bs.length = false →
      s.mapped (s.codeAddress bs.length) = false ∨ s.executable (s.codeAddress bs.length) = false →
      step s = .refused (.fetchNotExecutable (s.codeAddress bs.length))) ∧
    (bs.length < s.textLeft → s.fetchViolation bs.length = false → s.executable (s.codeAddress bs.length) = true →
      s.readByte (s.codeAddress bs.length) = none → step s = .fault (.unwrittenByte (s.codeAddress bs.length))) ∧
    (bs.length = s.textLeft → step s = .refused .outsideProgram)

/-! ## Whole-machine rules -/

/-- Every step keeps the invariant. -/
def Obligations.StepKeepsInvariant : Prop :=
  ∀ s t : State, s.Inv → step s = .next t → t.Inv

/-- 00_scope.md R16: a step changes one vector register or memory, and the instruction pointer, and nothing else (the model's
own counter apart). -/
def Obligations.StepChangesOnlyItsDestination : Prop :=
  (∀ (s : State) (e : Exception), step s = .fault (.exception e) → e.vector ≠ 19) ∧
  ∀ s t : State, step s = .next t →
    (∃ n : Nat, t = { s with zmm := t.zmm, mem := t.mem, pc := t.pc, draws := n }) ∧
    ((t.mem = s.mem ∧ ∃ (c : Conversion) (vl : VL) (pfx : Prefixes) (d : BitVec 5) (aaa : BitVec 3) (z : Bool)
        (src : BitVec 5), exec (.regForm c vl pfx d aaa z src) s = .next t ∧ ∀ r, r ≠ d → t.getZmm r = s.getZmm r) ∨
     (t.zmm = s.zmm ∧ ∃ (c : Conversion) (vl : VL) (pfx : Prefixes) (m : MemOperand) (aaa : BitVec 3) (src : BitVec 5),
        exec (.memForm c vl pfx m aaa src) s = .next t ∧
        ∀ a, ¬ s.IsStoredByte vl pfx m aaa a → t.mem.read a = s.mem.read a))

/-- 10_state.md R25 and 30_encoding.md R53, R65: a completed step advances the instruction pointer by 6 to 13 bytes, modulo
2^64 in 64-bit mode and modulo 2^32 in 32-bit mode. -/
def Obligations.StepAdvancesInstructionPointer : Prop :=
  ∀ s t : State, step s = .next t → ∃ n : Nat, 6 ≤ n ∧ n ≤ 13 ∧
    (s.mode = .mode64 → t.pc = s.pc + BitVec.ofNat 64 n) ∧
    (s.mode = .mode32 → t.pc.toNat = (s.pc.toNat + n) % 2 ^ 32)

/-- 20_memory.md R51, 00_scope.md R15: a step leaves the program text as it is, and fetches from nowhere else. -/
def Obligations.ProgramTextIsImmutable : Prop :=
  (∀ s t : State, step s = .next t → ∀ a : QWord, t.inProgram a = s.inProgram a ∧
    (s.inProgram a = true → t.readByte a = s.readByte a)) ∧
  ∀ (s : State) (k : Nat), k < s.fetchWindow.1.length → s.inProgram (s.codeAddress k) = true

/-- 60_exceptions.md R112, R120, R121: every exception a step raises has a vector and an error-code shape of the table, and none is
the SIMD floating-point exception (vector 19), nor #AC (vector 17), since a run with alignment checking on is refused (log 12). -/
def Obligations.StepRaisesOnlyListedExceptions : Prop :=
  ∀ (s : State) (e : Exception), step s = .fault (.exception e) →
    (e.vector = 6 ∧ e.errorCode = none) ∨ (e.vector = 7 ∧ e.errorCode = none) ∨
    (e.vector = 12 ∧ e.errorCode = some 0) ∨ (e.vector = 13 ∧ e.errorCode = some 0) ∨
    (e.vector = 14 ∧ ∃ code a, e.errorCode = some code ∧ e.cr2 = some a ∧ s.writable a = false)

/-! ## Encoding -/

/-- Decode and encode agree, for every well-formed instruction and whatever bytes follow. -/
def Obligations.DecodeEncodeRoundTrip : Prop :=
  ∀ (mode : DecodeMode) (i : Instr) (rest : List Byte), WellFormed mode i = true →
    decode mode (encode i ++ rest) = .instr i rest

/-- What the decoder reads is well-formed and takes exactly the instruction's length in bytes. -/
def Obligations.DecodedIsWellFormed : Prop :=
  ∀ (mode : DecodeMode) (bs : List Byte) (i : Instr) (rest : List Byte), decode mode bs = .instr i rest →
    WellFormed mode i = true ∧ rest = bs.drop i.length ∧ i.length ≤ bs.length

/-- Words written out from the encodings of 30_encoding.md R75 to R83. -/
def Obligations.SampleWordsDecode : Prop :=
  decode .mode64 [0x62, 0xF2, 0x7E, 0x48, 0x34, 0xD1] = .instr (.vpmovqw512Reg ⟨none, false⟩ 1 0 false 2) [] ∧
  decode .mode64 [0x62, 0x92, 0x7E, 0x0F, 0x24, 0xC7] = .instr (.vpmovsqw128Reg ⟨none, false⟩ 31 7 false 0) [] ∧
  decode .mode64 [0x62, 0xC2, 0x7E, 0xAD, 0x14, 0xE1] = .instr (.vpmovusqw256Reg ⟨none, false⟩ 9 5 true 20) [] ∧
  decode .mode64 [0x62, 0x12, 0x7E, 0x49, 0x24, 0x54, 0x88, 0xF8] =
    .instr (.vpmovsqw512Mem ⟨none, false⟩ (.sib 8 (some ⟨9, 2⟩) (.disp8 0xF8)) 1 10) []

/-- 30_encoding.md R70, 60_exceptions.md R113: stored vvvv not 1111b is #UD, whatever the prefixes, the form and the destination. -/
def Obligations.ReservedVvvvRaisesUd : Prop :=
  (∀ (mode : DecodeMode) (ps : List Byte) (p0 p1 p2 : Byte) (c : Conversion) (rest : List Byte),
    PrefixBytes mode ps → InGroup mode p0 p1 → p1.extractLsb' 3 4 ≠ 0b1111#4 →
    FormRaisesUd mode ps p0 p1 p2 c rest) ∧
  Exception.ud.vector = 6 ∧ Exception.ud.errorCode = none ∧ Exception.ud.cr2 = none

/-- 30_encoding.md R71, every row of its table. -/
def Obligations.ReservedCombinationsRaiseUd : Prop :=
  (∀ (mode : DecodeMode) (ps : List Byte) (p0 p1 p2 : Byte) (c : Conversion) (rest : List Byte),
    PrefixBytes mode ps → InGroup mode p0 p1 →
    (p2.getLsbD 3 = false ∨ p2.getLsbD 4 = true ∨ p1.getLsbD 7 = true ∨ p2.extractLsb' 5 2 = 0b11#2 ∨
      (p2.getLsbD 7 = true ∧ p2.extractLsb' 0 3 = 0#3) ∨
      (p2.getLsbD 7 = true ∧ ∃ modrm bs, rest = modrm :: bs ∧ modrm.extractLsb' 6 2 ≠ 0b11#2) ∨
      p0.extractLsb' 2 2 ≠ 0b00#2 ∨ p1.getLsbD 2 = false) →
    FormRaisesUd mode ps p0 p1 p2 c rest) ∧
  (∀ (i : Instr) (s : State),
    (i.vl ≠ .v512 ∧ s.platform.hasAVX512VL = false) ∨ s.platform.hasAVX512F = false →
    exec i s = .fault (.exception .ud))

/-- 30_encoding.md R68: 66h, F2h, F3h, F0h before the EVEX prefix, in any place among the prefixes, and in 64-bit mode REX (also
where it does not stand immediately before byte 62h: log 16). -/
def Obligations.ForbiddenPrefixRaisesUd : Prop :=
  ∀ (mode : DecodeMode) (ps : List Byte) (p0 p1 p2 : Byte) (c : Conversion) (rest : List Byte),
    PrefixBytes mode ps → InGroup mode p0 p1 →
    ((∃ b ∈ ps, b = 0x66#8 ∨ b = 0xF2#8 ∨ b = 0xF3#8 ∨ b = 0xF0#8) ∨
      (mode = .mode64 ∧ ∃ b ∈ ps, b.extractLsb' 4 4 = 4#4)) →
    FormRaisesUd mode ps p0 p1 p2 c rest

/-- 30_encoding.md R74: after the prefixes, bytes that do not begin with 62h, or of another map, mandatory prefix or opcode, are
refused. Byte 62h that is BOUND (R66) is another statement. -/
def Obligations.OtherBytesAreRefused : Prop :=
  ∀ (mode : DecodeMode) (ps : List Byte) (b p0 p1 p2 op : Byte) (rest : List Byte), PrefixBytes mode ps →
    (¬ IsPrefixByte mode b → b ≠ 0x62#8 → BytesAreRefused mode (ps ++ b :: rest) .notInGroup) ∧
    (mode = .mode64 ∨ p0.extractLsb' 6 2 = 0b11#2 →
      p0.extractLsb' 0 2 ≠ 0b10#2 ∨ p1.extractLsb' 0 2 ≠ 0b10#2 ∨ op ∉ [0x14#8, 0x24#8, 0x34#8] →
      BytesAreRefused mode (ps ++ 0x62#8 :: p0 :: p1 :: p2 :: op :: rest) .notInGroup)

/-- 30_encoding.md R67: a second segment override or a second 67h is refused, whatever follows. -/
def Obligations.RepeatedPrefixIsRefused : Prop :=
  ∀ (mode : DecodeMode) (ps rest : List Byte), (∀ b ∈ ps, IsPrefixByte mode b) →
    2 ≤ ps.countP isOverride ∨ 2 ≤ ps.count 0x67#8 → BytesAreRefused mode (ps ++ rest) .repeatedPrefix

/-- 30_encoding.md R66 in 32-bit mode: BOUND is refused; a form with stored B̄ = 0 or R̄' = 0 is no instruction, and 67h with a
memory destination is none either; the whole bytes of either that meet no #UD condition are refused by name. -/
def Obligations.Mode32Restrictions : Prop :=
  (∀ (ps : List Byte) (p0 : Byte) (rest : List Byte), PrefixBytes .mode32 ps → p0.extractLsb' 6 2 ≠ 0b11#2 →
    BytesAreRefused .mode32 (ps ++ 0x62#8 :: p0 :: rest) .bound) ∧
  (∀ (ps : List Byte) (p0 p1 p2 : Byte) (c : Conversion) (rest : List Byte), PrefixBytes .mode32 ps →
    InGroup .mode32 p0 p1 → p0.getLsbD 5 = false ∨ p0.getLsbD 4 = false →
    ∀ i bs, decode .mode32 (ps ++ evexBytes p0 p1 p2 c rest) ≠ .instr i bs) ∧
  (∀ (bs : List Byte) (c : Conversion) (vl : VL) (pfx : Prefixes) (m : MemOperand) (aaa : BitVec 3) (src : BitVec 5)
    (rest : List Byte), decode .mode32 bs = .instr (.memForm c vl pfx m aaa src) rest → pfx.addrSize = false) ∧
  (∀ (ps : List Byte) (p0 p1 p2 : Byte) (c : Conversion) (modrm : Byte) (tail : List Byte), PrefixBytes .mode32 ps →
    InGroup .mode32 p0 p1 → NoEncodingUd .mode32 ps p0 p1 p2 modrm → operandBytesAfter modrm tail ≤ tail.length →
    (p0.getLsbD 5 = false ∨ p0.getLsbD 4 = false →
      BytesAreRefused .mode32 (ps ++ evexBytes p0 p1 p2 c (modrm :: tail)) .mode32RegisterBits) ∧
    (p0.getLsbD 5 = true → p0.getLsbD 4 = true → 0x67#8 ∈ ps → modrm.extractLsb' 6 2 ≠ 0b11#2 →
      BytesAreRefused .mode32 (ps ++ evexBytes p0 p1 p2 c (modrm :: tail)) .addressSize16))

/-! ## State and feature conditions -/

/-- 60_exceptions.md R114, rows 1 to 7, for every instruction. -/
def Obligations.DisabledStateRaisesUd : Prop :=
  ∀ (i : Instr) (s : State),
    (s.cr0.getLsbD 0 = false ∨ s.rflags.getLsbD 17 = true ∨ s.cr4.getLsbD 18 = false ∨
      s.xcr0.extractLsb' 5 3 ≠ 0b111#3 ∨ s.xcr0.extractLsb' 1 2 ≠ 0b11#2 ∨ s.platform.hasAVX512F = false ∨
      (i.vl ≠ .v512 ∧ s.platform.hasAVX512VL = false)) →
    exec i s = .fault (.exception .ud)

/-- 60_exceptions.md R115, for every instruction. -/
def Obligations.TaskSwitchedRaisesNm : Prop :=
  (∀ (i : Instr) (s : State), s.cr0.getLsbD 3 = true → s.avx512Enabled = true → s.hasVL i.vl = true →
    exec i s = .fault (.exception .nm)) ∧
  Exception.nm.vector = 7 ∧ Exception.nm.errorCode = none

/-! ## The conversions -/

/-- 40_down_convert_qword_to_word.md R90. -/
def Obligations.TruncateConversion : Prop :=
  ∀ q : QWord, (truncateQuadWordToWord q).toNat = q.toNat % 65536

/-- 40_down_convert_qword_to_word.md R91. -/
def Obligations.SignedSaturateConversion : Prop :=
  ∀ q : QWord, (saturateSignedQuadWordToWord q).toInt = max (-32768) (min 32767 q.toInt) ∧
    (-32768 ≤ q.toInt → q.toInt ≤ 32767 → saturateSignedQuadWordToWord q = q.extractLsb' 0 16)

/-- 40_down_convert_qword_to_word.md R92. -/
def Obligations.UnsignedSaturateConversion : Prop :=
  ∀ q : QWord, (saturateUnsignedQuadWordToWord q).toNat = min 65535 q.toNat ∧
    (q.toNat ≤ 65535 → saturateUnsignedQuadWordToWord q = q.extractLsb' 0 16)

/-- 40_down_convert_qword_to_word.md R109. -/
def Obligations.RelationsOfTheConversions : Prop :=
  ∀ q : QWord,
    (q.toNat ≤ 32767 → truncateQuadWordToWord q = q.extractLsb' 0 16 ∧
      saturateSignedQuadWordToWord q = q.extractLsb' 0 16 ∧ saturateUnsignedQuadWordToWord q = q.extractLsb' 0 16) ∧
    (32768 ≤ q.toNat → q.toNat ≤ 65535 → truncateQuadWordToWord q = q.extractLsb' 0 16 ∧
      saturateUnsignedQuadWordToWord q = q.extractLsb' 0 16 ∧ saturateSignedQuadWordToWord q = 0x7FFF#16) ∧
    (-32768 ≤ q.toInt → q.toInt ≤ -1 → truncateQuadWordToWord q = q.extractLsb' 0 16 ∧
      saturateSignedQuadWordToWord q = q.extractLsb' 0 16 ∧ saturateUnsignedQuadWordToWord q = 0xFFFF#16)

/-! ## The forms -/

/-- 40_down_convert_qword_to_word.md R97, at the three vector lengths. -/
def Obligations.VpmovqwRegisterForms : Prop :=
  RegisterRule Instr.vpmovqw128Reg .v128 truncateQuadWordToWord ∧
  RegisterRule Instr.vpmovqw256Reg .v256 truncateQuadWordToWord ∧
  RegisterRule Instr.vpmovqw512Reg .v512 truncateQuadWordToWord

/-- 40_down_convert_qword_to_word.md R98, at the three vector lengths. -/
def Obligations.VpmovqwMemoryForms : Prop :=
  MemoryRule Instr.vpmovqw128Mem .v128 truncateQuadWordToWord ∧
  MemoryRule Instr.vpmovqw256Mem .v256 truncateQuadWordToWord ∧
  MemoryRule Instr.vpmovqw512Mem .v512 truncateQuadWordToWord

/-- 40_down_convert_qword_to_word.md R99, at the three vector lengths. -/
def Obligations.VpmovsqwRegisterForms : Prop :=
  RegisterRule Instr.vpmovsqw128Reg .v128 saturateSignedQuadWordToWord ∧
  RegisterRule Instr.vpmovsqw256Reg .v256 saturateSignedQuadWordToWord ∧
  RegisterRule Instr.vpmovsqw512Reg .v512 saturateSignedQuadWordToWord

/-- 40_down_convert_qword_to_word.md R100, at the three vector lengths. -/
def Obligations.VpmovsqwMemoryForms : Prop :=
  MemoryRule Instr.vpmovsqw128Mem .v128 saturateSignedQuadWordToWord ∧
  MemoryRule Instr.vpmovsqw256Mem .v256 saturateSignedQuadWordToWord ∧
  MemoryRule Instr.vpmovsqw512Mem .v512 saturateSignedQuadWordToWord

/-- 40_down_convert_qword_to_word.md R101, at the three vector lengths. -/
def Obligations.VpmovusqwRegisterForms : Prop :=
  RegisterRule Instr.vpmovusqw128Reg .v128 saturateUnsignedQuadWordToWord ∧
  RegisterRule Instr.vpmovusqw256Reg .v256 saturateUnsignedQuadWordToWord ∧
  RegisterRule Instr.vpmovusqw512Reg .v512 saturateUnsignedQuadWordToWord

/-- 40_down_convert_qword_to_word.md R102, at the three vector lengths. -/
def Obligations.VpmovusqwMemoryForms : Prop :=
  MemoryRule Instr.vpmovusqw128Mem .v128 saturateUnsignedQuadWordToWord ∧
  MemoryRule Instr.vpmovusqw256Mem .v256 saturateUnsignedQuadWordToWord ∧
  MemoryRule Instr.vpmovusqw512Mem .v512 saturateUnsignedQuadWordToWord

/-- 40_down_convert_qword_to_word.md R111: the intrinsics that return a value give the low 128 bits of the destination of the form
they stand for, and that form zeroes the bits above. -/
def Obligations.IntrinsicsReturnTheirWords : Prop :=
  ∀ (c : Conversion) (shape : IntrinsicShape) (d : BitVec 5) (kreg : BitVec 3) (src : BitVec 5) (s : State),
    kreg ≠ 0#3 → s.Ready .v512 →
    ∃ t, exec (intrinsicForm c shape d kreg src) s = .next t ∧
      (∀ j, j < 8 → ((t.getZmm d).extractLsb' 0 128).extractLsb' (16 * j) 16 =
        intrinsicWord c shape ((s.getZmm d).extractLsb' 0 128) ((s.getK kreg).extractLsb' 0 8) (s.getZmm src) j) ∧
      (t.getZmm d).extractLsb' 128 384 = 0#384

/-! ## Masks -/

/-- 40_down_convert_qword_to_word.md R108 (a), 10_state.md R22: a form sees only bits KL-1:0 of its writemask register. -/
def Obligations.HighMaskBitsHaveNoEffect : Prop :=
  ∀ (i : Instr) (s t : State) (k : Vector QWord 8),
    (i.aaa ≠ 0#3 → ∀ j, j < i.vl.kl →
      (({ s with k := k } : State).getK i.aaa).getLsbD j = (s.getK i.aaa).getLsbD j) →
    exec i s = .next t → exec i { s with k := k } = .next { t with k := k }

/-- 40_down_convert_qword_to_word.md R108 (b): with bits KL-1:0 of the writemask all zero, a memory form touches no memory and
completes whatever its address, and a register form keeps or zeroes its words and zeroes the rest. -/
def Obligations.AllZeroMask : Prop :=
  ∀ (c : Conversion) (vl : VL) (pfx : Prefixes) (d : BitVec 5) (m : MemOperand) (aaa : BitVec 3) (src : BitVec 5) (s : State),
    aaa ≠ 0#3 → (∀ j, j < vl.kl → (s.getK aaa).getLsbD j = false) → s.Ready vl →
    (∃ n : Nat, exec (.memForm c vl pfx m aaa src) s = .next { s with pc := s.nextPc (memLength pfx m), draws := n }) ∧
    (∃ t, exec (.regForm c vl pfx d aaa true src) s = .next t ∧ t.getZmm d = 0) ∧
    (∃ t, exec (.regForm c vl pfx d aaa false src) s = .next t ∧
      (∀ b, b < 16 * vl.kl → (t.getZmm d).getLsbD b = (s.getZmm d).getLsbD b) ∧
      ∀ b, 16 * vl.kl ≤ b → (t.getZmm d).getLsbD b = false)

/-- 40_down_convert_qword_to_word.md R108 (c): with bits KL-1:0 of the writemask all one, a form does what it does with no
writemask. -/
def Obligations.AllOnesMaskIsNoMask : Prop :=
  ∀ (c : Conversion) (vl : VL) (pfx : Prefixes) (d : BitVec 5) (m : MemOperand) (aaa : BitVec 3) (z : Bool) (src : BitVec 5)
    (s : State), (∀ j, j < vl.kl → (s.getK aaa).getLsbD j = true) →
    exec (.regForm c vl pfx d aaa z src) s = exec (.regForm c vl pfx d 0#3 false src) s ∧
    exec (.memForm c vl pfx m aaa src) s = exec (.memForm c vl pfx m 0#3 src) s

/-- 10_state.md R19: bits MAXVL-1:VL of the source register are not read. -/
def Obligations.HighSourceBitsHaveNoEffect : Prop :=
  ∀ (c : Conversion) (vl : VL) (pfx : Prefixes) (d : BitVec 5) (m : MemOperand) (aaa : BitVec 3) (z : Bool) (src : BitVec 5)
    (s : State) (v : Zmm), (∀ b, b < 64 * vl.kl → v.getLsbD b = (s.getZmm src).getLsbD b) →
    (∀ t, exec (.regForm c vl pfx d aaa z src) s = .next t →
      ∃ t', exec (.regForm c vl pfx d aaa z src) (s.setZmm src v) = .next t' ∧ t'.getZmm d = t.getZmm d) ∧
    (∀ t, exec (.memForm c vl pfx m aaa src) s = .next t →
      exec (.memForm c vl pfx m aaa src) (s.setZmm src v) = .next (t.setZmm src v))

/-! ## Memory -/

/-- 20_memory.md R40; that the addresses `a + i` are taken modulo 2^32 for `is64 = false` is the model's reading (log 30). -/
def Obligations.MemWriteSetsExactlyItsBytes : Prop :=
  ∀ (is64 : Bool) (m : Memory) (a : QWord) (n : Nat) (v : BitVec (8 * n)), n ≤ 2 ^ 32 →
    (∀ i, i < n → (m.writeLE is64 a n v).read (byteAddr is64 a i).toNat = some (v.extractLsb' (8 * i) 8)) ∧
    (∀ x : Nat, (∀ i, i < n → x ≠ (byteAddr is64 a i).toNat) → (m.writeLE is64 a n v).read x = m.read x)

/-- 20_memory.md R39, R40: MemRead after MemWrite gives the value written. -/
def Obligations.MemReadAfterMemWrite : Prop :=
  ∀ (is64 : Bool) (m : Memory) (a : QWord) (n : Nat) (v : BitVec (8 * n)), n ≤ 2 ^ 32 →
    (m.writeLE is64 a n v).readLE is64 a n = some v

/-- 30_encoding.md R61 to R64: the effective address in 64-bit mode with 64-bit address size, in every operand shape. -/
def Obligations.EffectiveAddress64 : Prop :=
  ∀ (s : State) (vl : VL) (pfx : Prefixes), s.mode = .mode64 → pfx.addrSize = false →
    s.EffectiveAddressRule vl pfx 64 (s.pc.toNat + (pfx.length + 10))

/-- 30_encoding.md R64, R66: the effective address with 32-bit address size, in every operand shape: with prefix 67h in 64-bit mode,
where the shape without base and SIB byte is RIP-relative, and outside 64-bit mode, where it is absolute. -/
def Obligations.EffectiveAddress32 : Prop :=
  ∀ (s : State) (vl : VL) (pfx : Prefixes),
    (s.mode = .mode64 → pfx.addrSize = true → s.EffectiveAddressRule vl pfx 32 (s.pc.toNat + (pfx.length + 10))) ∧
    (s.mode ≠ .mode64 → s.EffectiveAddressRule vl pfx 32 0)

/-- 20_memory.md R36: the segment of an access. Without an override it is SS when the base register is RSP or RBP, else DS; an
override for FS or GS names it in every mode, the others outside 64-bit mode only. -/
def Obligations.SegmentOfAnAccess : Prop :=
  ∀ (s : State) (a : Bool) (b : BitVec 4) (index : Option ScaledIndex) (disp : Disp) (d : BitVec 32),
    s.accessSegment ⟨none, a⟩ (.base b disp) = (if b = 4#4 ∨ b = 5#4 then .ss else .ds) ∧
    s.accessSegment ⟨none, a⟩ (.sib b index disp) = (if b = 4#4 ∨ b = 5#4 then .ss else .ds) ∧
    s.accessSegment ⟨none, a⟩ (.dispOnly d) = .ds ∧
    s.accessSegment ⟨none, a⟩ (.sibNoBase index d) = .ds ∧
    ∀ (seg : SegReg) (m : MemOperand),
      (seg = .fs ∨ seg = .gs ∨ s.mode ≠ .mode64 → s.accessSegment ⟨some seg, a⟩ m = seg) ∧
      (seg ≠ .fs → seg ≠ .gs → s.mode = .mode64 → s.accessSegment ⟨some seg, a⟩ m = s.accessSegment ⟨none, a⟩ m)

/-- 20_memory.md R36 in 64-bit mode: only FS and GS have a base, and the other overrides are ignored. -/
def Obligations.LinearAddress64 : Prop :=
  ∀ (s : State) (vl : VL) (a : Bool) (m : MemOperand) (seg : SegReg), s.mode = .mode64 →
    s.linearAddress vl ⟨some .fs, a⟩ m = s.fs.base + s.effectiveAddress vl ⟨some .fs, a⟩ m ∧
    s.linearAddress vl ⟨some .gs, a⟩ m = s.gs.base + s.effectiveAddress vl ⟨some .gs, a⟩ m ∧
    s.linearAddress vl ⟨none, a⟩ m = s.effectiveAddress vl ⟨none, a⟩ m ∧
    (seg ≠ .fs → seg ≠ .gs →
      s.linearAddress vl ⟨some seg, a⟩ m = s.effectiveAddress vl ⟨some seg, a⟩ m ∧
      s.accessSegment ⟨some seg, a⟩ m = s.accessSegment ⟨none, a⟩ m)

/-- 20_memory.md R36 outside 64-bit mode: the base of the segment of the access and the effective address, modulo 2^32, with the
segment an override names; and the bytes of the operand, which also wrap modulo 2^32 (log 30). -/
def Obligations.LinearAddress32 : Prop :=
  ∀ (s : State) (vl : VL) (pfx : Prefixes) (m : MemOperand), s.mode ≠ .mode64 →
    (s.linearAddress vl pfx m).toNat =
      ((s.segment (s.accessSegment pfx m)).base.toNat + (s.effectiveAddress vl pfx m).toNat) % 2 ^ 32 ∧
    (∀ seg : SegReg, pfx.seg = some seg → (s.linearAddress vl pfx m).toNat =
      ((s.segment seg).base.toNat + (s.effectiveAddress vl pfx m).toNat) % 2 ^ 32) ∧
    ∀ i : Nat, (s.operandByte vl pfx m i).toNat = ((s.linearAddress vl pfx m).toNat + i) % 2 ^ 32

/-! ## Memory faults and refused stores -/

/-- 60_exceptions.md R117, R118, R122 in 64-bit mode: a non-canonical byte of an enabled element raises #SS(0) through SS and
#GP(0) otherwise, whatever the other bytes do. -/
def Obligations.NonCanonicalStoreFaults : Prop :=
  ∀ (c : Conversion) (vl : VL) (pfx : Prefixes) (m : MemOperand) (aaa : BitVec 3) (src : BitVec 5) (s : State) (j b : Nat),
    s.mode = .mode64 → s.Ready vl → j < vl.kl → s.ElementEnabled aaa j → b < 2 →
    s.canonical (s.operandByte vl pfx m (2 * j + b)) = false →
    (s.accessSegment pfx m = .ss → exec (.memForm c vl pfx m aaa src) s = .fault (.exception .ss0)) ∧
    (s.accessSegment pfx m ≠ .ss → exec (.memForm c vl pfx m aaa src) s = .fault (.exception .gp0))

/-- The model's SegCheck32 (log 9): in 32-bit mode an enabled byte outside the segment's limit, or a segment that is null or
not writable, raises #SS(0) through SS and #GP(0) otherwise (60_exceptions.md R117, R118). -/
def Obligations.SegmentCheck32 : Prop :=
  ∀ (c : Conversion) (vl : VL) (pfx : Prefixes) (m : MemOperand) (aaa : BitVec 3) (src : BitVec 5) (s : State) (j b : Nat),
    s.mode = .mode32 → s.Ready vl → j < vl.kl → s.ElementEnabled aaa j → b < 2 →
    ((s.segment (s.accessSegment pfx m)).limit.toNat < ((s.effectiveAddress vl pfx m).toNat + (2 * j + b)) % 2 ^ 32 ∨
      (s.segment (s.accessSegment pfx m)).writable = false ∨
      (s.segment (s.accessSegment pfx m)).selector.toNat < 4) →
    (s.accessSegment pfx m = .ss → exec (.memForm c vl pfx m aaa src) s = .fault (.exception .ss0)) ∧
    (s.accessSegment pfx m ≠ .ss → exec (.memForm c vl pfx m aaa src) s = .fault (.exception .gp0))

/-- 60_exceptions.md R119: where no segment or canonical check fails and an enabled byte is not writable, #PF with the address
of such a byte and an error code whose bits 0, 1, 2 and 4 are as the rule says. -/
def Obligations.PageFaultOfAStore : Prop :=
  ∀ (c : Conversion) (vl : VL) (pfx : Prefixes) (m : MemOperand) (aaa : BitVec 3) (src : BitVec 5) (s : State) (j b : Nat),
    s.Ready vl → (∀ i, i < vl.kl → s.ElementEnabled aaa i →
      s.segmentViolation vl pfx m (2 * i) = false ∧ s.segmentViolation vl pfx m (2 * i + 1) = false) →
    j < vl.kl → s.ElementEnabled aaa j → b < 2 → s.writable (s.operandByte vl pfx m (2 * j + b)) = false →
    ∃ (code : BitVec 32) (a : QWord), exec (.memForm c vl pfx m aaa src) s = .fault (.exception (.pf code a)) ∧
      s.IsStoredByte vl pfx m aaa a.toNat ∧ s.writable a = false ∧
      code.getLsbD 0 = s.mapped a ∧ code.getLsbD 1 = true ∧ code.getLsbD 2 = (s.cpl == 3#2) ∧ code.getLsbD 4 = false ∧
      Exception.vector (.pf code a) = 14 ∧ Exception.cr2 (.pf code a) = some a

/-- The model's alignment check (60_exceptions.md R120; log 12): a 4- or 8-byte operand with every element enabled, unaligned
while AC_ENABLED holds, raises #AC(0). -/
def Obligations.AlignmentCheckOfAStore : Prop :=
  ∀ (c : Conversion) (vl : VL) (pfx : Prefixes) (m : MemOperand) (aaa : BitVec 3) (src : BitVec 5) (s : State),
    vl ≠ .v512 → s.Ready vl → s.alignmentChecking = true → (s.linearAddress vl pfx m).toNat % vl.operandBytes ≠ 0 →
    (∀ j, j < vl.kl → s.ElementEnabled aaa j) → s.StoreAdmitted vl pfx m aaa →
    exec (.memForm c vl pfx m aaa src) s = .fault (.exception .ac0)

/-- 20_memory.md R51, R47: a store that no fault stops and that overlaps the program text, or lies in a device, is refused. -/
def Obligations.ProgramAndDeviceStoresAreRefused : Prop :=
  ∀ (c : Conversion) (vl : VL) (pfx : Prefixes) (m : MemOperand) (aaa : BitVec 3) (src : BitVec 5) (s : State) (j b : Nat),
    s.Ready vl → s.AlignmentAccepted vl pfx m → (∀ i, i < vl.kl → s.ElementEnabled aaa i → ∀ k, k < 2 →
      s.segmentViolation vl pfx m (2 * i + k) = false ∧ s.writable (s.operandByte vl pfx m (2 * i + k)) = true) →
    j < vl.kl → s.ElementEnabled aaa j → b < 2 →
    (s.inProgram (s.operandByte vl pfx m (2 * j + b)) = true →
      exec (.memForm c vl pfx m aaa src) s = .refused .storeIntoProgram) ∧
    (s.isDevice (s.operandByte vl pfx m (2 * j + b)) = true → ∃ r, exec (.memForm c vl pfx m aaa src) s = .refused r)
end

