-- ==== Sys2Proof/Laws/Convert.lean ====
section
/-! SUPPORT. What the packing of words does, bit by bit and element by element. -/

namespace Sys2Proof.Machine

/-- No bit of a packed value stands at or above `16 * n`. -/
theorem packWords_high (f : Nat → Word) (n i : Nat) (h : 16 * n ≤ i) : (packWords f n).getLsbD i = false := by
  induction n with
  | zero => simp [packWords]
  | succ n ih =>
    simp only [packWords, BitVec.getLsbD_or, BitVec.getLsbD_shiftLeft, BitVec.getLsbD_setWidth, ih (by omega)]
    rw [BitVec.getLsbD_of_ge (f n) _ (by omega)]
    simp

/-- Bit `16 * j + b` of a packed value is bit `b` of word `j`. -/
theorem packWords_getLsbD (f : Nat → Word) (n j b : Nat) (hn : n ≤ 32) (hj : j < n) (hb : b < 16) :
    (packWords f n).getLsbD (16 * j + b) = (f j).getLsbD b := by
  induction n with
  | zero => omega
  | succ n ih =>
    simp only [packWords, BitVec.getLsbD_or, BitVec.getLsbD_shiftLeft, BitVec.getLsbD_setWidth]
    by_cases h : j = n
    · subst h
      rw [packWords_high f j _ (by omega)]
      have h1 : 16 * j + b < 512 := by omega
      have h2 : 16 * j + b - 16 * j = b := by omega
      have h3 : ¬ 16 * j + b < 16 * j := by omega
      have h4 : b < 512 := by omega
      simp [h2, h4, Config.MAXVL]
      omega
    · have h1 : 16 * j + b < 16 * n := by omega
      rw [ih (by omega) (by omega)]
      simp [h1]

/-- Element `j` of a packed value is word `j`. -/
theorem wordElement_packWords (f : Nat → Word) (n j : Nat) (hn : n ≤ 32) (hj : j < n) :
    wordElement (packWords f n) j = f j := by
  apply BitVec.eq_of_getLsbD_eq
  intro b hb
  rw [wordElement, BitVec.getLsbD_extractLsb', packWords_getLsbD f n j b hn hj hb]
  simp [hb]

theorem VL.kl_le (vl : VL) : vl.kl ≤ 8 := by cases vl <;> decide

end Sys2Proof.Machine
end

