-- ==== Sys2Proof/Laws/Decode.lean ====
section
/-! SUPPORT. The fields of the encoded bytes are the fields that were put in, and the length of an encoding. -/

namespace Sys2Proof

/-! ## P0 -/

theorem encodeP0_mm (r x b r' : Bool) : mmField (encodeP0 r x b r') = 0b10#2 := by revert r x b r'; decide

theorem encodeP0_reserved (r x b r' : Bool) : (encodeP0 r x b r').extractLsb' 2 2 = 0b00#2 := by
  revert r x b r'; decide

theorem encodeP0_top (r x b r' : Bool) :
    (encodeP0 r x b r').extractLsb' 6 2 = BitVec.ofBool (!r) ++ BitVec.ofBool (!x) := by revert r x b r'; decide

theorem encodeP0_R (r x b r' : Bool) : invertedBit (encodeP0 r x b r') 7 = BitVec.ofBool r := by
  revert r x b r'; decide

theorem encodeP0_X (r x b r' : Bool) : invertedBit (encodeP0 r x b r') 6 = BitVec.ofBool x := by
  revert r x b r'; decide

theorem encodeP0_B (r x b r' : Bool) : invertedBit (encodeP0 r x b r') 5 = BitVec.ofBool b := by
  revert r x b r'; decide

theorem encodeP0_R' (r x b r' : Bool) : invertedBit (encodeP0 r x b r') 4 = BitVec.ofBool r' := by
  revert r x b r'; decide

theorem encodeP0_bit5 (r x b r' : Bool) : (encodeP0 r x b r').getLsbD 5 = !b := by revert r x b r'; decide

theorem encodeP0_bit4 (r x b r' : Bool) : (encodeP0 r x b r').getLsbD 4 = !r' := by revert r x b r'; decide

/-! ## P2 -/

theorem encodeP2_aaa (z : Bool) (vl : VL) (aaa : BitVec 3) : aaaField (encodeP2 z vl aaa) = aaa := by
  cases vl <;> revert z aaa <;> decide

theorem encodeP2_z (z : Bool) (vl : VL) (aaa : BitVec 3) : zField (encodeP2 z vl aaa) = z := by
  cases vl <;> revert z aaa <;> decide

theorem encodeP2_vl (z : Bool) (vl : VL) (aaa : BitVec 3) : vlField (encodeP2 z vl aaa) = some vl := by
  cases vl <;> revert z aaa <;> decide

theorem encodeP2_bit3 (z : Bool) (vl : VL) (aaa : BitVec 3) : (encodeP2 z vl aaa).getLsbD 3 = true := by
  cases vl <;> revert z aaa <;> decide

theorem encodeP2_bit4 (z : Bool) (vl : VL) (aaa : BitVec 3) : (encodeP2 z vl aaa).getLsbD 4 = false := by
  cases vl <;> revert z aaa <;> decide

/-! ## ModRM, SIB, displacements -/

theorem packByte_mod (a : BitVec 2) (b c : BitVec 3) : modField (packByte a b c) = a := by revert a b c; decide

theorem packByte_scale (a : BitVec 2) (b c : BitVec 3) : scaleField (packByte a b c) = a := by revert a b c; decide

theorem packByte_reg (a : BitVec 2) (b c : BitVec 3) : regField (packByte a b c) = b := by revert a b c; decide

theorem packByte_rm (a : BitVec 2) (b c : BitVec 3) : rmField (packByte a b c) = c := by revert a b c; decide

theorem le32_bytes (d : BitVec 32) :
    le32 (d.extractLsb' 0 8) (d.extractLsb' 8 8) (d.extractLsb' 16 8) (d.extractLsb' 24 8) = d := by
  apply BitVec.eq_of_getLsbD_eq
  intro i hi
  simp only [le32, BitVec.getLsbD_append, BitVec.getLsbD_extractLsb']
  split
  · simp [*]
  · split
    · rename_i h1 h2
      rw [show 8 + (i - 8) = i by omega]
      simp [h2]
    · split
      · rename_i h1 h2 h3
        rw [show 16 + (i - 8 - 8) = i by omega]
        simp [h3]
      · rw [show 24 + (i - 8 - 8 - 8) = i by omega]
        simp
        omega

theorem takeDisp32_bytes32 (d : BitVec 32) (rest : List Byte) : takeDisp32 (bytes32 d ++ rest) = some (d, rest) := by
  simp [bytes32, takeDisp32, le32_bytes]

theorem takeDisp_bytes (d : Disp) (rest : List Byte) : takeDisp d.mod (d.bytes ++ rest) = some (d, rest) := by
  cases d with
  | none => rfl
  | disp8 d => rfl
  | disp32 d => simp [Disp.mod, Disp.bytes, takeDisp, takeDisp32_bytes32]

theorem conversionOf_opcode (c : Conversion) : conversionOf c.opcode = some c := by cases c <;> decide

/-! ## Register numbers -/

theorem vectorNumber_join (s : BitVec 5) :
    BitVec.ofBool (s.getLsbD 4) ++ BitVec.ofBool (s.getLsbD 3) ++ s.extractLsb' 0 3 = s := by revert s; decide

theorem generalNumber_join (b : BitVec 4) : BitVec.ofBool (b.getLsbD 3) ++ b.extractLsb' 0 3 = b := by
  revert b; decide

/-! ## Prefixes -/

theorem classifyByte_segment (mode : DecodeMode) (s : SegReg) : classifyByte mode s.byte = .segOverride s := by
  cases mode <;> cases s <;> decide

/-- Reading the encoded prefixes before a byte that is no prefix. -/
theorem readPrefixes_encode (mode : DecodeMode) (pfx : Prefixes) (b : Byte) (bs : List Byte)
    (hb : classifyByte mode b = .notAPrefix) :
    readPrefixes mode ⟨none, false⟩ false (encodePrefixes pfx ++ b :: bs) = .done pfx false (b :: bs) := by
  have h67 : classifyByte mode 0x67#8 = .addressSize := by cases mode <;> decide
  obtain ⟨seg, addr⟩ := pfx
  cases seg <;> cases addr <;> simp [encodePrefixes, readPrefixes, classifyByte_segment, h67, hb]

theorem classifyByte_evex (mode : DecodeMode) : classifyByte mode 0x62#8 = .notAPrefix := by cases mode <;> decide

/-! ## Lengths -/

theorem encodePrefixes_length (pfx : Prefixes) : (encodePrefixes pfx).length = pfx.length := by
  obtain ⟨seg, addr⟩ := pfx
  cases seg <;> cases addr <;> rfl

theorem tail_length (m : MemOperand) : m.tail.length = m.length := by
  cases m with
  | dispOnly d => rfl
  | base b d => cases d <;> rfl
  | sib b i d => cases d <;> rfl
  | sibNoBase i d => rfl

/-- An encoding has the instruction's length (30_encoding.md R65). -/
theorem encode_length (i : Instr) : (encode i).length = i.length := by
  unfold encode Instr.length
  cases i.form <;>
    simp only [encodeReg, encodeMem, regLength, memLength, List.length_append, encodePrefixes_length, tail_length,
      List.length_cons, List.length_nil]

theorem Prefixes.length_le (pfx : Prefixes) : pfx.length ≤ 2 := by
  unfold Prefixes.length
  split <;> split <;> omega

theorem Disp.length_le (d : Disp) : d.length ≤ 4 := by cases d <;> simp [Disp.length]

theorem MemOperand.length_le (m : MemOperand) : m.length ≤ 5 := by
  cases m with
  | dispOnly d => simp [MemOperand.length]
  | base b d => exact Nat.le_succ_of_le d.length_le
  | sib b i d => have := d.length_le; simp only [MemOperand.length]; omega
  | sibNoBase i d => simp [MemOperand.length]

theorem regLength_bounds (pfx : Prefixes) : 6 ≤ regLength pfx ∧ regLength pfx ≤ 13 := by
  have := pfx.length_le
  unfold regLength
  omega

theorem memLength_bounds (pfx : Prefixes) (m : MemOperand) : 6 ≤ memLength pfx m ∧ memLength pfx m ≤ 13 := by
  have := pfx.length_le
  have := m.length_le
  unfold memLength
  omega

/-! ## The decoder reads an instruction's own bytes only -/

theorem readPrefixes_local (mode : DecodeMode) (bs : List Byte) (p q : Prefixes) (f g : Bool) (rest : List Byte)
    (h : readPrefixes mode p f bs = .done q g rest) :
    ∃ (pre : List Byte) (b : Byte) (tail : List Byte), bs = pre ++ b :: tail ∧ rest = b :: tail ∧
      ∀ r, readPrefixes mode p f (pre ++ b :: r) = .done q g (b :: r) := by
  induction bs generalizing p f with
  | nil => cases h
  | cons b bs ih =>
    unfold readPrefixes at h
    split at h
    · rename_i hb
      split at h
      · cases h
      · rename_i hs
        obtain ⟨pre, e, tail, rfl, rfl, hl⟩ := ih _ _ h
        exact ⟨b :: pre, e, tail, rfl, rfl, fun r => by simp [readPrefixes, hb, hs, hl]⟩
    · rename_i hb
      split at h
      · cases h
      · rename_i hs
        obtain ⟨pre, e, tail, rfl, rfl, hl⟩ := ih _ _ h
        exact ⟨b :: pre, e, tail, rfl, rfl, fun r => by simp [readPrefixes, hb, hs, hl]⟩
    · rename_i hb
      obtain ⟨pre, e, tail, rfl, rfl, hl⟩ := ih _ _ h
      exact ⟨b :: pre, e, tail, rfl, rfl, fun r => by simp [readPrefixes, hb, hl]⟩
    · rename_i hb
      cases h
      exact ⟨[], b, bs, rfl, rfl, fun r => by simp [readPrefixes, hb]⟩

theorem readHeader_local (mode : DecodeMode) (bs : List Byte) (hd : Header) (h : readHeader mode bs = .header hd) :
    ∃ pre : List Byte, bs = pre ++ hd.rest ∧ ∀ r, readHeader mode (pre ++ r) = .header { hd with rest := r } := by
  unfold readHeader at h
  split at h
  · rename_i pfx f rest hp
    obtain ⟨pre, b, tail, rfl, rfl, hl⟩ := readPrefixes_local mode bs _ _ _ _ _ hp
    simp only [readEvex] at h
    split at h
    · rename_i hb
      subst hb
      split at h
      · rename_i p0 rest
        split at h
        · cases h
        · rename_i hbound
          unfold readOpcode at h
          split at h
          · rename_i p1 p2 op rest
            split at h
            · rename_i hm
              split at h
              · rename_i c hc
                cases h
                refine ⟨pre ++ [0x62#8, p0, p1, p2, op], by simp, fun r => ?_⟩
                simp [readHeader, hl, readEvex, hbound, readOpcode, hm, hc]
              · cases h
            · cases h
          · cases h
      · cases h
    · cases h
  · cases h
  · cases h

theorem takeDisp32_local (bs : List Byte) (d : BitVec 32) (rest : List Byte) (h : takeDisp32 bs = some (d, rest)) :
    ∃ pre : List Byte, bs = pre ++ rest ∧ ∀ r, takeDisp32 (pre ++ r) = some (d, r) := by
  unfold takeDisp32 at h
  split at h
  · cases h
    exact ⟨[_, _, _, _], rfl, fun r => rfl⟩
  · cases h

theorem takeDisp_local (mod : BitVec 2) (bs : List Byte) (d : Disp) (rest : List Byte) (h : takeDisp mod bs = some (d, rest)) :
    ∃ pre : List Byte, bs = pre ++ rest ∧ ∀ r, takeDisp mod (pre ++ r) = some (d, r) := by
  unfold takeDisp at h
  split at h
  · rename_i hm
    cases h
    exact ⟨[], rfl, fun r => by simp [takeDisp, hm]⟩
  · rename_i hm
    split at h
    · rename_i hm'
      split at h
      · cases h
        exact ⟨[_], rfl, fun r => by simp [takeDisp, hm']⟩
      · cases h
    · rename_i hm'
      obtain ⟨⟨d', r'⟩, hd, he⟩ := Option.map_eq_some_iff.1 h
      cases he
      obtain ⟨pre, rfl, hl⟩ := takeDisp32_local bs d' r' hd
      exact ⟨pre, rfl, fun r => by simp [takeDisp, hm, hm', hl]⟩

theorem readSib_local (p0 : Byte) (mod : BitVec 2) (bs : List Byte) (m : MemOperand) (rest : List Byte)
    (h : readSib p0 mod bs = some (m, rest)) :
    ∃ pre : List Byte, bs = pre ++ rest ∧ ∀ r, readSib p0 mod (pre ++ r) = some (m, r) := by
  unfold readSib at h
  split at h
  · rename_i sib tail
    split at h
    · rename_i hs
      obtain ⟨⟨d', r'⟩, hd, he⟩ := Option.map_eq_some_iff.1 h
      cases he
      obtain ⟨pre, rfl, hl⟩ := takeDisp32_local tail d' r' hd
      exact ⟨sib :: pre, rfl, fun r => by simp [readSib, hs, hl]⟩
    · rename_i hs
      obtain ⟨⟨d', r'⟩, hd, he⟩ := Option.map_eq_some_iff.1 h
      cases he
      obtain ⟨pre, rfl, hl⟩ := takeDisp_local mod tail d' r' hd
      exact ⟨sib :: pre, rfl, fun r => by simp only [readSib, List.cons_append, hs, if_false, hl, Option.map_some]⟩
  · cases h

theorem readMem_local (p0 modrm : Byte) (bs : List Byte) (m : MemOperand) (rest : List Byte)
    (h : readMem p0 modrm bs = some (m, rest)) :
    ∃ pre : List Byte, bs = pre ++ rest ∧ ∀ r, readMem p0 modrm (pre ++ r) = some (m, r) := by
  unfold readMem at h
  split at h
  · rename_i hr
    obtain ⟨pre, rfl, hl⟩ := readSib_local p0 _ bs m rest h
    exact ⟨pre, rfl, fun r => by simp [readMem, hr, hl]⟩
  · rename_i hr
    split at h
    · rename_i hm
      obtain ⟨⟨d', r'⟩, hd, he⟩ := Option.map_eq_some_iff.1 h
      cases he
      obtain ⟨pre, rfl, hl⟩ := takeDisp32_local bs d' r' hd
      exact ⟨pre, rfl, fun r => by simp [readMem, hm, hl]⟩
    · rename_i hm
      obtain ⟨⟨d', r'⟩, hd, he⟩ := Option.map_eq_some_iff.1 h
      cases he
      obtain ⟨pre, rfl, hl⟩ := takeDisp_local _ bs d' r' hd
      exact ⟨pre, rfl, fun r => by simp only [readMem, hr, hm, if_false, hl, Option.map_some]⟩

theorem readOperands_local (mode : DecodeMode) (hd : Header) (vl : VL) (bs : List Byte) (i : Instr) (rest : List Byte)
    (h : readOperands mode hd vl bs = .instr i rest) :
    ∃ pre : List Byte, bs = pre ++ rest ∧
      ∀ r tail, readOperands mode { hd with rest := tail } vl (pre ++ r) = .instr i r := by
  unfold readOperands at h
  split at h
  · rename_i modrm bs
    split at h
    · rename_i hm
      split at h
      · cases h
      · rename_i ho
        cases h
        exact ⟨[modrm], rfl, fun r tail => by simp [readOperands, hm, ho]⟩
    · rename_i hm
      split at h
      · cases h
      · rename_i hz
        split at h
        · cases h
        · rename_i m rest' hr
          obtain ⟨pre, rfl, hl⟩ := readMem_local _ _ _ _ _ hr
          split at h
          · cases h
          · rename_i ho
            split at h
            · cases h
            · rename_i ha
              cases h
              refine ⟨modrm :: pre, rfl, fun r tail => ?_⟩
              simp only [readOperands, List.cons_append, hm, hz, hl, ho, ha, if_false, Bool.false_eq_true]
  · cases h

/-- The bytes an instruction was read from are its own, and the bytes after them do not matter. -/
theorem decode_local (mode : DecodeMode) (bs : List Byte) (i : Instr) (rest : List Byte) (h : decode mode bs = .instr i rest) :
    ∃ pre : List Byte, bs = pre ++ rest ∧ ∀ r, decode mode (pre ++ r) = .instr i r := by
  unfold decode at h
  split at h
  · cases h
  · cases h
  · rename_i hd hh
    obtain ⟨pre, rfl, hl⟩ := readHeader_local mode bs hd hh
    split at h
    · cases h
    · rename_i hu
      cases hv : vlField hd.p2 with
      | none => simp [hv] at h
      | some vl =>
        simp only [hv] at h
        obtain ⟨pre', he, hl'⟩ := readOperands_local mode hd vl hd.rest i rest h
        refine ⟨pre ++ pre', by rw [he, List.append_assoc], fun r => ?_⟩
        have hu' : ¬ (mode = .realOrV86 ∨ headerUd { hd with rest := pre' ++ r } = true) := hu
        simp only [decode, List.append_assoc, hl, hu', if_false, hv, hl']

end Sys2Proof
end

