-- ==== Sys2Proof/Laws/Fetch.lean ====
section
/-! SUPPORT. What the fetch window holds, what fetching answers for it, and what loading a program leaves alone. -/

namespace Sys2Proof.Machine

/-! ## The window -/

/-- Bytes that can be fetched one after another begin the window; what follows is the rest of the fetch. -/
theorem fetchFrom_of_bytes (s : State) (bs : List Byte) (i n : Nat) (hn : bs.length ≤ n)
    (h : ∀ j, (hj : j < bs.length) → s.fetchByte (i + j) = .ok bs[j]) :
    s.fetchFrom i n =
      (bs ++ (s.fetchFrom (i + bs.length) (n - bs.length)).1, (s.fetchFrom (i + bs.length) (n - bs.length)).2) := by
  induction bs generalizing i n with
  | nil => rfl
  | cons b bs ih =>
    obtain ⟨n, rfl⟩ : ∃ m, n = m + 1 := ⟨n - 1, by simp only [List.length_cons] at hn; omega⟩
    have hb : s.fetchByte i = .ok b := h 0 (by simp)
    have hr := ih (i + 1) n (by simpa using hn) fun j hj => by
      have := h (j + 1) (by simpa using hj)
      rwa [show i + (j + 1) = i + 1 + j by omega] at this
    simp only [State.fetchFrom, hb, hr, List.length_cons, List.cons_append]
    rw [show i + 1 + bs.length = i + (bs.length + 1) by omega, show n + 1 - (bs.length + 1) = n - bs.length by omega]

/-- A byte that cannot be fetched ends the window. -/
theorem fetchFrom_of_error (s : State) (i n : Nat) (e : Stop) (hn : 0 < n) (h : s.fetchByte i = .error e) :
    s.fetchFrom i n = ([], e) := by
  obtain ⟨n, rfl⟩ : ∃ m, n = m + 1 := ⟨n - 1, by omega⟩
  simp [State.fetchFrom, h]

/-- The window is never longer than it may be. -/
theorem fetchFrom_length (s : State) (i n : Nat) : (s.fetchFrom i n).1.length ≤ n := by
  induction n generalizing i with
  | zero => exact Nat.le_refl _
  | succ n ih =>
    unfold State.fetchFrom
    split
    · exact Nat.succ_le_succ (ih _)
    · exact Nat.zero_le _

/-- The bytes of the window are the bytes at `pc`. -/
theorem fetchFrom_get (s : State) (i n j : Nat) (h : j < (s.fetchFrom i n).1.length) :
    s.fetchByte (i + j) = .ok (s.fetchFrom i n).1[j] := by
  induction n generalizing i j with
  | zero => exact absurd h (Nat.not_lt_zero _)
  | succ n ih =>
    cases hb : s.fetchByte i with
    | error e => simp [State.fetchFrom, hb] at h
    | ok b =>
      simp only [State.fetchFrom, hb, List.length_cons] at h ⊢
      cases j with
      | zero => exact hb
      | succ j =>
        have := ih (i + 1) j (by omega)
        rw [show i + (j + 1) = i + 1 + j by omega, this]
        rfl

/-! ## The answer -/

/-- A step that fetches answers what the window means. -/
theorem step_of_window (s : State) (mode : DecodeMode) (h1 : s.atEnd = false) (h2 : s.debugArmed = false)
    (h3 : s.alignmentChecking = false) (h4 : s.decodeMode = some mode) :
    s.fetch = fetchedOf mode s.fetchWindow := by
  simp [State.fetch, h1, h2, h3, h4]

/-- No instruction is longer than MAXLEN (30_encoding.md R65). -/
theorem length_le_MAXLEN (i : Instr) : ¬ Config.MAXLEN < i.length := by
  unfold Instr.length Config.MAXLEN
  cases i.form with
  | reg c vl pfx d aaa z src => have := (regLength_bounds pfx).2; simp only; omega
  | mem c vl pfx m aaa src => have := (memLength_bounds pfx m).2; simp only; omega

/-- The window of an instruction runs it. -/
theorem fetchedOf_instr (mode : DecodeMode) (window : List Byte × Stop) (i : Instr) (rest : List Byte)
    (h : decode mode window.1 = .instr i rest) : fetchedOf mode window = .run i := by
  simp [fetchedOf, h, length_le_MAXLEN]

/-- A window that ends before the instruction does stops as the byte after it does (60_exceptions.md R122 step 1). -/
theorem fetchedOf_incomplete (mode : DecodeMode) (window : List Byte × Stop)
    (h : decode mode window.1 = .truncated ∨ decode mode window.1 = .ud ∧ formComplete mode window.1 = false) :
    fetchedOf mode window = .stop window.2 := by
  rcases h with h | ⟨h, hf⟩
  · simp [fetchedOf, h]
  · simp [fetchedOf, h, hf]

/-! ## Loading a program -/

@[simp] theorem State.declareText_pc (s : State) (n : Nat) : (s.declareText n).pc = s.pc := rfl
@[simp] theorem State.declareText_mem (s : State) (n : Nat) : (s.declareText n).mem = s.mem := rfl
@[simp] theorem State.declareText_program (s : State) (n : Nat) :
    (s.declareText n).program = some { first := s.pc, endAddr := s.nextPc n } := rfl
@[simp] theorem State.declareText_mode (s : State) (n : Nat) : (s.declareText n).mode = s.mode := rfl
@[simp] theorem State.declareText_is64 (s : State) (n : Nat) : (s.declareText n).is64 = s.is64 := rfl
@[simp] theorem State.declareText_fetchByte (s : State) (n i : Nat) : (s.declareText n).fetchByte i = s.fetchByte i := rfl
@[simp] theorem State.placeCode_pc (s : State) (bs : List Byte) : (s.placeCode bs).pc = s.pc := rfl
@[simp] theorem State.placeCode_program (s : State) (bs : List Byte) : (s.placeCode bs).program = s.program := rfl
@[simp] theorem State.placeCode_mode (s : State) (bs : List Byte) : (s.placeCode bs).mode = s.mode := rfl
@[simp] theorem State.placeCode_is64 (s : State) (bs : List Byte) : (s.placeCode bs).is64 = s.is64 := rfl
@[simp] theorem State.placeCode_codeAddress (s : State) (bs : List Byte) (i : Nat) :
    (s.placeCode bs).codeAddress i = s.codeAddress i := rfl

/-! ## The program text -/

/-- Adding less than the distance to the end stays before the end. -/
theorem add_lt_of_lt_sub {w : Nat} (a l : BitVec w) (k : Nat) (hk : k < (l - a).toNat) (h : a < l) :
    a + BitVec.ofNat w k < l := by
  rw [BitVec.toNat_sub_of_le (BitVec.le_of_lt h)] at hk
  rw [BitVec.lt_def] at h ⊢
  have hl := l.isLt
  rw [BitVec.toNat_add, BitVec.toNat_ofNat, Nat.add_mod_mod, Nat.mod_eq_of_lt] <;> omega

theorem setWidth32_sub (a b : QWord) : (a - b).setWidth 32 = a.setWidth 32 - b.setWidth 32 := by
  rw [BitVec.sub_eq_add_neg, BitVec.setWidth_add _ _ (by decide), BitVec.setWidth_neg_of_le (by decide),
    ← BitVec.sub_eq_add_neg]

theorem setWidth64_lt (a b : BitVec 32) : a.setWidth 64 < b.setWidth 64 ↔ a < b := by
  rw [BitVec.lt_def, BitVec.lt_def, BitVec.toNat_setWidth_of_le (by decide), BitVec.toNat_setWidth_of_le (by decide)]

theorem setWidth32_setWidth64 (a : BitVec 32) : (a.setWidth 64).setWidth 32 = a :=
  BitVec.setWidth_setWidth_of_le a (by decide) |>.trans (BitVec.setWidth_eq a)

/-- Adding `k` to an address that lies `e - p` before the end of a text stays in the text. -/
theorem text_distance (is64 : Bool) (c p f e : QWord) (k : Nat) (hk : k < (wrapAddr is64 (e - p)).toNat)
    (h0 : wrapAddr is64 (wrapAddr is64 (c + byteAddr is64 p 0) - c - f) < wrapAddr is64 (e - f)) :
    wrapAddr is64 (wrapAddr is64 (c + byteAddr is64 p k) - c - f) < wrapAddr is64 (e - f) := by
  cases is64
  · simp only [byteAddr, wrapAddr, Bool.false_eq_true, if_false, setWidth64_lt, setWidth32_sub, setWidth32_setWidth64,
      BitVec.setWidth_add _ _ (show 32 ≤ 64 by decide), BitVec.toNat_setWidth_of_le (show 32 ≤ 64 by decide)] at hk h0 ⊢
    generalize c.setWidth 32 = c at *
    generalize p.setWidth 32 = p at *
    generalize f.setWidth 32 = f at *
    generalize e.setWidth 32 = e at *
    rw [show c + (p + BitVec.setWidth 32 0#64) - c - f = p - f by simp] at h0
    rw [show c + (p + (BitVec.ofNat 64 k).setWidth 32) - c - f = p - f + BitVec.ofNat 32 k by simp; ring]
    exact add_lt_of_lt_sub _ _ _ (by rwa [show e - f - (p - f) = e - p by ring]) h0
  · simp only [byteAddr, wrapAddr, if_true] at hk h0 ⊢
    rw [show c + (p + BitVec.ofNat 64 0) - c - f = p - f by simp] at h0
    rw [show c + (p + BitVec.ofNat 64 k) - c - f = p - f + BitVec.ofNat 64 k by ring]
    exact add_lt_of_lt_sub _ _ _ (by rwa [show e - f - (p - f) = e - p by ring]) h0

/-- The bytes up to END are bytes of the program text. -/
theorem inProgram_of_lt_textLeft (s : State) (k : Nat) (h : k < s.textLeft) : s.inProgram (s.codeAddress k) = true := by
  unfold State.textLeft at h
  cases hp : s.program with
  | none => simp [hp] at h
  | some t =>
    simp only [hp] at h
    split at h
    · rename_i h0
      simp only [State.inProgram, hp] at h0 ⊢
      exact decide_eq_true (text_distance s.is64 s.codeBase s.pc t.first t.endAddr k h (of_decide_eq_true h0))
    · exact absurd h (Nat.not_lt_zero _)

end Sys2Proof.Machine
end

