-- ==== Sys2Proof/Laws/Memory.lean ====
section
/-! SUPPORT. The laws of memory: a read after a write, and the canonical form. -/

namespace Sys2Proof.Machine

@[simp] theorem Memory.read_write_self (m : Memory) (a : Nat) (b : Byte) : (m.write a b).read a = some b := by
  induction m with
  | nil => simp [Memory.write, Memory.read]
  | cons c cs ih =>
    by_cases h1 : a < c.1
    · simp [Memory.write, Memory.read, h1]
    · by_cases h2 : a = c.1
      · simp [Memory.write, Memory.read, h2]
      · simpa [Memory.write, Memory.read, h1, h2] using ih

theorem Memory.read_write_ne (m : Memory) (a x : Nat) (b : Byte) (h : x ≠ a) : (m.write a b).read x = m.read x := by
  induction m with
  | nil => simp [Memory.write, Memory.read, h]
  | cons c cs ih =>
    by_cases h1 : a < c.1
    · simp [Memory.write, Memory.read, h1, h]
    · by_cases h2 : a = c.1
      · subst h2
        simp [Memory.write, Memory.read, h]
      · simp [Memory.write, Memory.read, h1, h2, ih]

theorem Memory.mem_write (m : Memory) (a : Nat) (b : Byte) (c : Host.Cell) (h : c ∈ m.write a b) :
    c = (a, b) ∨ c ∈ m := by
  induction m with
  | nil => simpa [Memory.write] using h
  | cons d ds ih =>
    unfold Memory.write at h
    split at h
    · simpa using h
    · split at h
      · rcases List.mem_cons.1 h with rfl | h
        · exact .inl rfl
        · exact .inr (List.mem_cons_of_mem _ h)
      · rcases List.mem_cons.1 h with rfl | h
        · exact .inr List.mem_cons_self
        · exact (ih h).imp_right (List.mem_cons_of_mem _)

theorem Memory.write_wf (m : Memory) (a : Nat) (b : Byte) (ha : a < 2 ^ 64) (h : Memory.wf m) :
    Memory.wf (m.write a b) := by
  refine ⟨?_, fun c hc => ?_⟩
  · have hp := h.1
    clear h
    induction m with
    | nil => simp [Memory.write]
    | cons d ds ih =>
      have ⟨hd, hds⟩ := List.pairwise_cons.1 hp
      unfold Memory.write
      split
      · rename_i hlt
        refine List.pairwise_cons.2 ⟨fun c hc => ?_, hp⟩
        rcases List.mem_cons.1 hc with rfl | hc
        · exact hlt
        · exact Nat.lt_trans hlt (hd c hc)
      · split
        · rename_i heq
          exact List.pairwise_cons.2 ⟨fun c hc => heq ▸ hd c hc, hds⟩
        · refine List.pairwise_cons.2 ⟨fun c hc => ?_, ih hds⟩
          rcases Memory.mem_write ds a b c hc with rfl | hc
          · show d.1 < a
            omega
          · exact hd c hc
  · rcases Memory.mem_write m a b c hc with rfl | hc
    · exact ha
    · exact h.2 c hc

/-- Folding writes keeps the canonical form. -/
theorem Memory.foldl_write_wf {α : Type} (f : α → QWord) (g : α → Byte) (l : List α) (m : Memory)
    (h : Memory.wf m) : Memory.wf (l.foldl (fun m x => m.write (f x).toNat (g x)) m) := by
  induction l generalizing m with
  | nil => exact h
  | cons x xs ih => exact ih _ (Memory.write_wf m _ _ (f x).isLt h)

theorem Memory.writeLE_wf (is64 : Bool) (m : Memory) (a : QWord) (n : Nat) (v : BitVec (8 * n))
    (h : Memory.wf m) : Memory.wf (m.writeLE is64 a n v) :=
  Memory.foldl_write_wf (byteAddr is64 a) (fun i => v.extractLsb' (8 * i) 8) _ m h

/-- A two-byte store is two byte writes. -/
theorem Memory.writeLE_two (is64 : Bool) (m : Memory) (a : QWord) (v : BitVec (8 * 2)) :
    m.writeLE is64 a 2 v = (m.write (byteAddr is64 a 0).toNat (v.extractLsb' 0 8)).write (byteAddr is64 a 1).toNat
      (v.extractLsb' 8 8) := rfl

/-- A store leaves every byte outside it alone. -/
theorem Memory.writeLE_read_ne (is64 : Bool) (m : Memory) (a : QWord) (n : Nat) (v : BitVec (8 * n)) (x : Nat)
    (h : ∀ i, i < n → x ≠ (byteAddr is64 a i).toNat) : (m.writeLE is64 a n v).read x = m.read x := by
  have key : ∀ (l : List Nat) (m : Memory), (∀ i ∈ l, x ≠ (byteAddr is64 a i).toNat) →
      (l.foldl (fun m i => m.write (byteAddr is64 a i).toNat (v.extractLsb' (8 * i) 8)) m).read x = m.read x := by
    intro l
    induction l with
    | nil => intros; rfl
    | cons i is ih =>
      intro m hl
      rw [List.foldl_cons, ih _ fun k hk => hl k (List.mem_cons_of_mem _ hk),
        Memory.read_write_ne _ _ _ _ (hl i List.mem_cons_self)]
  exact key _ m fun i hi => h i (List.mem_range.1 hi)

/-! ## Address arithmetic -/

/-- Bytes of one access at different offsets below 2^32 have different addresses. -/
theorem byteAddr_injective (is64 : Bool) (a : QWord) (i j : Nat) (hi : i < 2 ^ 32) (hj : j < 2 ^ 32)
    (h : (byteAddr is64 a i).toNat = (byteAddr is64 a j).toNat) : i = j := by
  unfold byteAddr wrapAddr at h
  cases is64 <;> simp at h <;> omega

/-- The wrap of a wrapped address. -/
theorem byteAddr_byteAddr (is64 : Bool) (a : QWord) (i j : Nat) :
    byteAddr is64 (byteAddr is64 a i) j = byteAddr is64 a (i + j) := by
  unfold byteAddr wrapAddr
  cases is64 <;> apply BitVec.eq_of_toNat_eq <;> simp <;> omega

theorem wrapAddr_false_lt (a : QWord) : (wrapAddr false a).toNat < 2 ^ 32 := by
  simp [wrapAddr]
  omega

end Sys2Proof.Machine
end

