-- ==== Sys2Proof/Laws/State.lean ====
section
/-! SUPPORT. One lemma per field per update of State, and what the views of the state see of an update. -/

namespace Sys2Proof.Machine

/-! ## setZmm -/

@[simp] theorem State.setZmm_zmm (s : State) (i : BitVec 5) (v : Zmm) : (s.setZmm i v).zmm = s.zmm.set i.toNat v i.isLt := rfl
@[simp] theorem State.setZmm_k (s : State) (i : BitVec 5) (v : Zmm) : (s.setZmm i v).k = s.k := rfl
@[simp] theorem State.setZmm_mxcsr (s : State) (i : BitVec 5) (v : Zmm) : (s.setZmm i v).mxcsr = s.mxcsr := rfl
@[simp] theorem State.setZmm_gpr (s : State) (i : BitVec 5) (v : Zmm) : (s.setZmm i v).gpr = s.gpr := rfl
@[simp] theorem State.setZmm_pc (s : State) (i : BitVec 5) (v : Zmm) : (s.setZmm i v).pc = s.pc := rfl
@[simp] theorem State.setZmm_rflags (s : State) (i : BitVec 5) (v : Zmm) : (s.setZmm i v).rflags = s.rflags := rfl
@[simp] theorem State.setZmm_cr0 (s : State) (i : BitVec 5) (v : Zmm) : (s.setZmm i v).cr0 = s.cr0 := rfl
@[simp] theorem State.setZmm_cr2 (s : State) (i : BitVec 5) (v : Zmm) : (s.setZmm i v).cr2 = s.cr2 := rfl
@[simp] theorem State.setZmm_cr4 (s : State) (i : BitVec 5) (v : Zmm) : (s.setZmm i v).cr4 = s.cr4 := rfl
@[simp] theorem State.setZmm_xcr0 (s : State) (i : BitVec 5) (v : Zmm) : (s.setZmm i v).xcr0 = s.xcr0 := rfl
@[simp] theorem State.setZmm_efer (s : State) (i : BitVec 5) (v : Zmm) : (s.setZmm i v).efer = s.efer := rfl
@[simp] theorem State.setZmm_es (s : State) (i : BitVec 5) (v : Zmm) : (s.setZmm i v).es = s.es := rfl
@[simp] theorem State.setZmm_cs (s : State) (i : BitVec 5) (v : Zmm) : (s.setZmm i v).cs = s.cs := rfl
@[simp] theorem State.setZmm_ss (s : State) (i : BitVec 5) (v : Zmm) : (s.setZmm i v).ss = s.ss := rfl
@[simp] theorem State.setZmm_ds (s : State) (i : BitVec 5) (v : Zmm) : (s.setZmm i v).ds = s.ds := rfl
@[simp] theorem State.setZmm_fs (s : State) (i : BitVec 5) (v : Zmm) : (s.setZmm i v).fs = s.fs := rfl
@[simp] theorem State.setZmm_gs (s : State) (i : BitVec 5) (v : Zmm) : (s.setZmm i v).gs = s.gs := rfl
@[simp] theorem State.setZmm_csL (s : State) (i : BitVec 5) (v : Zmm) : (s.setZmm i v).csL = s.csL := rfl
@[simp] theorem State.setZmm_csD (s : State) (i : BitVec 5) (v : Zmm) : (s.setZmm i v).csD = s.csD := rfl
@[simp] theorem State.setZmm_dr0 (s : State) (i : BitVec 5) (v : Zmm) : (s.setZmm i v).dr0 = s.dr0 := rfl
@[simp] theorem State.setZmm_dr1 (s : State) (i : BitVec 5) (v : Zmm) : (s.setZmm i v).dr1 = s.dr1 := rfl
@[simp] theorem State.setZmm_dr2 (s : State) (i : BitVec 5) (v : Zmm) : (s.setZmm i v).dr2 = s.dr2 := rfl
@[simp] theorem State.setZmm_dr3 (s : State) (i : BitVec 5) (v : Zmm) : (s.setZmm i v).dr3 = s.dr3 := rfl
@[simp] theorem State.setZmm_dr7 (s : State) (i : BitVec 5) (v : Zmm) : (s.setZmm i v).dr7 = s.dr7 := rfl
@[simp] theorem State.setZmm_idtrBase (s : State) (i : BitVec 5) (v : Zmm) : (s.setZmm i v).idtrBase = s.idtrBase := rfl
@[simp] theorem State.setZmm_idtrLimit (s : State) (i : BitVec 5) (v : Zmm) : (s.setZmm i v).idtrLimit = s.idtrLimit := rfl
@[simp] theorem State.setZmm_mem (s : State) (i : BitVec 5) (v : Zmm) : (s.setZmm i v).mem = s.mem := rfl
@[simp] theorem State.setZmm_program (s : State) (i : BitVec 5) (v : Zmm) : (s.setZmm i v).program = s.program := rfl
@[simp] theorem State.setZmm_platform (s : State) (i : BitVec 5) (v : Zmm) : (s.setZmm i v).platform = s.platform := rfl
@[simp] theorem State.setZmm_draws (s : State) (i : BitVec 5) (v : Zmm) : (s.setZmm i v).draws = s.draws := rfl

/-! ## setMem -/

@[simp] theorem State.setMem_zmm (s : State) (m : Memory) : (s.setMem m).zmm = s.zmm := rfl
@[simp] theorem State.setMem_k (s : State) (m : Memory) : (s.setMem m).k = s.k := rfl
@[simp] theorem State.setMem_mxcsr (s : State) (m : Memory) : (s.setMem m).mxcsr = s.mxcsr := rfl
@[simp] theorem State.setMem_gpr (s : State) (m : Memory) : (s.setMem m).gpr = s.gpr := rfl
@[simp] theorem State.setMem_pc (s : State) (m : Memory) : (s.setMem m).pc = s.pc := rfl
@[simp] theorem State.setMem_rflags (s : State) (m : Memory) : (s.setMem m).rflags = s.rflags := rfl
@[simp] theorem State.setMem_cr0 (s : State) (m : Memory) : (s.setMem m).cr0 = s.cr0 := rfl
@[simp] theorem State.setMem_cr2 (s : State) (m : Memory) : (s.setMem m).cr2 = s.cr2 := rfl
@[simp] theorem State.setMem_cr4 (s : State) (m : Memory) : (s.setMem m).cr4 = s.cr4 := rfl
@[simp] theorem State.setMem_xcr0 (s : State) (m : Memory) : (s.setMem m).xcr0 = s.xcr0 := rfl
@[simp] theorem State.setMem_efer (s : State) (m : Memory) : (s.setMem m).efer = s.efer := rfl
@[simp] theorem State.setMem_es (s : State) (m : Memory) : (s.setMem m).es = s.es := rfl
@[simp] theorem State.setMem_cs (s : State) (m : Memory) : (s.setMem m).cs = s.cs := rfl
@[simp] theorem State.setMem_ss (s : State) (m : Memory) : (s.setMem m).ss = s.ss := rfl
@[simp] theorem State.setMem_ds (s : State) (m : Memory) : (s.setMem m).ds = s.ds := rfl
@[simp] theorem State.setMem_fs (s : State) (m : Memory) : (s.setMem m).fs = s.fs := rfl
@[simp] theorem State.setMem_gs (s : State) (m : Memory) : (s.setMem m).gs = s.gs := rfl
@[simp] theorem State.setMem_csL (s : State) (m : Memory) : (s.setMem m).csL = s.csL := rfl
@[simp] theorem State.setMem_csD (s : State) (m : Memory) : (s.setMem m).csD = s.csD := rfl
@[simp] theorem State.setMem_dr0 (s : State) (m : Memory) : (s.setMem m).dr0 = s.dr0 := rfl
@[simp] theorem State.setMem_dr1 (s : State) (m : Memory) : (s.setMem m).dr1 = s.dr1 := rfl
@[simp] theorem State.setMem_dr2 (s : State) (m : Memory) : (s.setMem m).dr2 = s.dr2 := rfl
@[simp] theorem State.setMem_dr3 (s : State) (m : Memory) : (s.setMem m).dr3 = s.dr3 := rfl
@[simp] theorem State.setMem_dr7 (s : State) (m : Memory) : (s.setMem m).dr7 = s.dr7 := rfl
@[simp] theorem State.setMem_idtrBase (s : State) (m : Memory) : (s.setMem m).idtrBase = s.idtrBase := rfl
@[simp] theorem State.setMem_idtrLimit (s : State) (m : Memory) : (s.setMem m).idtrLimit = s.idtrLimit := rfl
@[simp] theorem State.setMem_mem (s : State) (m : Memory) : (s.setMem m).mem = m := rfl
@[simp] theorem State.setMem_program (s : State) (m : Memory) : (s.setMem m).program = s.program := rfl
@[simp] theorem State.setMem_platform (s : State) (m : Memory) : (s.setMem m).platform = s.platform := rfl
@[simp] theorem State.setMem_draws (s : State) (m : Memory) : (s.setMem m).draws = s.draws := rfl

/-! ## retire -/

@[simp] theorem State.retire_zmm (s : State) (n : Nat) : (s.retire n).zmm = s.zmm := rfl
@[simp] theorem State.retire_k (s : State) (n : Nat) : (s.retire n).k = s.k := rfl
@[simp] theorem State.retire_mxcsr (s : State) (n : Nat) : (s.retire n).mxcsr = s.mxcsr := rfl
@[simp] theorem State.retire_gpr (s : State) (n : Nat) : (s.retire n).gpr = s.gpr := rfl
@[simp] theorem State.retire_pc (s : State) (n : Nat) : (s.retire n).pc = s.nextPc n := rfl
@[simp] theorem State.retire_rflags (s : State) (n : Nat) : (s.retire n).rflags = s.rflags := rfl
@[simp] theorem State.retire_cr0 (s : State) (n : Nat) : (s.retire n).cr0 = s.cr0 := rfl
@[simp] theorem State.retire_cr2 (s : State) (n : Nat) : (s.retire n).cr2 = s.cr2 := rfl
@[simp] theorem State.retire_cr4 (s : State) (n : Nat) : (s.retire n).cr4 = s.cr4 := rfl
@[simp] theorem State.retire_xcr0 (s : State) (n : Nat) : (s.retire n).xcr0 = s.xcr0 := rfl
@[simp] theorem State.retire_efer (s : State) (n : Nat) : (s.retire n).efer = s.efer := rfl
@[simp] theorem State.retire_es (s : State) (n : Nat) : (s.retire n).es = s.es := rfl
@[simp] theorem State.retire_cs (s : State) (n : Nat) : (s.retire n).cs = s.cs := rfl
@[simp] theorem State.retire_ss (s : State) (n : Nat) : (s.retire n).ss = s.ss := rfl
@[simp] theorem State.retire_ds (s : State) (n : Nat) : (s.retire n).ds = s.ds := rfl
@[simp] theorem State.retire_fs (s : State) (n : Nat) : (s.retire n).fs = s.fs := rfl
@[simp] theorem State.retire_gs (s : State) (n : Nat) : (s.retire n).gs = s.gs := rfl
@[simp] theorem State.retire_csL (s : State) (n : Nat) : (s.retire n).csL = s.csL := rfl
@[simp] theorem State.retire_csD (s : State) (n : Nat) : (s.retire n).csD = s.csD := rfl
@[simp] theorem State.retire_dr0 (s : State) (n : Nat) : (s.retire n).dr0 = s.dr0 := rfl
@[simp] theorem State.retire_dr1 (s : State) (n : Nat) : (s.retire n).dr1 = s.dr1 := rfl
@[simp] theorem State.retire_dr2 (s : State) (n : Nat) : (s.retire n).dr2 = s.dr2 := rfl
@[simp] theorem State.retire_dr3 (s : State) (n : Nat) : (s.retire n).dr3 = s.dr3 := rfl
@[simp] theorem State.retire_dr7 (s : State) (n : Nat) : (s.retire n).dr7 = s.dr7 := rfl
@[simp] theorem State.retire_idtrBase (s : State) (n : Nat) : (s.retire n).idtrBase = s.idtrBase := rfl
@[simp] theorem State.retire_idtrLimit (s : State) (n : Nat) : (s.retire n).idtrLimit = s.idtrLimit := rfl
@[simp] theorem State.retire_mem (s : State) (n : Nat) : (s.retire n).mem = s.mem := rfl
@[simp] theorem State.retire_program (s : State) (n : Nat) : (s.retire n).program = s.program := rfl
@[simp] theorem State.retire_platform (s : State) (n : Nat) : (s.retire n).platform = s.platform := rfl
@[simp] theorem State.retire_draws (s : State) (n : Nat) : (s.retire n).draws = s.draws + 1 := rfl

/-! ## Views -/

@[simp] theorem State.setZmm_avx512Enabled (s : State) (i : BitVec 5) (v : Zmm) : (s.setZmm i v).avx512Enabled = s.avx512Enabled := rfl
@[simp] theorem State.setZmm_ts (s : State) (i : BitVec 5) (v : Zmm) : (s.setZmm i v).ts = s.ts := rfl
@[simp] theorem State.setZmm_is64 (s : State) (i : BitVec 5) (v : Zmm) : (s.setZmm i v).is64 = s.is64 := rfl
@[simp] theorem State.setZmm_mode (s : State) (i : BitVec 5) (v : Zmm) : (s.setZmm i v).mode = s.mode := rfl
@[simp] theorem State.setZmm_decodeMode (s : State) (i : BitVec 5) (v : Zmm) : (s.setZmm i v).decodeMode = s.decodeMode := rfl
@[simp] theorem State.setZmm_cpl (s : State) (i : BitVec 5) (v : Zmm) : (s.setZmm i v).cpl = s.cpl := rfl
@[simp] theorem State.setZmm_alignmentChecking (s : State) (i : BitVec 5) (v : Zmm) : (s.setZmm i v).alignmentChecking = s.alignmentChecking := rfl
@[simp] theorem State.setZmm_debugArmed (s : State) (i : BitVec 5) (v : Zmm) : (s.setZmm i v).debugArmed = s.debugArmed := rfl
@[simp] theorem State.setZmm_hasVL (s : State) (i : BitVec 5) (v : Zmm) (vl : VL) : (s.setZmm i v).hasVL vl = s.hasVL vl := rfl
@[simp] theorem State.setZmm_getK (s : State) (i : BitVec 5) (v : Zmm) (r : BitVec 3) : (s.setZmm i v).getK r = s.getK r := rfl
@[simp] theorem State.setZmm_getGpr (s : State) (i : BitVec 5) (v : Zmm) (r : BitVec 4) : (s.setZmm i v).getGpr r = s.getGpr r := rfl
@[simp] theorem State.setZmm_segment (s : State) (i : BitVec 5) (v : Zmm) (g : SegReg) : (s.setZmm i v).segment g = s.segment g := rfl
@[simp] theorem State.setZmm_canonical (s : State) (i : BitVec 5) (v : Zmm) (x : QWord) : (s.setZmm i v).canonical x = s.canonical x := rfl
@[simp] theorem State.setZmm_regionAt (s : State) (i : BitVec 5) (v : Zmm) (x : QWord) : (s.setZmm i v).regionAt x = s.regionAt x := rfl
@[simp] theorem State.setZmm_mapped (s : State) (i : BitVec 5) (v : Zmm) (x : QWord) : (s.setZmm i v).mapped x = s.mapped x := rfl
@[simp] theorem State.setZmm_writable (s : State) (i : BitVec 5) (v : Zmm) (x : QWord) : (s.setZmm i v).writable x = s.writable x := rfl
@[simp] theorem State.setZmm_isDevice (s : State) (i : BitVec 5) (v : Zmm) (x : QWord) : (s.setZmm i v).isDevice x = s.isDevice x := rfl
@[simp] theorem State.setZmm_inProgram (s : State) (i : BitVec 5) (v : Zmm) (x : QWord) : (s.setZmm i v).inProgram x = s.inProgram x := rfl
@[simp] theorem State.setZmm_executable (s : State) (i : BitVec 5) (v : Zmm) (x : QWord) : (s.setZmm i v).executable x = s.executable x := rfl
@[simp] theorem State.setZmm_readByte (s : State) (i : BitVec 5) (v : Zmm) (x : QWord) : (s.setZmm i v).readByte x = s.readByte x := rfl
@[simp] theorem State.setMem_avx512Enabled (s : State) (m : Memory) : (s.setMem m).avx512Enabled = s.avx512Enabled := rfl
@[simp] theorem State.setMem_ts (s : State) (m : Memory) : (s.setMem m).ts = s.ts := rfl
@[simp] theorem State.setMem_is64 (s : State) (m : Memory) : (s.setMem m).is64 = s.is64 := rfl
@[simp] theorem State.setMem_mode (s : State) (m : Memory) : (s.setMem m).mode = s.mode := rfl
@[simp] theorem State.setMem_decodeMode (s : State) (m : Memory) : (s.setMem m).decodeMode = s.decodeMode := rfl
@[simp] theorem State.setMem_cpl (s : State) (m : Memory) : (s.setMem m).cpl = s.cpl := rfl
@[simp] theorem State.setMem_alignmentChecking (s : State) (m : Memory) : (s.setMem m).alignmentChecking = s.alignmentChecking := rfl
@[simp] theorem State.setMem_debugArmed (s : State) (m : Memory) : (s.setMem m).debugArmed = s.debugArmed := rfl
@[simp] theorem State.setMem_hasVL (s : State) (m : Memory) (vl : VL) : (s.setMem m).hasVL vl = s.hasVL vl := rfl
@[simp] theorem State.setMem_getK (s : State) (m : Memory) (r : BitVec 3) : (s.setMem m).getK r = s.getK r := rfl
@[simp] theorem State.setMem_getGpr (s : State) (m : Memory) (r : BitVec 4) : (s.setMem m).getGpr r = s.getGpr r := rfl
@[simp] theorem State.setMem_segment (s : State) (m : Memory) (g : SegReg) : (s.setMem m).segment g = s.segment g := rfl
@[simp] theorem State.setMem_canonical (s : State) (m : Memory) (x : QWord) : (s.setMem m).canonical x = s.canonical x := rfl
@[simp] theorem State.setMem_regionAt (s : State) (m : Memory) (x : QWord) : (s.setMem m).regionAt x = s.regionAt x := rfl
@[simp] theorem State.setMem_mapped (s : State) (m : Memory) (x : QWord) : (s.setMem m).mapped x = s.mapped x := rfl
@[simp] theorem State.setMem_writable (s : State) (m : Memory) (x : QWord) : (s.setMem m).writable x = s.writable x := rfl
@[simp] theorem State.setMem_isDevice (s : State) (m : Memory) (x : QWord) : (s.setMem m).isDevice x = s.isDevice x := rfl
@[simp] theorem State.setMem_inProgram (s : State) (m : Memory) (x : QWord) : (s.setMem m).inProgram x = s.inProgram x := rfl
@[simp] theorem State.setMem_executable (s : State) (m : Memory) (x : QWord) : (s.setMem m).executable x = s.executable x := rfl
@[simp] theorem State.setMem_getZmm (s : State) (m : Memory) (r : BitVec 5) : (s.setMem m).getZmm r = s.getZmm r := rfl
@[simp] theorem State.retire_avx512Enabled (s : State) (n : Nat) : (s.retire n).avx512Enabled = s.avx512Enabled := rfl
@[simp] theorem State.retire_ts (s : State) (n : Nat) : (s.retire n).ts = s.ts := rfl
@[simp] theorem State.retire_is64 (s : State) (n : Nat) : (s.retire n).is64 = s.is64 := rfl
@[simp] theorem State.retire_mode (s : State) (n : Nat) : (s.retire n).mode = s.mode := rfl
@[simp] theorem State.retire_decodeMode (s : State) (n : Nat) : (s.retire n).decodeMode = s.decodeMode := rfl
@[simp] theorem State.retire_cpl (s : State) (n : Nat) : (s.retire n).cpl = s.cpl := rfl
@[simp] theorem State.retire_alignmentChecking (s : State) (n : Nat) : (s.retire n).alignmentChecking = s.alignmentChecking := rfl
@[simp] theorem State.retire_debugArmed (s : State) (n : Nat) : (s.retire n).debugArmed = s.debugArmed := rfl
@[simp] theorem State.retire_hasVL (s : State) (n : Nat) (vl : VL) : (s.retire n).hasVL vl = s.hasVL vl := rfl
@[simp] theorem State.retire_getK (s : State) (n : Nat) (r : BitVec 3) : (s.retire n).getK r = s.getK r := rfl
@[simp] theorem State.retire_getGpr (s : State) (n : Nat) (r : BitVec 4) : (s.retire n).getGpr r = s.getGpr r := rfl
@[simp] theorem State.retire_segment (s : State) (n : Nat) (g : SegReg) : (s.retire n).segment g = s.segment g := rfl
@[simp] theorem State.retire_canonical (s : State) (n : Nat) (x : QWord) : (s.retire n).canonical x = s.canonical x := rfl
@[simp] theorem State.retire_regionAt (s : State) (n : Nat) (x : QWord) : (s.retire n).regionAt x = s.regionAt x := rfl
@[simp] theorem State.retire_mapped (s : State) (n : Nat) (x : QWord) : (s.retire n).mapped x = s.mapped x := rfl
@[simp] theorem State.retire_writable (s : State) (n : Nat) (x : QWord) : (s.retire n).writable x = s.writable x := rfl
@[simp] theorem State.retire_isDevice (s : State) (n : Nat) (x : QWord) : (s.retire n).isDevice x = s.isDevice x := rfl
@[simp] theorem State.retire_inProgram (s : State) (n : Nat) (x : QWord) : (s.retire n).inProgram x = s.inProgram x := rfl
@[simp] theorem State.retire_executable (s : State) (n : Nat) (x : QWord) : (s.retire n).executable x = s.executable x := rfl
@[simp] theorem State.retire_getZmm (s : State) (n : Nat) (r : BitVec 5) : (s.retire n).getZmm r = s.getZmm r := rfl
@[simp] theorem State.retire_readByte (s : State) (n : Nat) (x : QWord) : (s.retire n).readByte x = s.readByte x := rfl

/-! ## Reading a vector register after a write -/

@[simp] theorem State.getZmm_setZmm_self (s : State) (i : BitVec 5) (v : Zmm) : (s.setZmm i v).getZmm i = v := by
  simp [State.getZmm, State.setZmm]

theorem State.getZmm_setZmm_ne (s : State) (i r : BitVec 5) (v : Zmm) (h : r ≠ i) :
    (s.setZmm i v).getZmm r = s.getZmm r := by
  have hn : i.toNat ≠ r.toNat := fun e => h (BitVec.eq_of_toNat_eq e.symm)
  simp [State.getZmm, State.setZmm, hn]

end Sys2Proof.Machine
end

