-- ==== Sys2Proof/Laws/Ops.lean ====
section
/-! SUPPORT. What each shared operation can do, said once. -/

namespace Sys2Proof.Machine

/-! ## Dispatch -/

/-- What a form means, whichever constructor it has. -/
def execForm (f : Form) (s : State) : StepResult :=
  match f with
  | .reg c vl pfx d aaa z src => execRegister c vl pfx d aaa z src s
  | .mem c vl pfx m aaa src => execMemory c vl pfx m aaa src s

/-- Every arm of exec is the shared operation of its form. -/
theorem exec_eq_execForm (i : Instr) (s : State) : exec i s = execForm i.form s := by
  cases i <;> rfl

/-! ## The state and feature checks -/

/-- The checks pass exactly when the form is ready. -/
theorem checkEnabled_eq_none_iff (s : State) (vl : VL) : s.checkEnabled vl = none ↔ s.Ready vl := by
  unfold State.checkEnabled State.Ready
  cases s.avx512Enabled <;> cases s.hasVL vl <;> cases s.ts <;> simp

/-- A check that fails raises #UD or #NM. -/
theorem checkEnabled_eq_some (s : State) (vl : VL) (e : Exception) (h : s.checkEnabled vl = some e) :
    e = .ud ∨ e = .nm := by
  unfold State.checkEnabled at h
  split at h
  · exact .inl (by simpa using h.symm)
  · split at h
    · exact .inr (by simpa using h.symm)
    · cases h

/-! ## The writemask -/

theorem enabled_iff (s : State) (aaa : BitVec 3) (j : Nat) : s.enabled aaa j = true ↔ s.ElementEnabled aaa j := by
  simp [State.enabled, State.ElementEnabled]

theorem mem_enabledElements (s : State) (vl : VL) (aaa : BitVec 3) (j : Nat) :
    j ∈ s.enabledElements vl aaa ↔ j < vl.kl ∧ s.ElementEnabled aaa j := by
  simp [State.enabledElements, enabled_iff]

theorem mem_enabledBytes (s : State) (vl : VL) (aaa : BitVec 3) (i : Nat) :
    i ∈ s.enabledBytes vl aaa ↔ ∃ j, (j < vl.kl ∧ s.ElementEnabled aaa j) ∧ (i = 2 * j ∨ i = 2 * j + 1) := by
  simp [State.enabledBytes, mem_enabledElements]

/-- A question asked of every enabled byte is asked of both bytes of every enabled element. -/
theorem forall_enabledBytes (s : State) (vl : VL) (aaa : BitVec 3) (p : Nat → Prop) :
    (∀ i ∈ s.enabledBytes vl aaa, p i) ↔ ∀ j, j < vl.kl → s.ElementEnabled aaa j → p (2 * j) ∧ p (2 * j + 1) := by
  constructor
  · intro h j hj he
    exact ⟨h _ ((mem_enabledBytes s vl aaa _).2 ⟨j, ⟨hj, he⟩, .inl rfl⟩),
      h _ ((mem_enabledBytes s vl aaa _).2 ⟨j, ⟨hj, he⟩, .inr rfl⟩)⟩
  · intro h i hi
    obtain ⟨j, ⟨hj, he⟩, rfl | rfl⟩ := (mem_enabledBytes s vl aaa i).1 hi
    · exact (h j hj he).1
    · exact (h j hj he).2

/-! ## The checks of a store -/

/-- A free draw answers none exactly when there is nothing to draw from. -/
theorem drawFrom_eq_none_iff {α : Type} (n : Nat) (l : List α) : drawFrom n l = none ↔ l = [] := by
  unfold drawFrom
  cases l with
  | nil => simp
  | cons x xs =>
    simp only [List.getElem?_eq_none_iff, reduceCtorEq, iff_false, not_le]
    exact Nat.mod_lt _ (by simp)

/-- A free draw answers one of the candidates. -/
theorem drawFrom_mem {α : Type} (n : Nat) (l : List α) (x : α) (h : drawFrom n l = some x) : x ∈ l :=
  List.mem_of_getElem? h

/-- No memory fault: every enabled byte passes the segment and canonical checks and is writable. -/
theorem memoryFault_eq_none_iff (s : State) (vl : VL) (pfx : Prefixes) (m : MemOperand) (aaa : BitVec 3) :
    s.memoryFault vl pfx m aaa = none ↔
      ∀ i ∈ s.enabledBytes vl aaa, s.segmentViolation vl pfx m i = false ∧
        s.writable (s.operandByte vl pfx m i) = true := by
  unfold State.memoryFault
  split
  · rename_i h
    obtain ⟨i, hi, hv⟩ := List.any_eq_true.1 h
    simp only [reduceCtorEq, false_iff, not_forall]
    exact ⟨i, hi, fun hc => by simp [hc.1] at hv⟩
  · rename_i h
    rw [Option.map_eq_none_iff, drawFrom_eq_none_iff, List.filter_eq_nil_iff]
    simp only [List.any_eq_true, not_exists, not_and] at h
    constructor
    · intro hw i hi
      exact ⟨by simpa using h i hi, by simpa using hw i hi⟩
    · intro hw i hi
      simpa using (hw i hi).2

/-- What a memory fault can be (60_exceptions.md R122 step 6). -/
theorem memoryFault_eq_some (s : State) (vl : VL) (pfx : Prefixes) (m : MemOperand) (aaa : BitVec 3) (e : Exception)
    (h : s.memoryFault vl pfx m aaa = some e) :
    (e = s.segmentException pfx m ∧ ∃ i ∈ s.enabledBytes vl aaa, s.segmentViolation vl pfx m i = true) ∨
    ((∀ i ∈ s.enabledBytes vl aaa, s.segmentViolation vl pfx m i = false) ∧
      ∃ i ∈ s.enabledBytes vl aaa, s.writable (s.operandByte vl pfx m i) = false ∧
        e = .pf (s.pageFaultCode (s.operandByte vl pfx m i)) (s.operandByte vl pfx m i)) := by
  unfold State.memoryFault at h
  split at h
  · rename_i hv
    exact .inl ⟨by simpa using h.symm, List.any_eq_true.1 hv⟩
  · rename_i hv
    obtain ⟨i, hi, he⟩ := Option.map_eq_some_iff.1 h
    have hm := List.mem_filter.1 (drawFrom_mem _ _ _ hi)
    refine .inr ⟨fun k hk => ?_, i, hm.1, by simpa using hm.2, he.symm⟩
    simp only [List.any_eq_true, not_exists, not_and] at hv
    simpa using hv k hk

/-- The alignment check passes an accepted operand. -/
theorem alignmentStop_of_accepted (s : State) (vl : VL) (pfx : Prefixes) (m : MemOperand) (aaa : BitVec 3)
    (h : s.AlignmentAccepted vl pfx m) : s.alignmentStop vl pfx m aaa = none := by
  unfold State.alignmentStop
  rcases h with h | h <;> simp [h]

/-- What the alignment check can answer. -/
theorem alignmentStop_eq_some (s : State) (vl : VL) (pfx : Prefixes) (m : MemOperand) (aaa : BitVec 3) (e : Stop)
    (h : s.alignmentStop vl pfx m aaa = some e) :
    s.alignmentChecking = true ∧ (e = .refuse .alignmentUnsettled ∨ e = .fault (.exception .ac0)) := by
  unfold State.alignmentStop at h
  split at h
  · cases h
  · rename_i hc
    have hac : s.alignmentChecking = true := by
      cases hx : s.alignmentChecking
      · simp [hx] at hc
      · rfl
    split at h
    · exact ⟨hac, .inl (by simpa using h.symm)⟩
    · exact ⟨hac, .inr (by simpa using h.symm)⟩

/-- What the refusals of a store can answer. -/
theorem storeRefusal_eq_none_iff (s : State) (vl : VL) (pfx : Prefixes) (m : MemOperand) (aaa : BitVec 3) :
    s.storeRefusal vl pfx m aaa = none ↔
      ∀ i ∈ s.enabledBytes vl aaa, s.inProgram (s.operandByte vl pfx m i) = false ∧
        s.isDevice (s.operandByte vl pfx m i) = false := by
  unfold State.storeRefusal
  split
  · rename_i h
    obtain ⟨i, hi, hv⟩ := List.any_eq_true.1 h
    simp only [reduceCtorEq, false_iff, not_forall]
    exact ⟨i, hi, fun hc => by simp [hc.1] at hv⟩
  · rename_i h
    simp only [List.any_eq_true, not_exists, not_and] at h
    split
    · rename_i h'
      obtain ⟨i, hi, hv⟩ := List.any_eq_true.1 h'
      simp only [reduceCtorEq, false_iff, not_forall]
      exact ⟨i, hi, fun hc => by simp [hc.2] at hv⟩
    · rename_i h'
      simp only [List.any_eq_true, not_exists, not_and] at h'
      simp only [true_iff]
      exact fun i hi => ⟨by simpa using h i hi, by simpa using h' i hi⟩

/-- What the refusals of a store are. -/
theorem storeRefusal_eq_some (s : State) (vl : VL) (pfx : Prefixes) (m : MemOperand) (aaa : BitVec 3) (e : Stop)
    (h : s.storeRefusal vl pfx m aaa = some e) : e = .refuse .storeIntoProgram ∨ e = .refuse .deviceStore := by
  unfold State.storeRefusal at h
  split at h
  · exact .inl (by simpa using h.symm)
  · split at h
    · exact .inr (by simpa using h.symm)
    · cases h

/-- An admitted and accepted store is not stopped. -/
theorem storeStop_of_admitted (s : State) (vl : VL) (pfx : Prefixes) (m : MemOperand) (aaa : BitVec 3)
    (hs : s.StoreAdmitted vl pfx m aaa) (ha : s.AlignmentAccepted vl pfx m) : s.storeStop vl pfx m aaa = none := by
  have hb := (forall_enabledBytes s vl aaa (s.ByteStorable vl pfx m)).2 hs
  have hf := (memoryFault_eq_none_iff s vl pfx m aaa).2 fun i hi => ⟨(hb i hi).1, (hb i hi).2.1⟩
  have hr := (storeRefusal_eq_none_iff s vl pfx m aaa).2 fun i hi => (hb i hi).2.2
  simp [State.storeStop, hf, alignmentStop_of_accepted s vl pfx m aaa ha, hr]

/-- A store that is not stopped is admitted. -/
theorem admitted_of_storeStop (s : State) (vl : VL) (pfx : Prefixes) (m : MemOperand) (aaa : BitVec 3)
    (h : s.storeStop vl pfx m aaa = none) : s.StoreAdmitted vl pfx m aaa := by
  unfold State.storeStop at h
  split at h
  · cases h
  · rename_i hf
    split at h
    · cases h
    · have h1 := (memoryFault_eq_none_iff s vl pfx m aaa).1 hf
      have h2 := (storeRefusal_eq_none_iff s vl pfx m aaa).1 h
      exact (forall_enabledBytes s vl aaa (s.ByteStorable vl pfx m)).1 fun i hi =>
        ⟨(h1 i hi).1, (h1 i hi).2, h2 i hi⟩

/-- What can stop a store. -/
theorem storeStop_eq_some (s : State) (vl : VL) (pfx : Prefixes) (m : MemOperand) (aaa : BitVec 3) (e : Stop)
    (h : s.storeStop vl pfx m aaa = some e) :
    (∃ x, s.memoryFault vl pfx m aaa = some x ∧ e = .fault (.exception x)) ∨
    (s.memoryFault vl pfx m aaa = none ∧
      (e = .refuse .alignmentUnsettled ∨ e = .fault (.exception .ac0) ∨ e = .refuse .storeIntoProgram ∨
        e = .refuse .deviceStore)) := by
  unfold State.storeStop at h
  split at h
  · rename_i x hx
    exact .inl ⟨x, hx, by simpa using h.symm⟩
  · rename_i hf
    refine .inr ⟨hf, ?_⟩
    split at h
    · rename_i st hst
      obtain rfl : st = e := by simpa using h
      rcases (alignmentStop_eq_some s vl pfx m aaa st hst).2 with rfl | rfl
      · exact .inl rfl
      · exact .inr (.inl rfl)
    · exact (storeRefusal_eq_some s vl pfx m aaa e h).elim (fun e => .inr (.inr (.inl e))) fun e => .inr (.inr (.inr e))

/-! ## The two shared operations -/

/-- Everything a register form can do. -/
theorem execRegister_cases (c : Conversion) (vl : VL) (pfx : Prefixes) (d : BitVec 5) (aaa : BitVec 3) (z : Bool)
    (src : BitVec 5) (s : State) :
    (∃ e, s.checkEnabled vl = some e ∧ execRegister c vl pfx d aaa z src s = .fault (.exception e)) ∨
    (s.Ready vl ∧ execRegister c vl pfx d aaa z src s =
      .next ((s.setZmm d (s.registerResult c vl d aaa z src)).retire (regLength pfx))) := by
  unfold execRegister
  cases h : s.checkEnabled vl with
  | some e => exact .inl ⟨e, rfl, rfl⟩
  | none => exact .inr ⟨(checkEnabled_eq_none_iff s vl).1 h, rfl⟩

/-- Everything a memory form can do. -/
theorem execMemory_cases (c : Conversion) (vl : VL) (pfx : Prefixes) (m : MemOperand) (aaa : BitVec 3)
    (src : BitVec 5) (s : State) :
    (∃ e, s.checkEnabled vl = some e ∧ execMemory c vl pfx m aaa src s = .fault (.exception e)) ∨
    (s.Ready vl ∧ ∃ stop, s.storeStop vl pfx m aaa = some stop ∧
      execMemory c vl pfx m aaa src s = stop.outcome) ∨
    (s.Ready vl ∧ s.storeStop vl pfx m aaa = none ∧ execMemory c vl pfx m aaa src s =
      .next ((s.setMem (s.storedMemory c vl pfx m aaa src)).retire (memLength pfx m))) := by
  unfold execMemory
  cases h : s.checkEnabled vl with
  | some e => exact .inl ⟨e, rfl, rfl⟩
  | none =>
    have hr := (checkEnabled_eq_none_iff s vl).1 h
    cases hs : s.storeStop vl pfx m aaa with
    | some stop => exact .inr (.inl ⟨hr, stop, rfl, rfl⟩)
    | none => exact .inr (.inr ⟨hr, rfl, rfl⟩)

/-! ## What a register form writes -/

/-- Word `j` of the result (R97, R99, R101). -/
theorem wordElement_registerResult (s : State) (c : Conversion) (vl : VL) (d : BitVec 5) (aaa : BitVec 3) (z : Bool)
    (src : BitVec 5) (j : Nat) (hj : j < vl.kl) :
    wordElement (s.registerResult c vl d aaa z src) j =
      if s.enabled aaa j then convert c (quadElement (s.getZmm src) j)
      else if z then 0#16 else wordElement (s.getZmm d) j :=
  wordElement_packWords _ _ _ (by have := VL.kl_le vl; omega) hj

/-- The bits above the words are zero (R103). -/
theorem registerResult_high (s : State) (c : Conversion) (vl : VL) (d : BitVec 5) (aaa : BitVec 3) (z : Bool)
    (src : BitVec 5) (n : Nat) (hn : 16 * vl.kl ≤ n) :
    (s.registerResult c vl d aaa z src).getLsbD n = false := packWords_high _ _ _ hn

/-! ## What a memory form writes -/

/-- A memory form keeps the canonical form of memory. -/
theorem storedMemory_wf (s : State) (c : Conversion) (vl : VL) (pfx : Prefixes) (m : MemOperand) (aaa : BitVec 3)
    (src : BitVec 5) (h : Memory.wf s.mem) : Memory.wf (s.storedMemory c vl pfx m aaa src) := by
  unfold State.storedMemory
  generalize s.enabledElements vl aaa = l
  generalize hm : s.mem = mem at h ⊢
  clear hm
  induction l generalizing mem with
  | nil => exact h
  | cons j js ih => exact ih _ (Memory.writeLE_wf _ _ _ _ _ h)

/-- Bytes outside the enabled elements keep their value (20_memory.md R43). -/
theorem storedMemory_read_ne (s : State) (c : Conversion) (vl : VL) (pfx : Prefixes) (m : MemOperand) (aaa : BitVec 3)
    (src : BitVec 5) (x : Nat) (h : ¬ s.IsStoredByte vl pfx m aaa x) :
    (s.storedMemory c vl pfx m aaa src).read x = s.mem.read x := by
  unfold State.storedMemory
  have hl : ∀ j ∈ s.enabledElements vl aaa, x ≠ (s.operandByte vl pfx m (2 * j)).toNat ∧
      x ≠ (s.operandByte vl pfx m (2 * j + 1)).toNat := fun j hj =>
    have hj := (mem_enabledElements s vl aaa j).1 hj
    ⟨fun e => h ⟨j, hj.1, hj.2, .inl e⟩, fun e => h ⟨j, hj.1, hj.2, .inr e⟩⟩
  generalize s.enabledElements vl aaa = l at hl
  generalize s.mem = mem
  induction l generalizing mem with
  | nil => rfl
  | cons j js ih =>
    rw [List.foldl_cons, ih (fun k hk => hl k (List.mem_cons_of_mem _ hk)), Memory.writeLE_read_ne]
    have hj := hl j List.mem_cons_self
    intro i hi
    simp only [State.operandByte, byteAddr_byteAddr] at hj ⊢
    have : i = 0 ∨ i = 1 := by omega
    rcases this with rfl | rfl
    · exact hj.1
    · exact hj.2

end Sys2Proof.Machine
end

