-- ==== Sys2Proof/Laws/PerInstr.lean ====
section
/-! SUPPORT. A fact about every instruction as syntax, one lemma per constructor. -/

namespace Sys2Proof.Laws.LengthBounds

/-- An instruction has 6 to 13 bytes, and its encoding has that many (30_encoding.md R53, R65). -/
def Statement (i : Instr) : Prop := 6 ≤ i.length ∧ i.length ≤ 13 ∧ (encode i).length = i.length

theorem vpmovqw128Reg (pfx : Prefixes) (d : BitVec 5) (aaa : BitVec 3) (z : Bool) (src : BitVec 5) :
    Statement (.vpmovqw128Reg pfx d aaa z src) :=
  ⟨(regLength_bounds pfx).1, (regLength_bounds pfx).2, encode_length _⟩

theorem vpmovqw128Mem (pfx : Prefixes) (m : MemOperand) (aaa : BitVec 3) (src : BitVec 5) :
    Statement (.vpmovqw128Mem pfx m aaa src) :=
  ⟨(memLength_bounds pfx m).1, (memLength_bounds pfx m).2, encode_length _⟩

theorem vpmovsqw128Reg (pfx : Prefixes) (d : BitVec 5) (aaa : BitVec 3) (z : Bool) (src : BitVec 5) :
    Statement (.vpmovsqw128Reg pfx d aaa z src) :=
  ⟨(regLength_bounds pfx).1, (regLength_bounds pfx).2, encode_length _⟩

theorem vpmovsqw128Mem (pfx : Prefixes) (m : MemOperand) (aaa : BitVec 3) (src : BitVec 5) :
    Statement (.vpmovsqw128Mem pfx m aaa src) :=
  ⟨(memLength_bounds pfx m).1, (memLength_bounds pfx m).2, encode_length _⟩

theorem vpmovusqw128Reg (pfx : Prefixes) (d : BitVec 5) (aaa : BitVec 3) (z : Bool) (src : BitVec 5) :
    Statement (.vpmovusqw128Reg pfx d aaa z src) :=
  ⟨(regLength_bounds pfx).1, (regLength_bounds pfx).2, encode_length _⟩

theorem vpmovusqw128Mem (pfx : Prefixes) (m : MemOperand) (aaa : BitVec 3) (src : BitVec 5) :
    Statement (.vpmovusqw128Mem pfx m aaa src) :=
  ⟨(memLength_bounds pfx m).1, (memLength_bounds pfx m).2, encode_length _⟩

theorem vpmovqw256Reg (pfx : Prefixes) (d : BitVec 5) (aaa : BitVec 3) (z : Bool) (src : BitVec 5) :
    Statement (.vpmovqw256Reg pfx d aaa z src) :=
  ⟨(regLength_bounds pfx).1, (regLength_bounds pfx).2, encode_length _⟩

theorem vpmovqw256Mem (pfx : Prefixes) (m : MemOperand) (aaa : BitVec 3) (src : BitVec 5) :
    Statement (.vpmovqw256Mem pfx m aaa src) :=
  ⟨(memLength_bounds pfx m).1, (memLength_bounds pfx m).2, encode_length _⟩

theorem vpmovsqw256Reg (pfx : Prefixes) (d : BitVec 5) (aaa : BitVec 3) (z : Bool) (src : BitVec 5) :
    Statement (.vpmovsqw256Reg pfx d aaa z src) :=
  ⟨(regLength_bounds pfx).1, (regLength_bounds pfx).2, encode_length _⟩

theorem vpmovsqw256Mem (pfx : Prefixes) (m : MemOperand) (aaa : BitVec 3) (src : BitVec 5) :
    Statement (.vpmovsqw256Mem pfx m aaa src) :=
  ⟨(memLength_bounds pfx m).1, (memLength_bounds pfx m).2, encode_length _⟩

theorem vpmovusqw256Reg (pfx : Prefixes) (d : BitVec 5) (aaa : BitVec 3) (z : Bool) (src : BitVec 5) :
    Statement (.vpmovusqw256Reg pfx d aaa z src) :=
  ⟨(regLength_bounds pfx).1, (regLength_bounds pfx).2, encode_length _⟩

theorem vpmovusqw256Mem (pfx : Prefixes) (m : MemOperand) (aaa : BitVec 3) (src : BitVec 5) :
    Statement (.vpmovusqw256Mem pfx m aaa src) :=
  ⟨(memLength_bounds pfx m).1, (memLength_bounds pfx m).2, encode_length _⟩

theorem vpmovqw512Reg (pfx : Prefixes) (d : BitVec 5) (aaa : BitVec 3) (z : Bool) (src : BitVec 5) :
    Statement (.vpmovqw512Reg pfx d aaa z src) :=
  ⟨(regLength_bounds pfx).1, (regLength_bounds pfx).2, encode_length _⟩

theorem vpmovqw512Mem (pfx : Prefixes) (m : MemOperand) (aaa : BitVec 3) (src : BitVec 5) :
    Statement (.vpmovqw512Mem pfx m aaa src) :=
  ⟨(memLength_bounds pfx m).1, (memLength_bounds pfx m).2, encode_length _⟩

theorem vpmovsqw512Reg (pfx : Prefixes) (d : BitVec 5) (aaa : BitVec 3) (z : Bool) (src : BitVec 5) :
    Statement (.vpmovsqw512Reg pfx d aaa z src) :=
  ⟨(regLength_bounds pfx).1, (regLength_bounds pfx).2, encode_length _⟩

theorem vpmovsqw512Mem (pfx : Prefixes) (m : MemOperand) (aaa : BitVec 3) (src : BitVec 5) :
    Statement (.vpmovsqw512Mem pfx m aaa src) :=
  ⟨(memLength_bounds pfx m).1, (memLength_bounds pfx m).2, encode_length _⟩

theorem vpmovusqw512Reg (pfx : Prefixes) (d : BitVec 5) (aaa : BitVec 3) (z : Bool) (src : BitVec 5) :
    Statement (.vpmovusqw512Reg pfx d aaa z src) :=
  ⟨(regLength_bounds pfx).1, (regLength_bounds pfx).2, encode_length _⟩

theorem vpmovusqw512Mem (pfx : Prefixes) (m : MemOperand) (aaa : BitVec 3) (src : BitVec 5) :
    Statement (.vpmovusqw512Mem pfx m aaa src) :=
  ⟨(memLength_bounds pfx m).1, (memLength_bounds pfx m).2, encode_length _⟩

end Sys2Proof.Laws.LengthBounds
end

