-- ==== Sys2Proof/Tests/Slice0.lean ====
section
/-! SUPPORT. Tests and witnesses. Expected values are those of spec/95_test_vectors.md (named by its row) or are worked out by
hand from the rule a test names; none was copied from the model. -/

open Sys2Proof Sys2Proof.Machine

namespace Sys2Proof.Tests

set_option exponentiation.threshold 600

/-! ## Helpers -/

/-- No legacy prefix. -/
def noPfx : Prefixes := ⟨none, false⟩

/-- The outcome is a next state with the property. -/
def nextHas (o : StepResult) (p : State → Bool) : Bool :=
  match o with
  | .next t => p t
  | _ => false

/-- The outcome is a fault. -/
def faultIs (o : StepResult) (p : Fault → Bool) : Bool :=
  match o with
  | .fault f => p f
  | _ => false

/-- The outcome is this exception. -/
def raises (o : StepResult) (e : Exception) : Bool := faultIs o fun f => f == .exception e

/-- The outcome is this refusal. -/
def refuses (o : StepResult) (r : Refusal) : Bool :=
  match o with
  | .refused q => q == r
  | _ => false

theorem nextHas_exists (o : StepResult) (p : State → Bool) (h : nextHas o p = true) : ∃ t, o = .next t := by
  cases o with
  | next t => exact ⟨t, rfl⟩
  | fault f => cases h
  | refused r => cases h

theorem raises_eq (o : StepResult) (e : Exception) (h : raises o e = true) : o = .fault (.exception e) := by
  cases o with
  | next t => cases h
  | fault f => exact congrArg _ (of_decide_eq_true h)
  | refused r => cases h

/-- The source register of 95_test_vectors.md 2.2. -/
def wideSource : Zmm :=
  0x7FFFFFFFFFFFFFFF00000000FFFF0001FFFFFFFFFFFF7FFF0000000000007FFF8000000000008000FFFFFFFFFFFFFFFF00000000000100000123456789ABCDEF#512

/-- 64-bit mode, everything enabled, CPL 0, `zmm2` as in 2.2, all other vector registers all ones, `rax = 1000h`. -/
def bench : State :=
  { State.reset.launch with
    pc := 0x400000#64
    zmm := (Vector.replicate 32 (BitVec.allOnes 512)).set 2 wideSource
    gpr := (Vector.replicate 16 0#64).set 0 0x1000#64 }

/-- A flat 32-bit code segment and data segments (95_test_vectors.md P5). -/
def flat : Segment := { selector := 0x10#16, base := 0, limit := 0xFFFFFFFF#32, writable := true }

/-- 32-bit mode, otherwise as `bench`. -/
def bench32 : State :=
  { bench with csL := false, csD := true, pc := 0x10000#64, es := flat, cs := flat, ss := flat, ds := flat, fs := flat, gs := flat }

/-- The same state with another value in an opmask register. -/
def withK (s : State) (i : BitVec 3) (v : QWord) : State := { s with k := s.k.set i.toNat v i.isLt }

/-- The same state with another value in a general register. -/
def withGpr (s : State) (i : BitVec 4) (v : QWord) : State := { s with gpr := s.gpr.set i.toNat v i.isLt }

/-- CPL 3 (10_state.md R32). -/
def atCpl3 (s : State) : State := { s with cs := { s.cs with selector := 0x33#16 } }

/-- AC_ENABLED (00_scope.md R8). -/
def withAc (s : State) : State :=
  atCpl3 { s with cr0 := s.cr0 ||| 0x40000#64, rflags := s.rflags ||| 0x40000#64 }

/-- 95_test_vectors.md 2.8: 1000h to 2FFFh writable, nothing mapped from 3000h on but the code; CPL 3. -/
def paged : State :=
  atCpl3 { bench with
    platform := { defaultPlatform with regions :=
      [{ base := 0x1000, size := 0x2000, kind := .ordinary, storeSupervisor := true, storeUser := true, execute := false },
       { base := 0x400000, size := 0x1000, kind := .ordinary, storeSupervisor := false, storeUser := false, execute := true },
       { base := 0x500000, size := 0x1000, kind := .device, storeSupervisor := true, storeUser := true, execute := true }] } }

/-- The bytes placed at `pc` as the program text. -/
def withCode (s : State) (bs : List Byte) : State := (s.placeCode bs).declareText bs.length

/-- One step on a program of these bytes. -/
def stepOn (s : State) (bs : List Byte) : StepResult := step (withCode s bs)

/-- Bytes in a run of addresses, none where a byte has no value. -/
def bytesAt (t : State) (a n : Nat) : List (Option Byte) := (List.range n).map fun i => t.mem.read (a + i)

/-! ## Well-formed and ill-formed instructions: one ill-formed term per check -/

theorem test_wf_ok : WellFormed .mode64 (.vpmovqw512Reg noPfx 31 7 true 31) = true ∧
    WellFormed .mode32 (.vpmovqw512Mem noPfx (.base 7 .none) 7 7) = true := by decide

theorem test_wf_zeroing_without_mask : WellFormed .mode64 (.vpmovqw512Reg noPfx 1 0 true 2) = false ∧
    WellFormed .mode32 (.vpmovqw512Reg noPfx 1 0 true 2) = false := by decide

theorem test_wf_base_100_needs_sib : WellFormed .mode64 (.vpmovqw512Mem noPfx (.base 12 .none) 0 2) = false := by decide

theorem test_wf_base_101_needs_displacement : WellFormed .mode64 (.vpmovqw512Mem noPfx (.base 5 .none) 0 2) = false ∧
    WellFormed .mode64 (.vpmovqw512Mem noPfx (.sib 13 none .none) 0 2) = false ∧
    WellFormed .mode64 (.vpmovqw512Mem noPfx (.sib 13 none (.disp8 0)) 0 2) = true := by decide

theorem test_wf_index_4 : WellFormed .mode64 (.vpmovqw512Mem noPfx (.sib 0 (some ⟨4, 0⟩) .none) 0 2) = false ∧
    WellFormed .mode64 (.vpmovqw512Mem noPfx (.sibNoBase (some ⟨4, 0⟩) 0) 0 2) = false ∧
    WellFormed .mode64 (.vpmovqw512Mem noPfx (.sib 0 (some ⟨12, 0⟩) .none) 0 2) = true := by decide

theorem test_wf_mode32_high_registers : WellFormed .mode32 (.vpmovqw512Reg noPfx 8 0 false 2) = false ∧
    WellFormed .mode32 (.vpmovqw512Reg noPfx 1 0 false 16) = false ∧
    WellFormed .mode32 (.vpmovqw512Mem noPfx (.base 8 .none) 0 2) = false ∧
    WellFormed .mode32 (.vpmovqw512Mem noPfx (.sib 8 none .none) 0 2) = false ∧
    WellFormed .mode32 (.vpmovqw512Mem noPfx (.sib 0 (some ⟨8, 0⟩) .none) 0 2) = false ∧
    WellFormed .mode32 (.vpmovqw512Mem noPfx (.sibNoBase (some ⟨8, 0⟩) 0) 0 2) = false ∧
    WellFormed .mode32 (.vpmovqw512Mem noPfx (.base 0 .none) 0 8) = false := by decide

theorem test_wf_mode32_address_size_16 : WellFormed .mode32 (.vpmovqw512Mem ⟨none, true⟩ (.base 0 .none) 0 2) = false ∧
    WellFormed .mode32 (.vpmovqw512Reg ⟨none, true⟩ 1 0 false 2) = true := by decide

theorem test_wf_real_mode : WellFormed .realOrV86 (.vpmovqw512Reg noPfx 1 0 false 2) = false := by decide

/-! ## Decoding: the encodings E1 to E24 of 95_test_vectors.md 2.5, and a word for every constructor -/

theorem test_decode_E1_E2_E3 :
    decode .mode64 [0x62, 0xF2, 0x7E, 0x08, 0x34, 0xD1] = .instr (.vpmovqw128Reg noPfx 1 0 false 2) [] ∧
    decode .mode64 [0x62, 0xF2, 0x7E, 0x28, 0x34, 0xD1] = .instr (.vpmovqw256Reg noPfx 1 0 false 2) [] ∧
    decode .mode64 [0x62, 0xF2, 0x7E, 0x48, 0x34, 0xD1] = .instr (.vpmovqw512Reg noPfx 1 0 false 2) [] := by decide

theorem test_decode_E4_E5_E6_E7 :
    decode .mode64 [0x62, 0xF2, 0x7E, 0x48, 0x24, 0xD3] = .instr (.vpmovsqw512Reg noPfx 3 0 false 2) [] ∧
    decode .mode64 [0x62, 0xF2, 0x7E, 0x48, 0x14, 0xD4] = .instr (.vpmovusqw512Reg noPfx 4 0 false 2) [] ∧
    decode .mode64 [0x62, 0xF2, 0x7E, 0xC9, 0x34, 0xD1] = .instr (.vpmovqw512Reg noPfx 1 1 true 2) [] ∧
    decode .mode64 [0x62, 0x22, 0x7E, 0x48, 0x34, 0xF1] = .instr (.vpmovqw512Reg noPfx 17 0 false 30) [] := by decide

theorem test_decode_E8_E9 :
    decode .mode64 [0x62, 0x92, 0x7E, 0x0F, 0x24, 0xC7] = .instr (.vpmovsqw128Reg noPfx 31 7 false 0) [] ∧
    decode .mode64 [0x62, 0xC2, 0x7E, 0xAD, 0x14, 0xE1] = .instr (.vpmovusqw256Reg noPfx 9 5 true 20) [] := by decide

/-- P2 of 95_test_vectors.md 3 (VPMOVSQW at 256), and R77 written out: z = 1, aaa = 001b, reg = 010b, r/m = 011b. -/
theorem test_decode_remaining_registers :
    decode .mode64 [0x62, 0xF2, 0x7E, 0x2B, 0x24, 0xEE] = .instr (.vpmovsqw256Reg noPfx 6 3 false 5) [] ∧
    decode .mode64 [0x62, 0xF2, 0x7E, 0x89, 0x14, 0xD3] = .instr (.vpmovusqw128Reg noPfx 3 1 true 2) [] := by decide

theorem test_decode_E10_E11_E12 :
    decode .mode64 [0x62, 0xF2, 0x7E, 0x48, 0x34, 0x10] = .instr (.vpmovqw512Mem noPfx (.base 0 .none) 0 2) [] ∧
    decode .mode64 [0x62, 0xF2, 0x7E, 0x49, 0x34, 0x10] = .instr (.vpmovqw512Mem noPfx (.base 0 .none) 1 2) [] ∧
    decode .mode64 [0x62, 0xF2, 0x7E, 0x48, 0x34, 0x50, 0x01] = .instr (.vpmovqw512Mem noPfx (.base 0 (.disp8 1)) 0 2) [] := by
  decide

theorem test_decode_E13_E14_E15 :
    decode .mode64 [0x62, 0xF2, 0x7E, 0x08, 0x34, 0x50, 0x01] = .instr (.vpmovqw128Mem noPfx (.base 0 (.disp8 1)) 0 2) [] ∧
    decode .mode64 [0x62, 0xF2, 0x7E, 0x28, 0x34, 0x50, 0x01] = .instr (.vpmovqw256Mem noPfx (.base 0 (.disp8 1)) 0 2) [] ∧
    decode .mode64 [0x62, 0x12, 0x7E, 0x49, 0x24, 0x54, 0x88, 0xF8] =
      .instr (.vpmovsqw512Mem noPfx (.sib 8 (some ⟨9, 2⟩) (.disp8 0xF8)) 1 10) [] := by decide

theorem test_decode_E16_E17_E18 :
    decode .mode64 [0x62, 0xF2, 0x7E, 0x28, 0x14, 0x8B, 0x00, 0x01, 0x00, 0x00] =
      .instr (.vpmovusqw256Mem noPfx (.base 3 (.disp32 0x100)) 0 1) [] ∧
    decode .mode64 [0x62, 0xF2, 0x7E, 0x08, 0x34, 0x1C, 0x24] = .instr (.vpmovqw128Mem noPfx (.sib 4 none .none) 0 3) [] ∧
    decode .mode64 [0x62, 0xF2, 0x7E, 0x08, 0x34, 0x5D, 0x00] = .instr (.vpmovqw128Mem noPfx (.base 5 (.disp8 0)) 0 3) [] := by
  decide

theorem test_decode_E19_E20_E21 :
    decode .mode64 [0x62, 0xF2, 0x7E, 0x08, 0x34, 0x1C, 0x25, 0x00, 0x30, 0x00, 0x00] =
      .instr (.vpmovqw128Mem noPfx (.sibNoBase none 0x3000) 0 3) [] ∧
    decode .mode64 [0x62, 0xF2, 0x7E, 0x0A, 0x14, 0x15, 0xE8, 0x1F, 0xC0, 0xFF] =
      .instr (.vpmovusqw128Mem noPfx (.dispOnly 0xFFC01FE8) 2 2) [] ∧
    decode .mode64 [0x62, 0xF2, 0x7E, 0x29, 0x24, 0x54, 0x48, 0x04] =
      .instr (.vpmovsqw256Mem noPfx (.sib 0 (some ⟨1, 1⟩) (.disp8 4)) 1 2) [] := by decide

/-- E22, E23 and E24, and byte 62h in 32-bit mode with bits 7:6 not 11b (30_encoding.md R66). -/
theorem test_decode_E22_E23_E24 :
    decode .mode64 [0x64, 0x62, 0xF2, 0x7E, 0x48, 0x34, 0x10] =
      .instr (.vpmovqw512Mem ⟨some .fs, false⟩ (.base 0 .none) 0 2) [] ∧
    decode .mode64 [0x67, 0x62, 0xF2, 0x7E, 0x48, 0x34, 0x10] = .instr (.vpmovqw512Mem ⟨none, true⟩ (.base 0 .none) 0 2) [] ∧
    decode .mode32 [0x62, 0xF2, 0x7E, 0x48, 0x34, 0xD1] = .instr (.vpmovqw512Reg noPfx 1 0 false 2) [] ∧
    decode .mode32 [0x62, 0x72, 0x7E, 0x48, 0x34, 0xD1] = .refuse .bound := by decide

/-- M7 of 95_test_vectors.md 2.7, and R76 written out: aaa = 111b, mod = 00b, reg = 000b, r/m = 111b. -/
theorem test_decode_remaining_memory :
    decode .mode64 [0x62, 0xF2, 0x7E, 0x48, 0x14, 0x10] = .instr (.vpmovusqw512Mem noPfx (.base 0 .none) 0 2) [] ∧
    decode .mode64 [0x62, 0xF2, 0x7E, 0x0F, 0x24, 0x07] = .instr (.vpmovsqw128Mem noPfx (.base 7 .none) 7 0) [] := by decide

/-- Rows V1 to V10 of 95_test_vectors.md 2.6. -/
theorem test_decode_reserved : ∀ bs ∈ ([[0x62, 0xF2, 0x76, 0x48, 0x34, 0xD1], [0x62, 0xF2, 0x06, 0x48, 0x34, 0xD1],
    [0x62, 0xF2, 0xFE, 0x48, 0x34, 0xD1], [0x62, 0xF2, 0x7E, 0x58, 0x34, 0xD1], [0x62, 0xF2, 0x7E, 0x40, 0x34, 0xD1],
    [0x62, 0xF2, 0x7E, 0xC8, 0x34, 0xD1], [0x62, 0xF2, 0x7E, 0xC9, 0x34, 0x10], [0x62, 0xF2, 0x7E, 0x68, 0x34, 0xD1],
    [0x62, 0xF6, 0x7E, 0x48, 0x34, 0xD1], [0x62, 0xF2, 0x7A, 0x48, 0x34, 0xD1]] : List (List Byte)),
    decode .mode64 bs = .ud := by decide

/-- Rows V11 to V13 and V18 to V21 of 95_test_vectors.md 2.6. -/
theorem test_decode_prefixes_and_refusals :
    decode .mode64 [0x66, 0x62, 0xF2, 0x7E, 0x48, 0x34, 0xD1] = .ud ∧
    decode .mode64 [0xF0, 0x62, 0xF2, 0x7E, 0x48, 0x34, 0x10] = .ud ∧
    decode .mode64 [0x48, 0x62, 0xF2, 0x7E, 0x48, 0x34, 0xD1] = .ud ∧
    decode .mode64 [0x62, 0xF2, 0x7D, 0x48, 0x34, 0xD1] = .refuse .notInGroup ∧
    decode .mode64 [0x62, 0xF1, 0x7E, 0x48, 0x34, 0xD1] = .refuse .notInGroup ∧
    decode .mode64 [0x62, 0xF2, 0x7E, 0x48, 0x35, 0xD1] = .refuse .notInGroup ∧
    decode .mode64 [0x64, 0x64, 0x62, 0xF2, 0x7E, 0x48, 0x34, 0x10] = .refuse .repeatedPrefix := by decide

/-- The encoder gives the bytes of E7, E15 and E20. -/
theorem test_encode :
    encode (.vpmovqw512Reg noPfx 17 0 false 30) = [0x62, 0x22, 0x7E, 0x48, 0x34, 0xF1] ∧
    encode (.vpmovsqw512Mem noPfx (.sib 8 (some ⟨9, 2⟩) (.disp8 0xF8)) 1 10) =
      [0x62, 0x12, 0x7E, 0x49, 0x24, 0x54, 0x88, 0xF8] ∧
    encode (.vpmovusqw128Mem noPfx (.dispOnly 0xFFC01FE8) 2 2) =
      [0x62, 0xF2, 0x7E, 0x0A, 0x14, 0x15, 0xE8, 0x1F, 0xC0, 0xFF] := by decide

/-! ## Execution: register destinations (95_test_vectors.md 2.2, 2.3, 2.4) -/

theorem test_vpmovqw128Reg : nextHas (stepOn bench [0x62, 0xF2, 0x7E, 0x08, 0x34, 0xD1])
    (fun t => t.getZmm 1 == 0x0000CDEF#512 && t.pc == 0x400006#64) = true := by decide

theorem test_vpmovqw256Reg : nextHas (stepOn bench [0x62, 0xF2, 0x7E, 0x28, 0x34, 0xD1])
    (fun t => t.getZmm 1 == 0x8000FFFF0000CDEF#512) = true := by decide

/-- 2.3, k1 = F5h, merging: elements 0 and 2 are written, 1 and 3 kept, the rest zeroed. -/
theorem test_vpmovqw256Reg_merging :
    nextHas (stepOn (withK (bench.setZmm 1 0x1111111111111111111111111111111111#512) 1 0xF5) [0x62, 0xF2, 0x7E, 0x29, 0x34, 0xD1])
      (fun t => t.getZmm 1 == 0x1111FFFF1111CDEF#512) = true := by decide

theorem test_vpmovqw512Reg : nextHas (stepOn bench [0x62, 0xF2, 0x7E, 0x48, 0x34, 0xD1])
    (fun t => t.getZmm 1 == 0xFFFF00017FFF7FFF8000FFFF0000CDEF#512 && t.getZmm 2 == wideSource) = true := by decide

/-- 2.4: the destination is the source. -/
theorem test_vpmovqw512Reg_same_register : nextHas (stepOn bench [0x62, 0xF2, 0x7E, 0x48, 0x34, 0xD2])
    (fun t => t.getZmm 2 == 0xFFFF00017FFF7FFF8000FFFF0000CDEF#512) = true := by decide

theorem test_vpmovsqw128Reg : nextHas (stepOn bench [0x62, 0xF2, 0x7E, 0x08, 0x24, 0xD1])
    (fun t => t.getZmm 1 == 0x7FFF7FFF#512) = true := by decide

theorem test_vpmovsqw256Reg : nextHas (stepOn bench [0x62, 0xF2, 0x7E, 0x28, 0x24, 0xD1])
    (fun t => t.getZmm 1 == 0x8000FFFF7FFF7FFF#512) = true := by decide

theorem test_vpmovsqw512Reg : nextHas (stepOn bench [0x62, 0xF2, 0x7E, 0x48, 0x24, 0xD3])
    (fun t => t.getZmm 3 == 0x7FFF7FFF80007FFF8000FFFF7FFF7FFF#512) = true := by decide

theorem test_vpmovusqw128Reg : nextHas (stepOn bench [0x62, 0xF2, 0x7E, 0x08, 0x14, 0xD1])
    (fun t => t.getZmm 1 == 0xFFFFFFFF#512) = true := by decide

theorem test_vpmovusqw256Reg : nextHas (stepOn bench [0x62, 0xF2, 0x7E, 0x28, 0x14, 0xD1])
    (fun t => t.getZmm 1 == 0xFFFFFFFFFFFFFFFF#512) = true := by decide

/-- P2 of 95_test_vectors.md 3, second step: zeroing with k3 = F5h. -/
theorem test_vpmovusqw256Reg_zeroing :
    nextHas (stepOn (withK (bench.setZmm 5 0xFFFFFFFFFFFE00000000000000012345FFFFFFFFFFFFFFFB0000000000000005#512) 3 0xF5)
      [0x62, 0xF2, 0x7E, 0xAB, 0x14, 0xEF]) (fun t => t.getZmm 7 == 0x0000FFFF00000005#512) = true := by decide

theorem test_vpmovusqw512Reg : nextHas (stepOn bench [0x62, 0xF2, 0x7E, 0x48, 0x14, 0xD4])
    (fun t => t.getZmm 4 == 0xFFFFFFFFFFFF7FFFFFFFFFFFFFFFFFFF#512) = true := by decide

/-! ## Execution: memory destinations (95_test_vectors.md 2.7, 2.8, P3, P4, P5) -/

/-- M2. -/
theorem test_vpmovqw128Mem : nextHas (stepOn bench [0x62, 0xF2, 0x7E, 0x08, 0x34, 0x10])
    (fun t => bytesAt t 0x1000 5 == [some 0xEF, some 0xCD, some 0x00, some 0x00, none]) = true := by decide

/-- P5, second step, in 32-bit mode: the base is EBX, disp8 = 2 times N = 4. -/
theorem test_vpmovqw128Mem_mode32 :
    nextHas (stepOn (withGpr (bench32.setZmm 1 0x0001_0000_FFFF_FFFF_FFFF_FFFF#512) 3 0xFFFFFFFF00002000)
      [0x62, 0xF2, 0x7E, 0x08, 0x34, 0x4B, 0x02])
      (fun t => bytesAt t 0x2008 4 == [some 0xFF, some 0xFF, some 0x00, some 0x00] && t.pc == 0x10007#64) = true := by decide

/-- R98 by hand: truncated words CDEF 0000 FFFF 8000 at FS.base + rax + 1 * 8. -/
theorem test_vpmovqw256Mem_fs : nextHas (stepOn { bench with fs := { bench.fs with base := 0x7000#64 } }
      [0x64, 0x62, 0xF2, 0x7E, 0x28, 0x34, 0x50, 0x01])
    (fun t => bytesAt t 0x8008 8 ==
      [some 0xEF, some 0xCD, some 0x00, some 0x00, some 0xFF, some 0xFF, some 0x00, some 0x80]) = true := by decide

/-- M6: only element 7 is written. -/
theorem test_vpmovqw512Mem_masked : nextHas (stepOn (withK bench 1 0x80) [0x62, 0xF2, 0x7E, 0x49, 0x34, 0x10])
    (fun t => bytesAt t 0x100D 4 == [none, some 0xFF, some 0xFF, none]) = true := by decide

/-- M1. -/
theorem test_vpmovqw512Mem : nextHas (stepOn bench [0x62, 0xF2, 0x7E, 0x48, 0x34, 0x10])
    (fun t => bytesAt t 0x1000 17 == [some 0xEF, some 0xCD, some 0x00, some 0x00, some 0xFF, some 0xFF, some 0x00, some 0x80,
      some 0xFF, some 0x7F, some 0xFF, some 0x7F, some 0x01, some 0x00, some 0xFF, some 0xFF, none]) = true := by decide

/-- R100 by hand: saturated words 7FFF 7FFF, at 67h-truncated EAX. -/
theorem test_vpmovsqw128Mem_addr32 : nextHas (stepOn (withGpr bench 0 0x1234567800001000) [0x67, 0x62, 0xF2, 0x7E, 0x08, 0x24, 0x10])
    (fun t => bytesAt t 0x1000 5 == [some 0xFF, some 0x7F, some 0xFF, some 0x7F, none]) = true := by decide

/-- P3, second step: rax + rcx * 2 + 20h = 1030h, k1 = 0110b. -/
theorem test_vpmovsqw256Mem : nextHas (stepOn (withGpr (withK bench 1 0x06) 1 8) [0x62, 0xF2, 0x7E, 0x29, 0x24, 0x54, 0x48, 0x04])
    (fun t => bytesAt t 0x1030 8 == [none, none, some 0xFF, some 0x7F, some 0xFF, some 0xFF, none, none]) = true := by decide

/-- P4, variant b: k1 = 0Fh keeps the store inside the mapped page. -/
theorem test_vpmovsqw512Mem_suppressed :
    nextHas (stepOn (withGpr (withK paged 1 0x0F) 0 0x2FF8) [0x62, 0xF2, 0x7E, 0x49, 0x24, 0x10])
      (fun t => bytesAt t 0x2FF8 9 ==
        [some 0xFF, some 0x7F, some 0xFF, some 0x7F, some 0xFF, some 0xFF, some 0x00, some 0x80, none]) = true := by decide

/-- P3, third step: RIP-relative, 400018h - 3FE018h = 2000h, k2 = 01b. -/
theorem test_vpmovusqw128Mem_rip :
    nextHas (stepOn { withK bench 2 0x01 with pc := 0x40000E#64 } [0x62, 0xF2, 0x7E, 0x0A, 0x14, 0x15, 0xE8, 0x1F, 0xC0, 0xFF])
      (fun t => bytesAt t 0x2000 3 == [some 0xFF, some 0xFF, none] && t.pc == 0x400018#64) = true := by decide

/-- R102 by hand: saturated words FFFF FFFF FFFF FFFF at rbx + 100h (E16 with zmm2 as the source). -/
theorem test_vpmovusqw256Mem : nextHas (stepOn (withGpr bench 3 0x1000) [0x62, 0xF2, 0x7E, 0x28, 0x14, 0x93, 0x00, 0x01, 0x00, 0x00])
    (fun t => bytesAt t 0x10FF 10 == none :: List.replicate 8 (some 0xFF) ++ [none]) = true := by decide

/-- M7: an unaligned store. -/
theorem test_vpmovusqw512Mem : nextHas (stepOn (withGpr bench 0 0x1001) [0x62, 0xF2, 0x7E, 0x48, 0x14, 0x10])
    (fun t => bytesAt t 0x1001 16 == List.replicate 9 (some 0xFF) ++ [some 0x7F] ++ List.replicate 6 (some 0xFF)) = true := by
  decide

/-! ## Faults and refusals (95_test_vectors.md 2.6, 2.8) -/

theorem drawFrom_one (d x : Nat) : drawFrom d [x] = some x := by simp [drawFrom, Nat.mod_one]

/-- The last of four bytes, at 3000h, is the first one that is not mapped. -/
def atPageEnd : State := withCode (withGpr paged 0 0x2FFD) [0x62, 0xF2, 0x7E, 0x08, 0x34, 0x10]

/-- F1 with one faulting byte: the page fault reports its address, and memory is as before. -/
theorem test_F1_page_fault : step atPageEnd = .fault (.exception (.pf (atPageEnd.pageFaultCode 0x3000) 0x3000)) := by
  have hf : atPageEnd.fetch = .run (.vpmovqw128Mem noPfx (.base 0 .none) 0 2) := by decide
  have he : atPageEnd.checkEnabled .v128 = none := by decide
  have hm : atPageEnd.memoryFault .v128 noPfx (.base 0 .none) 0 = some (.pf (atPageEnd.pageFaultCode 0x3000) 0x3000) := by
    unfold State.memoryFault
    rw [if_neg (by decide), show (atPageEnd.enabledBytes .v128 0).filter
      (fun i => !atPageEnd.writable (atPageEnd.operandByte .v128 noPfx (.base 0 .none) i)) = [3] by decide, drawFrom_one]
    rfl
  unfold step
  rw [hf]
  show execMemory .truncate .v128 noPfx (.base 0 .none) 0 2 atPageEnd = _
  unfold execMemory State.storeStop
  rw [he, hm]
  rfl

/-- F3: element 4 alone is enabled; bytes 3000h and 3001h are the candidates. -/
theorem test_F3_candidates :
    ((withGpr (withK paged 1 0x10) 0 0x2FF8).enabledBytes .v512 1).filter (fun i => !(withGpr (withK paged 1 0x10) 0 0x2FF8).writable
      ((withGpr (withK paged 1 0x10) 0 0x2FF8).operandByte .v512 noPfx (.base 0 .none) i)) = [8, 9] := by decide

/-- F4 and F5: the same address through DS and through SS. -/
theorem test_F4_F5 :
    raises (stepOn (withGpr paged 0 0x0000800000000000) [0x62, 0xF2, 0x7E, 0x48, 0x34, 0x10]) .gp0 = true ∧
    raises (stepOn (withGpr paged 4 0x0000800000000000) [0x62, 0xF2, 0x7E, 0x48, 0x34, 0x14, 0x24]) .ss0 = true := by decide

/-- F6: both kinds of violation; the canonical one is reported. -/
theorem test_F6 : raises (stepOn (withGpr paged 0 0x00007FFFFFFFFFF8) [0x62, 0xF2, 0x7E, 0x48, 0x34, 0x10]) .gp0 = true := by
  decide

/-- F7: a store over the last byte of the program text, and over the bytes after it. -/
theorem test_F7 :
    refuses (stepOn (withGpr bench 0 0x400005) [0x62, 0xF2, 0x7E, 0x48, 0x34, 0x10]) .storeIntoProgram = true ∧
    nextHas (stepOn (withGpr bench 0 0x400006) [0x62, 0xF2, 0x7E, 0x48, 0x34, 0x10]) (fun _ => true) = true := by decide

/-- V14 to V17. -/
theorem test_V14_V15_V16_V17 :
    raises (stepOn { bench with platform := { defaultPlatform with hasAVX512F := false } } [0x62, 0xF2, 0x7E, 0x48, 0x34, 0xD1])
      .ud = true ∧
    raises (stepOn { bench with platform := { defaultPlatform with hasAVX512VL := false } } [0x62, 0xF2, 0x7E, 0x28, 0x34, 0xD1])
      .ud = true ∧
    nextHas (stepOn { bench with platform := { defaultPlatform with hasAVX512VL := false } }
      [0x62, 0xF2, 0x7E, 0x48, 0x34, 0xD1]) (fun _ => true) = true ∧
    raises (stepOn { bench with cr0 := bench.cr0 ||| 8 } [0x62, 0xF2, 0x7E, 0x48, 0x34, 0xD1]) .nm = true := by decide

/-- 60_exceptions.md R130, 70_reset_and_hazards.md R135 and R134, 20_memory.md R42, 60_exceptions.md R122 step 1. -/
theorem test_stops_of_the_fetch :
    refuses (step { bench with rflags := bench.rflags ||| 0x100 }) .debugArmed = true ∧
    refuses (step { bench with program := some ⟨0x3FFFFF, 0x400000⟩ }) .runEnded = true ∧
    refuses (stepOn (withAc bench) [0x62, 0xF2, 0x7E, 0x48, 0x34, 0xD1]) .alignmentCheckingOn = true ∧
    refuses (step bench) .outsideProgram = true ∧
    refuses (step (({ paged with pc := 0x1000#64 } : State).declareText 6)) (.fetchNotExecutable 0x1000) = true ∧
    faultIs (step (bench.declareText 6)) (fun f => f == .unwrittenByte 0x400000) = true := by decide

/-- 30_encoding.md R84 steps 1 to 4: twelve prefixes 66h before a form are #UD, before other bytes the bytes are refused. -/
theorem test_many_prefixes :
    raises (stepOn bench (List.replicate 12 0x66 ++ [0x62, 0xF2, 0x7E, 0x48, 0x34, 0xD1])) .ud = true ∧
    refuses (stepOn bench (List.replicate 16 0x66 ++ [0x90])) .notInGroup = true := by decide

/-- 60_exceptions.md R122 steps 1 and 3: V1 and V7 without their last byte, and with a displacement byte missing, stop in the
fetch; whole they are #UD. -/
theorem test_ud_needs_its_bytes :
    refuses (stepOn bench [0x62, 0xF2, 0x76, 0x48, 0x34]) .outsideProgram = true ∧
    refuses (stepOn bench [0x62, 0xF2, 0x76, 0x48, 0x34, 0x94, 0x24, 0, 0, 0]) .outsideProgram = true ∧
    raises (stepOn bench [0x62, 0xF2, 0x76, 0x48, 0x34, 0x94, 0x24, 0, 0, 0, 0]) .ud = true ∧
    faultIs (step ((bench.placeCode [0x62, 0xF2, 0x7E, 0xC9, 0x34]).declareText 6)) (fun f => f == .unwrittenByte 0x400005) = true := by
  decide

/-- 70_reset_and_hazards.md R134: the launch clears AC_ENABLED. -/
theorem test_launch_premises :
    (withAc bench).launched = false ∧ (withAc bench).launch.launched = true ∧ bench.launch = bench ∧
    State.reset.launch.launched = true := by decide

theorem test_memory_write_keeps_order :
    Memory.write (Memory.write (Memory.write [] 7 1) 5 2) 7 3 = [(5, 2), (7, 3)] ∧
    Memory.wf [(5, 2), (7, 3)] ∧ ¬ Memory.wf [(7, 3), (5, 2)] := by decide

/-! ## Witnesses: a concrete state and operands that meet the hypotheses of each statement, at boundary values -/

/-- E3 as the program, in 64-bit and in 32-bit mode. -/
def atE3 : State := withCode bench [0x62, 0xF2, 0x7E, 0x48, 0x34, 0xD1]
def atE3mode32 : State := withCode bench32 [0x62, 0xF2, 0x7E, 0x48, 0x34, 0xD1]

/-- E10 as the program. -/
def atE10 : State := withCode bench [0x62, 0xF2, 0x7E, 0x48, 0x34, 0x10]

theorem witness_StepRunsDecodedInstruction :
    (atE3.Fetches .mode64 ∧ decode .mode64 atE3.fetchWindow.1 = .instr (.vpmovqw512Reg noPfx 1 0 false 2) []) ∧
    (atE3mode32.Fetches .mode32 ∧ decode .mode32 atE3mode32.fetchWindow.1 = .instr (.vpmovqw512Reg noPfx 1 0 false 2) []) :=
  ⟨⟨⟨by decide, by decide, by decide, by decide⟩, by decide⟩, ⟨by decide, by decide, by decide, by decide⟩, by decide⟩

/-- The text ends with the instruction. -/
theorem witness_StepRunsEncodedInstruction :
    atE3.Fetches .mode64 ∧ WellFormed .mode64 (.vpmovqw512Reg noPfx 1 0 false 2) = true ∧
    Instr.length (.vpmovqw512Reg noPfx 1 0 false 2) = atE3.textLeft ∧
    ∀ k, (h : k < (encode (.vpmovqw512Reg noPfx 1 0 false 2)).length) →
      atE3.fetchByte k = .ok (encode (.vpmovqw512Reg noPfx 1 0 false 2))[k] := by
  refine ⟨⟨by decide, by decide, by decide, by decide⟩, by decide, by decide, fun k h => ?_⟩
  have hk : k < 6 := h
  interval_cases k <;> rfl

theorem witness_FirstInstructionAfterLaunchRuns :
    decodeTableWord 48 0xD134487EF262 = some (.vpmovqw512Reg noPfx 1 0 false 2) ∧
    decodeTableWord 48 0x3F34487EF262 = some (.vpmovqw512Mem noPfx (.base 7 .none) 0 7) := by decide

/-- E3 and E10 as opcode-table words after reset: the step advances pc to END. -/
theorem test_withFetchWord :
    nextHas (step (State.reset.withFetchWord 48 0xD134487EF262)) (fun t => t.pc == 0xFFF6 && t.atEnd) = true ∧
    nextHas (step (State.reset.withFetchWord 48 0x1034487EF262)) (fun t => bytesAt t 0 1 == [some 0] && t.atEnd) = true := by
  decide

/-- The last clause: no program text, and the byte at `pc` is the first one after the text. -/
theorem witness_StepStopsBeforeFetch :
    ({ bench with program := some ⟨0, 0x400000⟩ } : State).atEnd = true ∧
    (bench.atEnd = false ∧ ({ bench with dr7 := 0x401 } : State).debugArmed = true) ∧
    (bench.debugArmed = false ∧ (withAc bench).atEnd = false ∧ (withAc bench).debugArmed = false ∧
      (withAc bench).alignmentChecking = true) ∧
    (bench.alignmentChecking = false ∧ ({ bench with csL := false } : State).mode = .code16) ∧
    (bench.mode ≠ .code16 ∧ bench.inProgram (bench.codeAddress 0) = false ∧
      ({ bench with program := some ⟨0x3FFFF0, 0x400000⟩ } : State).inProgram 0x400000 = false ∧
      ({ bench with program := some ⟨0x3FFFF0, 0x400000⟩ } : State).inProgram 0x3FFFFF = true) := by decide

/-- A state whose program begins at `pc` and of which only the first bytes have a value. -/
def partly (s : State) (bs : List Byte) (n : Nat) : State := (s.placeCode bs).declareText n

theorem partly_needs (s : State) (mode : DecodeMode) (bs : List Byte) (n : Nat) (hf : (partly s bs n).Fetches mode)
    (hl : bs.length ≤ (partly s bs n).textLeft) (hb : ∀ j : Fin bs.length, (partly s bs n).fetchByte j = .ok bs[j])
    (hd : decode mode bs = .truncated ∨ decode mode bs = .ud ∧ formComplete mode bs = false) :
    (partly s bs n).NeedsByteAfter mode bs := ⟨hf, hl, fun j hj => hb ⟨j, hj⟩, hd⟩

/-- 60_exceptions.md R122 step 1: a fetch that 10_state.md R25 faults is refused. -/
theorem test_fetch_fault_is_refused :
    refuses (stepOn { bench with pc := 0x7FFFFFFFFFFB } [0x62, 0xF2, 0x7E, 0x48, 0x34, 0xD1])
      (.fetchFault .gp0 0x800000000000) = true ∧
    refuses (stepOn { bench32 with cs := { flat with limit := 0x10004 } } [0x62, 0xF2, 0x7E, 0x48, 0x34, 0xD1])
      (.fetchFault .gp0 0x10005) = true := by decide

/-- 64-bit mode: the first byte, and the second one after 62h at the last canonical address; 32-bit mode: the byte after the limit. -/
theorem witness_NonCanonicalFetchIsRefused :
    ((partly { bench with pc := 0x800000000000 } [] 6).NeedsByteAfter .mode64 [] ∧
      0 < (partly { bench with pc := 0x800000000000 } [] 6).textLeft ∧ bench.canonical 0x800000000000 = false) ∧
    ((partly { bench with pc := 0x7FFFFFFFFFFF } [0x62] 6).NeedsByteAfter .mode64 [0x62] ∧
      1 < (partly { bench with pc := 0x7FFFFFFFFFFF } [0x62] 6).textLeft ∧
      bench.canonical (0x7FFFFFFFFFFF + BitVec.ofNat 64 1) = false) ∧
    ((partly { bench32 with cs := { flat with limit := 0x10000 } } [0x62] 6).NeedsByteAfter .mode32 [0x62] ∧
      1 < (partly { bench32 with cs := { flat with limit := 0x10000 } } [0x62] 6).textLeft ∧
      (0x10000#32).toNat < (bench32.pc.toNat + 1) % 2 ^ 32) :=
  ⟨⟨partly_needs _ _ _ _ ⟨by decide, by decide, by decide, by decide⟩ (by decide) (by decide) (.inl (by decide)), by decide, by decide⟩,
    ⟨partly_needs _ _ _ _ ⟨by decide, by decide, by decide, by decide⟩ (by decide) (by decide) (.inl (by decide)), by decide, by decide⟩,
    partly_needs _ _ _ _ ⟨by decide, by decide, by decide, by decide⟩ (by decide) (by decide) (.inl (by decide)), by decide, by decide⟩

/-- A byte that is not executable, one not mapped, one with no value, one after the text, and a #UD form without its last byte. -/
theorem witness_UnfetchableByteStops :
    ((partly { paged with pc := 0x1000 } [] 6).NeedsByteAfter .mode64 [] ∧ paged.executable 0x1000 = false ∧
      paged.mapped 0x1000 = true) ∧
    ((partly { paged with pc := 0x400FFF } [0x62] 6).NeedsByteAfter .mode64 [0x62] ∧ paged.mapped 0x401000 = false ∧
      (partly { paged with pc := 0x400FFF } [0x62] 6).fetchViolation 1 = false) ∧
    ((partly bench [0x62] 6).NeedsByteAfter .mode64 [0x62] ∧ 1 < (partly bench [0x62] 6).textLeft ∧
      bench.executable 0x400001 = true ∧ (partly bench [0x62] 6).readByte 0x400001 = none) ∧
    ((partly bench [0x62, 0xF2, 0x76, 0x48, 0x34] 5).NeedsByteAfter .mode64 [0x62, 0xF2, 0x76, 0x48, 0x34] ∧
      5 = (partly bench [0x62, 0xF2, 0x76, 0x48, 0x34] 5).textLeft) :=
  ⟨⟨partly_needs _ _ _ _ ⟨by decide, by decide, by decide, by decide⟩ (by decide) (by decide) (.inl (by decide)), by decide, by decide⟩,
    ⟨partly_needs _ _ _ _ ⟨by decide, by decide, by decide, by decide⟩ (by decide) (by decide) (.inl (by decide)), by decide, by decide⟩,
    ⟨partly_needs _ _ _ _ ⟨by decide, by decide, by decide, by decide⟩ (by decide) (by decide) (.inl (by decide)), by decide, by decide,
      by decide⟩,
    partly_needs _ _ _ _ ⟨by decide, by decide, by decide, by decide⟩ (by decide) (by decide) (.inr (by decide)), by decide⟩

/-- A store that completes beside its own text, and the first and the last byte of that text. -/
theorem witness_ProgramTextIsImmutable :
    (∃ t, step (withCode (withGpr bench 0 0x400006) [0x62, 0xF2, 0x7E, 0x48, 0x34, 0x10]) = .next t) ∧
    atE10.inProgram 0x400000 = true ∧ atE10.inProgram 0x400005 = true ∧ atE10.inProgram 0x400006 = false ∧
    5 < atE10.fetchWindow.1.length :=
  ⟨nextHas_exists _ (fun _ => true) test_F7.2, by decide, by decide, by decide, by decide⟩

theorem witness_StepKeepsInvariant :
    (atE10.Inv ∧ ∃ t, step atE10 = .next t) ∧ (atE3mode32.Inv ∧ ∃ t, step atE3mode32 = .next t) :=
  ⟨⟨⟨by decide, by decide⟩, nextHas_exists _ (fun _ => true) (by decide)⟩,
    ⟨by decide, by decide⟩, nextHas_exists _ (fun _ => true) (by decide)⟩

theorem witness_StepChangesOnlyItsDestination :
    (∃ t, step atE3 = .next t) ∧ (∃ t, step atE10 = .next t) ∧
    step { atE3 with cr4 := 0 } = .fault (.exception .ud) :=
  ⟨nextHas_exists _ (fun _ => true) (by decide), nextHas_exists _ (fun _ => true) (by decide), raises_eq _ _ (by decide)⟩

/-- The last address of 64-bit and of 32-bit mode, where the instruction pointer wraps. -/
theorem witness_StepAdvancesInstructionPointer :
    nextHas (stepOn { bench with pc := 0xFFFFFFFFFFFFFFFA } [0x62, 0xF2, 0x7E, 0x48, 0x34, 0xD1]) (fun t => t.pc == 0) = true ∧
    nextHas (stepOn { bench32 with pc := 0xFFFFFFFA } [0x62, 0xF2, 0x7E, 0x48, 0x34, 0xD1]) (fun t => t.pc == 0) = true := by
  decide

theorem witness_StepRaisesOnlyListedExceptions :
    raises (step { atE3 with cr4 := 0 }) .ud = true ∧ raises (step { atE3 with cr0 := atE3.cr0 ||| 8 }) .nm = true ∧
    raises (stepOn (withGpr bench 4 0x800000000000) [0x62, 0xF2, 0x7E, 0x48, 0x34, 0x14, 0x24]) .ss0 = true ∧
    raises (step (withGpr atE10 0 0x800000000000)) .gp0 = true ∧
    ∃ code a, step atPageEnd = .fault (.exception (.pf code a)) :=
  ⟨by decide, by decide, by decide, by decide, _, _, test_F1_page_fault⟩

theorem witness_DecodeEncodeRoundTrip :
    WellFormed .mode64 (.vpmovusqw512Reg ⟨some .gs, true⟩ 31 7 true 31) = true ∧
    WellFormed .mode64 (.vpmovsqw128Mem ⟨some .es, true⟩ (.sib 15 (some ⟨15, 3⟩) (.disp32 0xFFFFFFFF)) 7 31) = true ∧
    WellFormed .mode32 (.vpmovqw256Mem ⟨some .cs, false⟩ (.sibNoBase (some ⟨7, 3⟩) 0x80000000) 7 7) = true := by decide

theorem witness_DecodedIsWellFormed :
    decode .mode64 [0x62, 0xF2, 0x7E, 0x48, 0x34, 0xD1, 0x90] = .instr (.vpmovqw512Reg noPfx 1 0 false 2) [0x90] := by decide

theorem prefixBytes_ok : PrefixBytes .mode64 [] ∧ PrefixBytes .mode32 [0x65, 0x67] ∧ PrefixBytes .mode64 [0x67, 0x65, 0x48] := by
  unfold PrefixBytes IsPrefixByte
  decide

theorem modrm_present : OperandsPresent [0xD1#8] := ⟨0xD1, [], rfl, by decide⟩

/-- V1 and V2, and a machine that fetches V1. -/
theorem witness_ReservedVvvvRaisesUd :
    InGroup .mode64 0xF2 0x76 ∧ (0x76#8).extractLsb' 3 4 ≠ 0b1111#4 ∧ InGroup .mode32 0xF2 0x06 ∧
    (0x06#8).extractLsb' 3 4 ≠ 0b1111#4 ∧
    (withCode bench [0x62, 0xF2, 0x76, 0x48, 0x34, 0xD1]).Fetches .mode64 ∧
    (withCode bench [0x62, 0xF2, 0x76, 0x48, 0x34, 0xD1]).fetchWindow.1 = [] ++ evexBytes 0xF2 0x76 0x48 .truncate [0xD1] ∧
    OperandsPresent [0xD1#8] :=
  ⟨⟨by decide, by decide, by decide⟩, by decide, ⟨by decide, by decide, by decide⟩, by decide,
    ⟨by decide, by decide, by decide, by decide⟩, by decide, modrm_present⟩

/-- One witness for each row of 30_encoding.md R71. -/
theorem witness_ReservedCombinationsRaiseUd :
    InGroup .mode64 0xF2 0x7E ∧ (0x40#8).getLsbD 3 = false ∧ (0x58#8).getLsbD 4 = true ∧ (0xFE#8).getLsbD 7 = true ∧
    (0x68#8).extractLsb' 5 2 = 0b11#2 ∧ ((0xC8#8).getLsbD 7 = true ∧ (0xC8#8).extractLsb' 0 3 = 0#3) ∧
    ((0xC9#8).getLsbD 7 = true ∧ (0x10#8).extractLsb' 6 2 ≠ 0b11#2) ∧ (0xF6#8).extractLsb' 2 2 ≠ 0b00#2 ∧
    (0x7A#8).getLsbD 2 = false ∧ InGroup .mode64 0xF6 0x7A ∧
    (Instr.vl (.vpmovqw256Reg noPfx 1 0 false 2) ≠ .v512 ∧
      ({ bench with platform := { defaultPlatform with hasAVX512VL := false } } : State).platform.hasAVX512VL = false) ∧
    ({ bench with platform := { defaultPlatform with hasAVX512F := false } } : State).platform.hasAVX512F = false :=
  ⟨⟨by decide, by decide, by decide⟩, by decide, by decide, by decide, by decide, by decide, by decide, by decide, by decide,
    ⟨by decide, by decide, by decide⟩, by decide, by decide⟩

theorem witness_ForbiddenPrefixRaisesUd :
    PrefixBytes .mode64 [0x67, 0x65, 0x48] ∧ InGroup .mode64 0xF2 0x7E ∧ InGroup .mode32 0xF2 0x7E ∧
    (∃ b ∈ [0x66#8], b = 0x66#8 ∨ b = 0xF2#8 ∨ b = 0xF3#8 ∨ b = 0xF0#8) ∧
    (∃ b ∈ [0xF0#8], b = 0x66#8 ∨ b = 0xF2#8 ∨ b = 0xF3#8 ∨ b = 0xF0#8) ∧
    (∃ b ∈ [0x67#8, 0x65#8, 0x48#8], b.extractLsb' 4 4 = 4#4) :=
  ⟨prefixBytes_ok.2.2, ⟨by decide, by decide, by decide⟩, ⟨by decide, by decide, by decide⟩, by decide, by decide, by decide⟩

theorem witness_OtherBytesAreRefused :
    (¬ IsPrefixByte .mode64 0x63 ∧ 0x63#8 ≠ 0x62#8 ∧ ¬ IsPrefixByte .mode32 0x40) ∧
    (0xF1#8).extractLsb' 0 2 ≠ 0b10#2 ∧ (0x7D#8).extractLsb' 0 2 ≠ 0b10#2 ∧ 0x35#8 ∉ [0x14#8, 0x24#8, 0x34#8] ∧
    (0xF1#8).extractLsb' 6 2 = 0b11#2 := by
  unfold IsPrefixByte
  decide

theorem witness_RepeatedPrefixIsRefused :
    2 ≤ [0x64#8, 0x64#8].countP isOverride ∧ 2 ≤ [0x67#8, 0x26#8, 0x67#8].count 0x67#8 ∧
    IsPrefixByte .mode32 0x64 ∧ IsPrefixByte .mode32 0x67 ∧ IsPrefixByte .mode64 0x26 := by
  unfold IsPrefixByte
  decide

/-- Stored B of 0, stored R' of 0 with a SIB byte and disp32 at their full length, and 67h with a memory destination. -/
theorem witness_Mode32Restrictions :
    PrefixBytes .mode32 [0x65, 0x67] ∧ (0xB2#8).extractLsb' 6 2 ≠ 0b11#2 ∧ InGroup .mode32 0xD2 0x7E ∧
    (0xD2#8).getLsbD 5 = false ∧ (0xE2#8).getLsbD 4 = false ∧
    decode .mode32 [0x62, 0xF2, 0x7E, 0x48, 0x34, 0x10] = .instr (.memForm .truncate .v512 noPfx (.base 0 .none) 0 2) [] ∧
    (NoEncodingUd .mode32 [0x65, 0x67] 0xD2 0x7E 0xC9 0xD1 ∧ operandBytesAfter 0xD1 [] = 0) ∧
    (InGroup .mode32 0xE2 0x7E ∧ NoEncodingUd .mode32 [0x65, 0x67] 0xE2 0x7E 0x48 0x14 ∧
      operandBytesAfter 0x14 [0x25, 1, 2, 3, 4] = 5) ∧
    ((0xF2#8).getLsbD 5 = true ∧ (0xF2#8).getLsbD 4 = true ∧ 0x67#8 ∈ [0x65#8, 0x67#8] ∧ (0x10#8).extractLsb' 6 2 ≠ 0b11#2 ∧
      NoEncodingUd .mode32 [0x65, 0x67] 0xF2 0x7E 0x48 0x10) := by
  unfold InGroup NoEncodingUd
  exact ⟨prefixBytes_ok.2.1, by decide, by decide, by decide, by decide, by decide, by decide, ⟨by decide, by decide, by decide⟩,
    by decide, by decide, by decide, by decide, by decide⟩

/-- One witness for each of rows 1 to 7 of 60_exceptions.md R114. -/
theorem witness_DisabledStateRaisesUd :
    State.reset.cr0.getLsbD 0 = false ∧ ({ bench with rflags := 0x20002 } : State).rflags.getLsbD 17 = true ∧
    State.reset.cr4.getLsbD 18 = false ∧ ({ bench with xcr0 := 0x67 } : State).xcr0.extractLsb' 5 3 ≠ 0b111#3 ∧
    ({ bench with xcr0 := 0xE3 } : State).xcr0.extractLsb' 1 2 ≠ 0b11#2 ∧
    ({ bench with platform := { defaultPlatform with hasAVX512F := false } } : State).platform.hasAVX512F = false ∧
    (Instr.vl (.vpmovqw128Reg noPfx 1 0 false 2) ≠ .v512 ∧
      ({ bench with platform := { defaultPlatform with hasAVX512VL := false } } : State).platform.hasAVX512VL = false) := by
  decide

theorem witness_TaskSwitchedRaisesNm :
    ({ bench with cr0 := bench.cr0 ||| 8 } : State).cr0.getLsbD 3 = true ∧
    ({ bench with cr0 := bench.cr0 ||| 8 } : State).avx512Enabled = true ∧
    ({ bench with cr0 := bench.cr0 ||| 8 } : State).hasVL (Instr.vl (.vpmovqw128Reg noPfx 1 0 false 2)) = true := by decide

/-- The ends of the ranges in which a saturating conversion keeps the low word. -/
theorem witness_SaturatingConversions :
    (-32768 ≤ (0xFFFFFFFFFFFF8000#64).toInt ∧ (0xFFFFFFFFFFFF8000#64).toInt ≤ 32767) ∧ (0x7FFF#64).toInt ≤ 32767 ∧
    (0xFFFF#64).toNat ≤ 65535 := by decide

/-- The ends of the three ranges of 40_down_convert_qword_to_word.md R109. -/
theorem witness_RelationsOfTheConversions :
    (0x7FFF#64).toNat ≤ 32767 ∧ (32768 ≤ (0x8000#64).toNat ∧ (0xFFFF#64).toNat ≤ 65535) ∧
    (-32768 ≤ (0xFFFFFFFFFFFF8000#64).toInt ∧ (0xFFFFFFFFFFFFFFFF#64).toInt ≤ -1) := by decide

/-- The register forms: ready in both modes, disabled, and task switched; an enabled and a masked-off element. -/
theorem witness_RegisterForms :
    bench.Ready .v128 ∧ bench32.Ready .v512 ∧ State.reset.avx512Enabled = false ∧
    ({ bench with cr0 := bench.cr0 ||| 8 } : State).ts = true ∧
    (withK bench 7 0x80).ElementEnabled 7 7 ∧ ¬ (withK bench 7 0x80).ElementEnabled 7 6 :=
  ⟨⟨by decide, by decide, by decide⟩, ⟨by decide, by decide, by decide⟩, by decide, by decide, .inr (by decide),
    fun h => h.elim (by decide) (by decide)⟩

/-- A store that is admitted, aligned under alignment checking, in 64-bit mode and at the end of the segment in 32-bit mode. -/
theorem witness_MemoryForms_admitted :
    (bench.Ready .v128 ∧ bench.StoreAdmitted .v128 noPfx (.base 0 .none) 0 ∧ bench.AlignmentAccepted .v128 noPfx (.base 0 .none)) ∧
    ((withAc bench).alignmentChecking = true ∧ (withAc bench).AlignmentAccepted .v512 noPfx (.base 0 .none)) ∧
    (withGpr bench32 0 0xFFFFFFFC).StoreAdmitted .v128 noPfx (.base 0 .none) 0 := by
  refine ⟨⟨⟨by decide, by decide, by decide⟩, fun j hj _ => ?_, .inl (by decide)⟩, ⟨by decide, .inr (by decide)⟩, fun j hj _ => ?_⟩
  · have h : j < 2 := hj
    interval_cases j <;> exact ⟨⟨by decide, by decide, by decide, by decide⟩, by decide, by decide, by decide, by decide⟩
  · have h : j < 2 := hj
    interval_cases j <;> exact ⟨⟨by decide, by decide, by decide, by decide⟩, by decide, by decide, by decide, by decide⟩

/-- A store that is not admitted: its last byte is the first one that is not mapped. -/
theorem witness_MemoryForms_notAdmitted : ¬ (withGpr paged 0 0x2FFD).StoreAdmitted .v128 noPfx (.base 0 .none) 0 := fun h =>
  absurd (h 1 (by decide) (.inl rfl)).2.2.1 (by decide)

theorem witness_IntrinsicsReturnTheirWords : (7#3 ≠ 0#3) ∧ bench.Ready .v512 := ⟨by decide, by decide, by decide, by decide⟩

theorem witness_HighMaskBitsHaveNoEffect :
    (∀ j, j < 2 → (({ bench with k := (withK bench 1 0xFC).k } : State).getK 1).getLsbD j = (bench.getK 1).getLsbD j) ∧
    ∃ t, exec (.vpmovqw128Reg noPfx 1 1 false 2) bench = .next t := by
  refine ⟨fun j hj => ?_, nextHas_exists _ (fun _ => true) (by decide)⟩
  interval_cases j <;> decide

theorem witness_AllZeroMask :
    (1#3 ≠ 0#3) ∧ (∀ j, j < VL.kl .v512 → ((withK bench 1 0x100).getK 1).getLsbD j = false) ∧ (withK bench 1 0x100).Ready .v512 := by
  refine ⟨by decide, fun j hj => ?_, by decide, by decide, by decide⟩
  have h : j < 8 := hj
  interval_cases j <;> decide

theorem witness_AllOnesMaskIsNoMask : ∀ j, j < VL.kl .v512 → ((withK bench 1 0xFF).getK 1).getLsbD j = true := by
  intro j hj
  have h : j < 8 := hj
  interval_cases j <;> decide

theorem witness_HighSourceBitsHaveNoEffect :
    (∀ b, b < 64 * VL.kl .v128 → (0x1FFFFFFFFFFFFFFFFFFFFFFFFFFFFFFFF#512).getLsbD b = ((bench.setZmm 2 (BitVec.allOnes 512)).getZmm 2).getLsbD b) ∧
    (∃ t, exec (.regForm .truncate .v128 noPfx 1 0 false 2) bench = .next t) ∧
    ∃ t, exec (.memForm .truncate .v128 noPfx (.base 0 .none) 0 2) bench = .next t := by
  refine ⟨?_, nextHas_exists _ (fun _ => true) (by decide), nextHas_exists _ (fun _ => true) (by decide)⟩
  intro b hb
  have h : b < 128 := hb
  interval_cases b <;> decide

theorem witness_MemWriteAndMemRead : (2 ^ 32 ≤ 2 ^ 32) ∧ ∀ i, i < 1 → (8 : Nat) ≠ (byteAddr false 7 i).toNat := by
  refine ⟨by decide, fun i hi => ?_⟩
  interval_cases i; decide

theorem witness_EffectiveAddresses :
    (bench.mode = .mode64 ∧ noPfx.addrSize = false) ∧ bench32.mode ≠ .mode64 ∧ Prefixes.addrSize ⟨none, true⟩ = true ∧
    SegReg.ss ≠ .fs ∧ SegReg.ss ≠ .gs ∧ Prefixes.seg ⟨some .es, false⟩ = some .es := by decide

theorem witness_NonCanonicalStoreFaults :
    (withGpr bench 0 0x7FFFFFFFFFFF).mode = .mode64 ∧ (withGpr bench 0 0x7FFFFFFFFFFF).Ready .v128 ∧
    (withGpr bench 0 0x7FFFFFFFFFFF).ElementEnabled 0 0 ∧
    (withGpr bench 0 0x7FFFFFFFFFFF).canonical ((withGpr bench 0 0x7FFFFFFFFFFF).operandByte .v128 noPfx (.base 0 .none) (2 * 0 + 1)) = false ∧
    bench.accessSegment noPfx (.base 0 .none) ≠ .ss ∧ bench.accessSegment noPfx (.sib 4 none .none) = .ss ∧
    (withGpr bench 4 0x800000000000).canonical ((withGpr bench 4 0x800000000000).operandByte .v128 noPfx (.sib 4 none .none) (2 * 0 + 0)) = false :=
  ⟨by decide, ⟨by decide, by decide, by decide⟩, .inl rfl, by decide, by decide, by decide, by decide⟩

/-- The byte after the limit, a segment that is not writable, and the last null selector; through DS and through SS. -/
theorem witness_SegmentCheck32 :
    bench32.mode = .mode32 ∧ bench32.Ready .v128 ∧ bench32.ElementEnabled 0 0 ∧
    (({ bench32 with ds := { flat with limit := 0x1000 } } : State).segment .ds).limit.toNat <
      ((bench32.effectiveAddress .v128 noPfx (.base 0 .none)).toNat + (2 * 0 + 1)) % 2 ^ 32 ∧
    (({ bench32 with ds := { flat with writable := false } } : State).segment .ds).writable = false ∧
    (({ bench32 with ds := { flat with selector := 3 } } : State).segment .ds).selector.toNat < 4 ∧
    bench32.accessSegment noPfx (.base 0 .none) = .ds ∧ bench32.accessSegment noPfx (.base 5 (.disp8 0)) = .ss ∧
    (({ bench32 with ss := { flat with selector := 0 } } : State).segment .ss).selector.toNat < 4 :=
  ⟨by decide, ⟨by decide, by decide, by decide⟩, .inl rfl, by decide, by decide, by decide, by decide, by decide, by decide⟩

theorem witness_PageFaultOfAStore :
    (withGpr paged 0 0x2FFD).Ready .v128 ∧ (∀ i, i < VL.kl .v128 → (withGpr paged 0 0x2FFD).ElementEnabled 0 i →
      (withGpr paged 0 0x2FFD).segmentViolation .v128 noPfx (.base 0 .none) (2 * i) = false ∧
      (withGpr paged 0 0x2FFD).segmentViolation .v128 noPfx (.base 0 .none) (2 * i + 1) = false) ∧
    (withGpr paged 0 0x2FFD).writable ((withGpr paged 0 0x2FFD).operandByte .v128 noPfx (.base 0 .none) (2 * 1 + 1)) = false := by
  refine ⟨⟨by decide, by decide, by decide⟩, fun i hi _ => ?_, by decide⟩
  have h : i < 2 := hi
  interval_cases i <;> decide

theorem witness_AlignmentCheckOfAStore :
    VL.v256 ≠ .v512 ∧ (withAc (withGpr bench 0 0x1007)).Ready .v256 ∧ (withAc (withGpr bench 0 0x1007)).alignmentChecking = true ∧
    ((withAc (withGpr bench 0 0x1007)).linearAddress .v256 noPfx (.base 0 .none)).toNat % VL.operandBytes .v256 ≠ 0 ∧
    (∀ j, j < VL.kl .v256 → (withAc (withGpr bench 0 0x1007)).ElementEnabled 0 j) ∧
    (withAc (withGpr bench 0 0x1007)).StoreAdmitted .v256 noPfx (.base 0 .none) 0 := by
  refine ⟨by decide, ⟨by decide, by decide, by decide⟩, by decide, by decide, fun _ _ => .inl rfl, fun j hj _ => ?_⟩
  have h : j < 4 := hj
  interval_cases j <;> exact ⟨⟨by decide, by decide, by decide, by decide⟩, by decide, by decide, by decide, by decide⟩

/-- The last byte of the store is the first byte of the program text. -/
theorem witness_ProgramStoresAreRefused :
    (∀ i, i < VL.kl .v128 → ∀ k, k < 2 →
      (withGpr bench 0 0x3FFFFD).segmentViolation .v128 noPfx (.base 0 .none) (2 * i + k) = false ∧
      (withGpr bench 0 0x3FFFFD).writable ((withGpr bench 0 0x3FFFFD).operandByte .v128 noPfx (.base 0 .none) (2 * i + k)) = true) ∧
    (bench.Ready .v128 ∧ bench.AlignmentAccepted .v128 noPfx (.base 0 .none)) ∧
    ({ withGpr bench 0 0x3FFFFD with program := some ⟨0x400000, 0x400012⟩ } : State).inProgram
      ((withGpr bench 0 0x3FFFFD).operandByte .v128 noPfx (.base 0 .none) (2 * 1 + 1)) = true := by
  refine ⟨fun i hi k hk => ?_, ⟨⟨by decide, by decide, by decide⟩, .inl (by decide)⟩, by decide⟩
  have h : i < 2 := hi
  interval_cases i <;> interval_cases k <;> decide

/-- The store begins at the first byte of the device. -/
theorem witness_DeviceStoresAreRefused :
    (∀ i, i < VL.kl .v128 → ∀ k, k < 2 →
      (withGpr paged 0 0x500000).segmentViolation .v128 noPfx (.base 0 .none) (2 * i + k) = false ∧
      (withGpr paged 0 0x500000).writable ((withGpr paged 0 0x500000).operandByte .v128 noPfx (.base 0 .none) (2 * i + k)) = true) ∧
    (withGpr paged 0 0x500000).Ready .v128 ∧
    (withGpr paged 0 0x500000).isDevice ((withGpr paged 0 0x500000).operandByte .v128 noPfx (.base 0 .none) (2 * 0 + 0)) = true := by
  refine ⟨fun i hi k hk => ?_, ⟨by decide, by decide, by decide⟩, by decide⟩
  have h : i < 2 := hi
  interval_cases i <;> interval_cases k <;> decide

end Sys2Proof.Tests
end

section
/-! SUPPORT. What a completed step did, what stops a fetch, which bytes a store writes, and 32-bit addresses: the lemmas of
the statements of 00_scope.md, and their proofs. -/

namespace Sys2Proof.Machine

/-! ## The register and the memory forms -/

@[simp] theorem regForm_form (c : Conversion) (vl : VL) (pfx : Prefixes) (d : BitVec 5) (aaa : BitVec 3) (z : Bool)
    (src : BitVec 5) : (Instr.regForm c vl pfx d aaa z src).form = .reg c vl pfx d aaa z src := by
  cases c <;> cases vl <;> rfl

@[simp] theorem memForm_form (c : Conversion) (vl : VL) (pfx : Prefixes) (m : MemOperand) (aaa : BitVec 3)
    (src : BitVec 5) : (Instr.memForm c vl pfx m aaa src).form = .mem c vl pfx m aaa src := by
  cases c <;> cases vl <;> rfl

/-- A register form means the shared register operation. -/
theorem exec_regForm (c : Conversion) (vl : VL) (pfx : Prefixes) (d : BitVec 5) (aaa : BitVec 3) (z : Bool)
    (src : BitVec 5) (s : State) :
    exec (.regForm c vl pfx d aaa z src) s = execRegister c vl pfx d aaa z src s := by
  rw [exec_eq_execForm, regForm_form, execForm]

/-- A memory form means the shared memory operation. -/
theorem exec_memForm (c : Conversion) (vl : VL) (pfx : Prefixes) (m : MemOperand) (aaa : BitVec 3) (src : BitVec 5)
    (s : State) : exec (.memForm c vl pfx m aaa src) s = execMemory c vl pfx m aaa src s := by
  rw [exec_eq_execForm, memForm_form, execForm]

/-! ## What completes -/

/-- No stop is a completed step. -/
theorem Stop.outcome_ne_next (e : Stop) (t : State) : e.outcome ≠ .next t := by
  cases e <;> simp [Stop.outcome]

/-- A register form that completes writes its result and advances. -/
theorem execRegister_eq_next {c : Conversion} {vl : VL} {pfx : Prefixes} {d : BitVec 5} {aaa : BitVec 3} {z : Bool}
    {src : BitVec 5} {s t : State} (h : execRegister c vl pfx d aaa z src s = .next t) :
    s.Ready vl ∧ t = (s.setZmm d (s.registerResult c vl d aaa z src)).retire (regLength pfx) := by
  rcases execRegister_cases c vl pfx d aaa z src s with ⟨e, -, he⟩ | ⟨hr, he⟩
  · simp [h] at he
  · exact ⟨hr, by simpa [h] using he⟩

/-- A memory form that completes passed every check of a store, writes its enabled elements and advances. -/
theorem execMemory_eq_next {c : Conversion} {vl : VL} {pfx : Prefixes} {m : MemOperand} {aaa : BitVec 3}
    {src : BitVec 5} {s t : State} (h : execMemory c vl pfx m aaa src s = .next t) :
    s.Ready vl ∧ s.storeStop vl pfx m aaa = none ∧
      t = (s.setMem (s.storedMemory c vl pfx m aaa src)).retire (memLength pfx m) := by
  rcases execMemory_cases c vl pfx m aaa src s with ⟨e, -, he⟩ | ⟨-, stop, -, he⟩ | ⟨hr, hs, he⟩
  · simp [h] at he
  · exact absurd (he ▸ h) (stop.outcome_ne_next t)
  · exact ⟨hr, hs, by simpa [h] using he⟩

/-- A step that completes fetched an instruction and ran it. -/
theorem step_eq_next {s t : State} (h : step s = .next t) : ∃ i, s.fetch = .run i ∧ exec i s = .next t := by
  unfold step at h
  cases hf : s.fetch with
  | run i => exact ⟨i, rfl, by simpa [hf] using h⟩
  | stop e => exact absurd (by simpa [hf] using h) (e.outcome_ne_next t)

/-- Everything a step that completes can have done: a register form wrote its destination, or a memory form that nothing
stopped wrote memory; either advanced the instruction pointer. -/
theorem step_next_cases {s t : State} (h : step s = .next t) :
    (∃ (c : Conversion) (vl : VL) (pfx : Prefixes) (d : BitVec 5) (aaa : BitVec 3) (z : Bool) (src : BitVec 5),
      exec (.regForm c vl pfx d aaa z src) s = .next t ∧
      t = (s.setZmm d (s.registerResult c vl d aaa z src)).retire (regLength pfx)) ∨
    (∃ (c : Conversion) (vl : VL) (pfx : Prefixes) (m : MemOperand) (aaa : BitVec 3) (src : BitVec 5),
      exec (.memForm c vl pfx m aaa src) s = .next t ∧ s.storeStop vl pfx m aaa = none ∧
      t = (s.setMem (s.storedMemory c vl pfx m aaa src)).retire (memLength pfx m)) := by
  obtain ⟨i, -, he⟩ := step_eq_next h
  rw [exec_eq_execForm] at he
  cases hi : i.form with
  | reg c vl pfx d aaa z src =>
    rw [hi, execForm] at he
    exact .inl ⟨c, vl, pfx, d, aaa, z, src, (exec_regForm ..).trans he, (execRegister_eq_next he).2⟩
  | mem c vl pfx m aaa src =>
    rw [hi, execForm] at he
    obtain ⟨-, hs, ht⟩ := execMemory_eq_next he
    exact .inr ⟨c, vl, pfx, m, aaa, src, (exec_memForm ..).trans he, hs, ht⟩

/-! ## A step changes its destination only -/

/-- No exception of the model is the SIMD floating-point exception (60_exceptions.md R121). -/
theorem Exception.vector_ne_simd (e : Exception) : e.vector ≠ 19 := by
  cases e <;> simp [Exception.vector]

/-- Settles O10: every completed step is one of the two of `step_next_cases`. -/
theorem stepChangesOnlyItsDestination : Obligations.StepChangesOnlyItsDestination := by
  refine ⟨fun s e _ => e.vector_ne_simd, fun s t h => ?_⟩
  rcases step_next_cases h with ⟨c, vl, pfx, d, aaa, z, src, he, rfl⟩ | ⟨c, vl, pfx, m, aaa, src, he, -, rfl⟩
  · refine ⟨⟨_, rfl⟩, .inl ⟨rfl, c, vl, pfx, d, aaa, z, src, he, fun r hr => ?_⟩⟩
    rw [State.retire_getZmm, State.getZmm_setZmm_ne s d r _ hr]
  · refine ⟨⟨_, rfl⟩, .inr ⟨rfl, c, vl, pfx, m, aaa, src, he, fun a ha => ?_⟩⟩
    rw [State.retire_mem, State.setMem_mem, storedMemory_read_ne s c vl pfx m aaa src a ha]

/-! ## The program text -/

/-- No byte that an admitted store writes is in the program text (20_memory.md R51). -/
theorem inProgram_eq_false_of_isStoredByte {s : State} {vl : VL} {pfx : Prefixes} {m : MemOperand} {aaa : BitVec 3}
    {a : QWord} (h : s.StoreAdmitted vl pfx m aaa) (ha : s.IsStoredByte vl pfx m aaa a.toNat) :
    s.inProgram a = false := by
  obtain ⟨j, hj, hen, ha⟩ := ha
  obtain ⟨⟨-, -, hlow, -⟩, ⟨-, -, hhigh, -⟩⟩ := h j hj hen
  rcases ha with ha | ha
  · rwa [BitVec.eq_of_toNat_eq ha]
  · rwa [BitVec.eq_of_toNat_eq ha]

/-- A memory form that nothing stops leaves every byte of the program text as it was. -/
theorem storedMemory_read_of_inProgram {s : State} {vl : VL} {pfx : Prefixes} {m : MemOperand} {aaa : BitVec 3}
    (c : Conversion) (src : BitVec 5) {a : QWord} (hs : s.storeStop vl pfx m aaa = none) (ha : s.inProgram a = true) :
    (s.storedMemory c vl pfx m aaa src).read a.toNat = s.readByte a := by
  refine storedMemory_read_ne s c vl pfx m aaa src a.toNat fun hst => ?_
  have hout := inProgram_eq_false_of_isStoredByte (admitted_of_storeStop s vl pfx m aaa hs) hst
  simp [ha] at hout

/-- Settles O12: the store check keeps the memory forms out of the text, and the fetch stops at END. -/
theorem programTextIsImmutable : Obligations.ProgramTextIsImmutable := by
  refine ⟨fun s t h a => ?_, fun s k hk => ?_⟩
  · rcases step_next_cases h with ⟨c, vl, pfx, d, aaa, z, src, -, rfl⟩ | ⟨c, vl, pfx, m, aaa, src, -, hs, rfl⟩
    · simp
    · refine ⟨by simp, fun ha => ?_⟩
      rw [State.retire_readByte, State.readByte, State.setMem_mem, storedMemory_read_of_inProgram c src hs ha]
  · exact inProgram_of_lt_textLeft s k (Nat.lt_of_lt_of_le hk (fetchFrom_length s 0 s.textLeft))

/-! ## What stops a fetch -/

/-- A step that fetches stops as its fetch does. -/
theorem step_of_fetch_stop {s : State} {e : Stop} (h : s.fetch = .stop e) : step s = e.outcome := by
  simp [step, h]

/-- A step that fetches an instruction runs it. -/
theorem step_of_fetch_run {s : State} {i : Instr} (h : s.fetch = .run i) : step s = exec i s := by
  simp [step, h]

/-- A machine that fetches answers what its window means. -/
theorem fetch_of_fetches {s : State} {mode : DecodeMode} (h : s.Fetches mode) :
    s.fetch = fetchedOf mode s.fetchWindow := by
  obtain ⟨hend, hdebug, hac, hmode⟩ := h
  exact step_of_window s mode hend hdebug hac hmode

/-- Settles O3. -/
theorem stepRunsDecodedInstruction : Obligations.StepRunsDecodedInstruction := by
  intro s mode i rest hf hd
  exact step_of_fetch_run ((fetch_of_fetches hf).trans (fetchedOf_instr mode s.fetchWindow i rest hd))

/-- Where an instruction needs the byte after the window's bytes, the step stops as the window does. -/
theorem step_of_needsByteAfter {s : State} {mode : DecodeMode} {bs : List Byte} {e : Stop}
    (h : s.NeedsByteAfter mode bs) (hw : s.fetchWindow = (bs, e)) : step s = e.outcome := by
  obtain ⟨hf, -, -, hneed⟩ := h
  apply step_of_fetch_stop
  rw [fetch_of_fetches hf, fetchedOf_incomplete mode s.fetchWindow (by rwa [hw]), hw]

/-- The window of bytes that can be fetched, as far as the first `bs.length` bytes of it. -/
theorem fetchWindow_of_needsByteAfter {s : State} {mode : DecodeMode} {bs : List Byte} (h : s.NeedsByteAfter mode bs) :
    s.fetchWindow = (bs ++ (s.fetchFrom bs.length (s.textLeft - bs.length)).1,
      (s.fetchFrom bs.length (s.textLeft - bs.length)).2) := by
  obtain ⟨-, hle, hbytes, -⟩ := h
  simpa [State.fetchWindow] using fetchFrom_of_bytes s bs 0 s.textLeft hle (by simpa using hbytes)

/-- The step stops as the fetch of the first byte it needs and cannot have. -/
theorem step_of_fetchByte_error {s : State} {mode : DecodeMode} {bs : List Byte} {e : Stop}
    (h : s.NeedsByteAfter mode bs) (hlt : bs.length < s.textLeft) (he : s.fetchByte bs.length = .error e) :
    step s = e.outcome := by
  apply step_of_needsByteAfter h
  rw [fetchWindow_of_needsByteAfter h, fetchFrom_of_error s _ _ e (by omega) he, List.append_nil]

/-- An instruction that needs a byte after the program text is refused. -/
theorem step_of_text_ended {s : State} {mode : DecodeMode} {bs : List Byte}
    (h : s.NeedsByteAfter mode bs) (heq : bs.length = s.textLeft) : step s = .refused .outsideProgram := by
  apply step_of_needsByteAfter (e := .refuse .outsideProgram) h
  rw [fetchWindow_of_needsByteAfter h, heq, Nat.sub_self, State.fetchFrom, List.append_nil]

theorem fetchByte_of_violation {s : State} {i : Nat} (h : s.fetchViolation i = true) :
    s.fetchByte i = .error (.refuse (.fetchFault .gp0 (s.codeAddress i))) := by
  simp [State.fetchByte, h]

theorem fetchByte_of_not_executable {s : State} {i : Nat} (hv : s.fetchViolation i = false)
    (hx : s.executable (s.codeAddress i) = false) :
    s.fetchByte i = .error (.refuse (.fetchNotExecutable (s.codeAddress i))) := by
  simp [State.fetchByte, hv, hx]

theorem fetchByte_of_unwritten {s : State} {i : Nat} (hv : s.fetchViolation i = false)
    (hx : s.executable (s.codeAddress i) = true) (hr : s.readByte (s.codeAddress i) = none) :
    s.fetchByte i = .error (.fault (.unwrittenByte (s.codeAddress i))) := by
  simp [State.fetchByte, hv, hx, hr]

/-- What may be executed is mapped, so either reason not to fetch a byte is the second. -/
theorem executable_eq_false {s : State} {a : QWord} (h : s.mapped a = false ∨ s.executable a = false) :
    s.executable a = false := by
  rcases h with h | h
  · simp [State.executable, h]
  · exact h

/-- Settles O8: the step stops as `fetchByte` does at the byte after `bs`, or as the text ends there. -/
theorem unfetchableByteStops : Obligations.UnfetchableByteStops := by
  intro s mode bs h
  refine ⟨fun hlt hx => ?_, fun hlt hv hx => ?_, fun hlt hv hx hr => ?_, step_of_text_ended h⟩
  · cases hv : s.fetchViolation bs.length with
    | true => exact ⟨_, step_of_fetchByte_error h hlt (fetchByte_of_violation hv)⟩
    | false => exact ⟨_, step_of_fetchByte_error h hlt (fetchByte_of_not_executable hv (executable_eq_false hx))⟩
  · exact step_of_fetchByte_error h hlt (fetchByte_of_not_executable hv (executable_eq_false hx))
  · exact step_of_fetchByte_error h hlt (fetchByte_of_unwritten hv hx hr)

/-! ## Reading what a store wrote -/

/-- After writes at different addresses, each address holds what was written to it. -/
theorem Memory.read_foldl_write_range (f : Nat → Nat) (g : Nat → Byte) (m : Memory) (n i : Nat) (hi : i < n)
    (hf : ∀ j, j < n → f i = f j → i = j) :
    ((List.range n).foldl (fun m j => m.write (f j) (g j)) m).read (f i) = some (g i) := by
  induction n with
  | zero => exact absurd hi (Nat.not_lt_zero i)
  | succ n ih =>
    rw [List.range_succ, List.foldl_append, List.foldl_cons, List.foldl_nil]
    by_cases h : i = n
    · rw [h, Memory.read_write_self]
    · rw [Memory.read_write_ne _ _ _ _ fun e => h (hf n (Nat.lt_succ_self n) e)]
      exact ih (by omega) fun j hj => hf j (Nat.lt_succ_of_lt hj)

/-- Byte `i` of a store holds bits `8i+7 : 8i` of its value (20_memory.md R40). -/
theorem Memory.writeLE_read_self (is64 : Bool) (m : Memory) (a : QWord) (n : Nat) (v : BitVec (8 * n)) (i : Nat)
    (hn : n ≤ 2 ^ 32) (hi : i < n) :
    (m.writeLE is64 a n v).read (byteAddr is64 a i).toNat = some (v.extractLsb' (8 * i) 8) :=
  Memory.read_foldl_write_range (fun j => (byteAddr is64 a j).toNat) (fun j => v.extractLsb' (8 * j) 8) m n i hi
    fun j hj => byteAddr_injective is64 a i j (by omega) (by omega)

/-- Settles O40. -/
theorem memWriteSetsExactlyItsBytes : Obligations.MemWriteSetsExactlyItsBytes := by
  intro is64 m a n v hn
  exact ⟨fun i => Memory.writeLE_read_self is64 m a n v i hn, Memory.writeLE_read_ne is64 m a n v⟩

/-! ## Linear addresses outside 64-bit mode -/

theorem State.is64_eq_false {s : State} (h : s.mode ≠ .mode64) : s.is64 = false := by
  simpa [State.is64] using h

/-- Outside 64-bit mode an address is taken modulo 2^32 (20_memory.md R36). -/
theorem wrapAddr_false_toNat (a : QWord) : (wrapAddr false a).toNat = a.toNat % 2 ^ 32 := by
  simp only [wrapAddr, Bool.false_eq_true, if_false, BitVec.toNat_setWidth]
  omega

theorem wrapAddr_false_add_toNat (a b : QWord) : (wrapAddr false (a + b)).toNat = (a.toNat + b.toNat) % 2 ^ 32 := by
  rw [wrapAddr_false_toNat, BitVec.toNat_add]
  omega

theorem byteAddr_false_toNat (a : QWord) (i : Nat) : (byteAddr false a i).toNat = (a.toNat + i) % 2 ^ 32 := by
  rw [byteAddr, wrapAddr_false_add_toNat, BitVec.toNat_ofNat]
  omega

theorem segmentBase_of_not_is64 {s : State} (h : s.is64 = false) (seg : SegReg) :
    s.segmentBase seg = (s.segment seg).base := by
  simp [State.segmentBase, h]

/-- Outside 64-bit mode every override names the segment of the access. -/
theorem accessSegment_of_override {s : State} {pfx : Prefixes} {seg : SegReg} (m : MemOperand) (h : s.is64 = false)
    (hseg : pfx.seg = some seg) : s.accessSegment pfx m = seg := by
  cases seg <;> simp [State.accessSegment, hseg, h]

theorem linearAddress_toNat_of_not_is64 {s : State} (h : s.is64 = false) (vl : VL) (pfx : Prefixes) (m : MemOperand) :
    (s.linearAddress vl pfx m).toNat =
      ((s.segment (s.accessSegment pfx m)).base.toNat + (s.effectiveAddress vl pfx m).toNat) % 2 ^ 32 := by
  rw [State.linearAddress, h, wrapAddr_false_add_toNat, segmentBase_of_not_is64 h]

/-- Settles O46. -/
theorem linearAddress32 : Obligations.LinearAddress32 := by
  intro s vl pfx m hm
  have h64 : s.is64 = false := State.is64_eq_false hm
  have hla := linearAddress_toNat_of_not_is64 h64 vl pfx m
  refine ⟨hla, fun seg hseg => ?_, fun i => ?_⟩
  · rwa [accessSegment_of_override m h64 hseg] at hla
  · rw [State.operandByte, h64, byteAddr_false_toNat]

end Sys2Proof.Machine
end

section
/-! SUPPORT. The instruction pointer and the invariant over a step, what a fetch violation is, and what a form sees of its
writemask and source registers: the lemmas of the statements of 10_state.md, and their proofs. -/

namespace Sys2Proof.Machine

/-! ## The instruction pointer -/

theorem State.is64_eq_true {s : State} (h : s.mode = .mode64) : s.is64 = true := by
  simp [State.is64, h]

theorem State.nextPc_of_is64 {s : State} (h : s.is64 = true) (n : Nat) : s.nextPc n = s.pc + BitVec.ofNat 64 n := by
  simp [State.nextPc, byteAddr, wrapAddr, h]

theorem State.nextPc_toNat_of_not_is64 {s : State} (h : s.is64 = false) (n : Nat) :
    (s.nextPc n).toNat = (s.pc.toNat + n) % 2 ^ 32 := by
  rw [State.nextPc, h, byteAddr_false_toNat]

/-- A completed step advances the instruction pointer by the length of an instruction (30_encoding.md R65). -/
theorem step_next_pc {s t : State} (h : step s = .next t) : ∃ n, 6 ≤ n ∧ n ≤ 13 ∧ t.pc = s.nextPc n := by
  rcases step_next_cases h with ⟨c, vl, pfx, d, aaa, z, src, -, rfl⟩ | ⟨c, vl, pfx, m, aaa, src, -, -, rfl⟩
  · exact ⟨regLength pfx, (regLength_bounds pfx).1, (regLength_bounds pfx).2, rfl⟩
  · exact ⟨memLength pfx m, (memLength_bounds pfx m).1, (memLength_bounds pfx m).2, rfl⟩

/-- Settles O11. -/
theorem stepAdvancesInstructionPointer : Obligations.StepAdvancesInstructionPointer := by
  intro s t h
  obtain ⟨n, hlow, hhigh, hpc⟩ := step_next_pc h
  refine ⟨n, hlow, hhigh, fun hm => ?_, fun hm => ?_⟩
  · rw [hpc, State.nextPc_of_is64 (State.is64_eq_true hm)]
  · rw [hpc, State.nextPc_toNat_of_not_is64 (State.is64_eq_false (by simp [hm]))]

/-! ## The invariant -/

/-- Settles O2. -/
theorem resetMeetsInvariant : Obligations.ResetMeetsInvariant :=
  ⟨⟨List.Pairwise.nil, by simp [State.reset]⟩, fun _ => by decide⟩

theorem step_next_is64 {s t : State} (h : step s = .next t) : t.is64 = s.is64 := by
  rcases step_next_cases h with ⟨c, vl, pfx, d, aaa, z, src, -, rfl⟩ | ⟨c, vl, pfx, m, aaa, src, -, -, rfl⟩
  · rw [State.retire_is64, State.setZmm_is64]
  · rw [State.retire_is64, State.setMem_is64]

/-- A register form leaves memory alone, and a memory form keeps its canonical form. -/
theorem step_next_mem_wf {s t : State} (hs : Memory.wf s.mem) (h : step s = .next t) : Memory.wf t.mem := by
  rcases step_next_cases h with ⟨c, vl, pfx, d, aaa, z, src, -, rfl⟩ | ⟨c, vl, pfx, m, aaa, src, -, -, rfl⟩
  · exact hs
  · exact storedMemory_wf s c vl pfx m aaa src hs

/-- Settles O9: memory by the form that ran, and the instruction pointer by the wrap of the advance. -/
theorem stepKeepsInvariant : Obligations.StepKeepsInvariant := by
  rintro s t ⟨hwf, -⟩ h
  refine ⟨step_next_mem_wf hwf h, fun h64 => ?_⟩
  obtain ⟨n, -, -, hpc⟩ := step_next_pc h
  rw [hpc, State.nextPc_toNat_of_not_is64 (step_next_is64 h ▸ h64)]
  exact Nat.mod_lt _ (by decide)

/-! ## A fetch that violates the code segment -/

theorem codeAddress_of_is64 {s : State} (h : s.is64 = true) (i : Nat) :
    s.codeAddress i = s.pc + BitVec.ofNat 64 i := by
  simp [State.codeAddress, State.codeBase, State.codeOffset, byteAddr, wrapAddr, h]

/-- In 64-bit mode a byte whose address is not canonical cannot be fetched (10_state.md R25; 20_memory.md R37). -/
theorem fetchViolation_of_not_canonical {s : State} {i : Nat} (h : s.is64 = true)
    (hc : s.canonical (s.codeAddress i) = false) : s.fetchViolation i = true := by
  simp [State.fetchViolation, h, hc]

/-- Outside 64-bit mode a byte above the limit of the code segment cannot be fetched (10_state.md R25). -/
theorem fetchViolation_of_limit {s : State} {i : Nat} (h : s.is64 = false)
    (hl : s.cs.limit.toNat < (s.pc.toNat + i) % 2 ^ 32) : s.fetchViolation i = true := by
  have hoff : ((s.codeOffset i).setWidth 32).toNat = (s.pc.toNat + i) % 2 ^ 32 := by
    rw [BitVec.toNat_setWidth, State.codeOffset, h, byteAddr_false_toNat, Nat.mod_mod]
  rw [← hoff, ← BitVec.lt_def] at hl
  simp [State.fetchViolation, h, hl]

/-- Settles O7: in either mode the byte after `bs` is a fetch violation. -/
theorem nonCanonicalFetchIsRefused : Obligations.NonCanonicalFetchIsRefused := by
  intro s mode bs h hlt
  refine ⟨fun hm hc => ?_, fun hm hl => ?_⟩
  · have h64 := State.is64_eq_true hm
    rw [← codeAddress_of_is64 h64] at hc ⊢
    exact step_of_fetchByte_error h hlt (fetchByte_of_violation (fetchViolation_of_not_canonical h64 hc))
  · exact step_of_fetchByte_error h hlt (fetchByte_of_violation (fetchViolation_of_limit (State.is64_eq_false hm) hl))

/-! ## When a form completes -/

theorem execRegister_of_ready {c : Conversion} {vl : VL} {pfx : Prefixes} {d : BitVec 5} {aaa : BitVec 3} {z : Bool}
    {src : BitVec 5} {s : State} (h : s.Ready vl) :
    execRegister c vl pfx d aaa z src s =
      .next ((s.setZmm d (s.registerResult c vl d aaa z src)).retire (regLength pfx)) := by
  simp [execRegister, (checkEnabled_eq_none_iff s vl).2 h]

theorem execMemory_of_storeStop {c : Conversion} {vl : VL} {pfx : Prefixes} {m : MemOperand} {aaa : BitVec 3}
    {src : BitVec 5} {s : State} (h : s.Ready vl) (hs : s.storeStop vl pfx m aaa = none) :
    execMemory c vl pfx m aaa src s =
      .next ((s.setMem (s.storedMemory c vl pfx m aaa src)).retire (memLength pfx m)) := by
  simp [execMemory, (checkEnabled_eq_none_iff s vl).2 h, hs]

theorem packWords_congr {f g : Nat → Word} {n : Nat} (h : ∀ j, j < n → f j = g j) : packWords f n = packWords g n := by
  induction n with
  | zero => rfl
  | succ n ih => rw [packWords, packWords, ih fun j hj => h j (Nat.lt_succ_of_lt hj), h n (Nat.lt_succ_self n)]

/-! ## The writemask register -/

/-- The same state with other opmask registers. -/
def State.setK (s : State) (k : Vector QWord 8) : State := { s with k := k }

/-- The opmask registers `k` enable the elements that those of `s` enable. -/
def State.MaskAgrees (s : State) (k : Vector QWord 8) (vl : VL) (aaa : BitVec 3) : Prop :=
  ∀ j, j < vl.kl → (s.setK k).enabled aaa j = s.enabled aaa j

/-- Agreement on bits KL-1:0 of the writemask register, if one is named, is enough. -/
theorem maskAgrees_of_getK {s : State} {k : Vector QWord 8} {vl : VL} {aaa : BitVec 3}
    (h : aaa ≠ 0#3 → ∀ j, j < vl.kl → ((s.setK k).getK aaa).getLsbD j = (s.getK aaa).getLsbD j) :
    s.MaskAgrees k vl aaa := by
  intro j hj
  by_cases ha : aaa = 0#3
  · simp [State.enabled, ha]
  · rw [State.enabled, State.enabled, h ha j hj]

section
variable {s t : State} {k : Vector QWord 8} {vl : VL} {aaa : BitVec 3}

theorem enabledElements_setK (h : s.MaskAgrees k vl aaa) :
    (s.setK k).enabledElements vl aaa = s.enabledElements vl aaa :=
  List.filter_congr fun j hj => h j (List.mem_range.1 hj)

theorem enabledBytes_setK (h : s.MaskAgrees k vl aaa) : (s.setK k).enabledBytes vl aaa = s.enabledBytes vl aaa := by
  rw [State.enabledBytes, State.enabledBytes, enabledElements_setK h]

theorem memoryFault_setK (h : s.MaskAgrees k vl aaa) (pfx : Prefixes) (m : MemOperand) :
    (s.setK k).memoryFault vl pfx m aaa = s.memoryFault vl pfx m aaa := by
  rw [State.memoryFault, enabledBytes_setK h]
  rfl

theorem alignmentStop_setK (h : s.MaskAgrees k vl aaa) (pfx : Prefixes) (m : MemOperand) :
    (s.setK k).alignmentStop vl pfx m aaa = s.alignmentStop vl pfx m aaa := by
  rw [State.alignmentStop, enabledElements_setK h]
  rfl

theorem storeRefusal_setK (h : s.MaskAgrees k vl aaa) (pfx : Prefixes) (m : MemOperand) :
    (s.setK k).storeRefusal vl pfx m aaa = s.storeRefusal vl pfx m aaa := by
  rw [State.storeRefusal, enabledBytes_setK h]
  rfl

theorem storeStop_setK (h : s.MaskAgrees k vl aaa) (pfx : Prefixes) (m : MemOperand) :
    (s.setK k).storeStop vl pfx m aaa = s.storeStop vl pfx m aaa := by
  rw [State.storeStop, State.storeStop, memoryFault_setK h, alignmentStop_setK h, storeRefusal_setK h]

theorem storedMemory_setK (h : s.MaskAgrees k vl aaa) (c : Conversion) (pfx : Prefixes) (m : MemOperand)
    (src : BitVec 5) : (s.setK k).storedMemory c vl pfx m aaa src = s.storedMemory c vl pfx m aaa src := by
  rw [State.storedMemory, enabledElements_setK h]
  rfl

theorem registerResult_setK (h : s.MaskAgrees k vl aaa) (c : Conversion) (d : BitVec 5) (z : Bool) (src : BitVec 5) :
    (s.setK k).registerResult c vl d aaa z src = s.registerResult c vl d aaa z src :=
  packWords_congr fun j hj => by rw [h j hj]; rfl

/-- A form that completes does so in the same way with opmask registers that enable the same elements. -/
theorem execRegister_setK {c : Conversion} {pfx : Prefixes} {d : BitVec 5} {z : Bool} {src : BitVec 5}
    (hk : s.MaskAgrees k vl aaa) (h : execRegister c vl pfx d aaa z src s = .next t) :
    execRegister c vl pfx d aaa z src (s.setK k) = .next (t.setK k) := by
  obtain ⟨hr, rfl⟩ := execRegister_eq_next h
  rw [execRegister_of_ready (s := s.setK k) hr, registerResult_setK hk]
  rfl

theorem execMemory_setK {c : Conversion} {pfx : Prefixes} {m : MemOperand} {src : BitVec 5}
    (hk : s.MaskAgrees k vl aaa) (h : execMemory c vl pfx m aaa src s = .next t) :
    execMemory c vl pfx m aaa src (s.setK k) = .next (t.setK k) := by
  obtain ⟨hr, hs, rfl⟩ := execMemory_eq_next h
  rw [execMemory_of_storeStop (s := s.setK k) hr ((storeStop_setK hk pfx m).trans hs), storedMemory_setK hk]
  rfl

end

/-- Settles O36: the writemask register counts only by the elements it enables. -/
theorem highMaskBitsHaveNoEffect : Obligations.HighMaskBitsHaveNoEffect := by
  intro i s t k hk h
  have hagree : s.MaskAgrees k i.vl i.aaa := maskAgrees_of_getK hk
  rw [exec_eq_execForm] at h ⊢
  unfold Instr.vl Instr.aaa at hagree
  cases hi : i.form with
  | reg c vl pfx d aaa z src =>
    rw [hi] at h hagree
    exact execRegister_setK hagree h
  | mem c vl pfx m aaa src =>
    rw [hi] at h hagree
    exact execMemory_setK hagree h

/-! ## The source register -/

theorem extractLsb'_congr {v w : Zmm} {n start len : Nat} (h : ∀ b, b < n → v.getLsbD b = w.getLsbD b)
    (hle : start + len ≤ n) : v.extractLsb' start len = w.extractLsb' start len := by
  apply BitVec.eq_of_getLsbD_eq
  intro b hb
  rw [BitVec.getLsbD_extractLsb', BitVec.getLsbD_extractLsb', h (start + b) (by omega)]

section
variable {s : State} {vl : VL} {src : BitVec 5} {v : Zmm}
  (h : ∀ b, b < 64 * vl.kl → v.getLsbD b = (s.getZmm src).getLsbD b)
include h

/-- Words below KL of the source register lie in its bits VL-1:0, so a destination that is the source keeps them too. -/
theorem wordElement_setZmm (d : BitVec 5) {j : Nat} (hj : j < vl.kl) :
    wordElement ((s.setZmm src v).getZmm d) j = wordElement (s.getZmm d) j := by
  by_cases hd : d = src
  · subst hd
    rw [State.getZmm_setZmm_self]
    exact extractLsb'_congr h (by omega)
  · rw [State.getZmm_setZmm_ne s src d v hd]

theorem quadElement_setZmm {j : Nat} (hj : j < vl.kl) :
    quadElement ((s.setZmm src v).getZmm src) j = quadElement (s.getZmm src) j := by
  rw [State.getZmm_setZmm_self]
  exact extractLsb'_congr h (by omega)

theorem registerResult_setZmm (c : Conversion) (d : BitVec 5) (aaa : BitVec 3) (z : Bool) :
    (s.setZmm src v).registerResult c vl d aaa z src = s.registerResult c vl d aaa z src :=
  packWords_congr fun j hj => by rw [quadElement_setZmm h hj, wordElement_setZmm h d hj]; rfl

theorem storedMemory_setZmm (c : Conversion) (pfx : Prefixes) (m : MemOperand) (aaa : BitVec 3) :
    (s.setZmm src v).storedMemory c vl pfx m aaa src = s.storedMemory c vl pfx m aaa src :=
  List.foldl_ext _ _ _ fun mem j hj => by
    rw [quadElement_setZmm h ((mem_enabledElements s vl aaa j).1 hj).1]
    rfl

end

/-- Settles O39: both forms read the source register by its quad-words below KL, and merging reads words below them. -/
theorem highSourceBitsHaveNoEffect : Obligations.HighSourceBitsHaveNoEffect := by
  intro c vl pfx d m aaa z src s v hv
  refine ⟨fun t h => ?_, fun t h => ?_⟩
  · rw [exec_regForm] at h ⊢
    obtain ⟨hr, rfl⟩ := execRegister_eq_next h
    refine ⟨_, execRegister_of_ready (s := s.setZmm src v) hr, ?_⟩
    rw [State.retire_getZmm, State.retire_getZmm, State.getZmm_setZmm_self, State.getZmm_setZmm_self,
      registerResult_setZmm hv]
  · rw [exec_memForm] at h ⊢
    obtain ⟨hr, hs, rfl⟩ := execMemory_eq_next h
    rw [execMemory_of_storeStop (s := s.setZmm src v) hr hs, storedMemory_setZmm hv]
    rfl

end Sys2Proof.Machine
end

section
/-! SUPPORT. What a mask without enabled elements leaves to do, reading back a store, what each violation of a store ends
in, the stops before a fetch, and the segment of an access: the lemmas of the statements of 20_memory.md, and their proofs. -/

namespace Sys2Proof.Machine

/-! ## A writemask with bits KL-1:0 zero -/

/-- Bit `b` of a vector is bit `b % 16` of its word `b / 16` (40_down_convert_qword_to_word.md R94). -/
theorem getLsbD_eq_wordElement (v : Zmm) (b : Nat) : v.getLsbD b = (wordElement v (b / 16)).getLsbD (b % 16) := by
  simp [wordElement, Nat.mod_lt, Nat.div_add_mod]

section
variable {s : State} {vl : VL} {aaa : BitVec 3} (h : ∀ j, j < vl.kl → ¬ s.ElementEnabled aaa j)
include h

theorem enabledElements_eq_nil : s.enabledElements vl aaa = [] :=
  List.eq_nil_iff_forall_not_mem.2 fun j hj =>
    have ⟨hlt, hen⟩ := (mem_enabledElements s vl aaa j).1 hj
    h j hlt hen

/-- With nothing enabled no address, segment or alignment stops a store (20_memory.md R44). -/
theorem storeStop_of_none_enabled (pfx : Prefixes) (m : MemOperand) : s.storeStop vl pfx m aaa = none := by
  have helems : s.enabledElements vl aaa = [] := enabledElements_eq_nil h
  have hbytes : s.enabledBytes vl aaa = [] := by rw [State.enabledBytes, helems, List.flatMap_nil]
  have hfault := (memoryFault_eq_none_iff s vl pfx m aaa).2 (by simp [hbytes])
  have halign : s.alignmentStop vl pfx m aaa = none := by simp [State.alignmentStop, helems]
  have hrefusal := (storeRefusal_eq_none_iff s vl pfx m aaa).2 (by simp [hbytes])
  simp [State.storeStop, hfault, halign, hrefusal]

theorem storedMemory_of_none_enabled (c : Conversion) (pfx : Prefixes) (m : MemOperand) (src : BitVec 5) :
    s.storedMemory c vl pfx m aaa src = s.mem := by
  rw [State.storedMemory, enabledElements_eq_nil h, List.foldl_nil]

theorem exec_memForm_of_none_enabled (hr : s.Ready vl) (c : Conversion) (pfx : Prefixes) (m : MemOperand)
    (src : BitVec 5) : exec (.memForm c vl pfx m aaa src) s = .next (s.retire (memLength pfx m)) := by
  rw [exec_memForm, execMemory_of_storeStop hr (storeStop_of_none_enabled h pfx m), storedMemory_of_none_enabled h]
  rfl

/-- With nothing enabled the words of a register form are zeroed or kept bit by bit. -/
theorem registerResult_getLsbD_of_none_enabled (c : Conversion) (d : BitVec 5) (z : Bool) (src : BitVec 5) {b : Nat}
    (hb : b < 16 * vl.kl) :
    (s.registerResult c vl d aaa z src).getLsbD b = if z then false else (s.getZmm d).getLsbD b := by
  have hj : b / 16 < vl.kl := by omega
  have hen : s.enabled aaa (b / 16) = false := Bool.eq_false_iff.2 (mt (enabled_iff s aaa (b / 16)).1 (h _ hj))
  rw [getLsbD_eq_wordElement, wordElement_registerResult s c vl d aaa z src _ hj, getLsbD_eq_wordElement (s.getZmm d)]
  cases z <;> simp [hen]

theorem registerResult_zeroing_of_none_enabled (c : Conversion) (d src : BitVec 5) :
    s.registerResult c vl d aaa true src = 0 := by
  apply BitVec.eq_of_getLsbD_eq
  intro b _
  by_cases hlow : b < 16 * vl.kl
  · simp [registerResult_getLsbD_of_none_enabled h c d true src hlow]
  · simp [registerResult_high s c vl d aaa true src b (by omega)]

end

/-- A register form that is ready leaves its result in its destination. -/
theorem exec_regForm_of_ready {s : State} {vl : VL} (hr : s.Ready vl) (c : Conversion) (pfx : Prefixes) (d : BitVec 5)
    (aaa : BitVec 3) (z : Bool) (src : BitVec 5) :
    ∃ t, exec (.regForm c vl pfx d aaa z src) s = .next t ∧ t.getZmm d = s.registerResult c vl d aaa z src :=
  ⟨_, (exec_regForm c vl pfx d aaa z src s).trans (execRegister_of_ready hr), by
    rw [State.retire_getZmm, State.getZmm_setZmm_self]⟩

/-- Settles O37: no element is enabled, so nothing is checked, stored or converted. -/
theorem allZeroMask : Obligations.AllZeroMask := by
  intro c vl pfx d m aaa src s ha hk hr
  have hnone : ∀ j, j < vl.kl → ¬ s.ElementEnabled aaa j := fun j hj => by simp [State.ElementEnabled, ha, hk j hj]
  obtain ⟨t, ht, hres⟩ := exec_regForm_of_ready hr c pfx d aaa true src
  obtain ⟨t', ht', hres'⟩ := exec_regForm_of_ready hr c pfx d aaa false src
  refine ⟨⟨_, exec_memForm_of_none_enabled hnone hr c pfx m src⟩, ⟨t, ht, ?_⟩, t', ht', fun b hb => ?_, fun b hb => ?_⟩
  · rw [hres, registerResult_zeroing_of_none_enabled hnone]
  · simp [hres', registerResult_getLsbD_of_none_enabled hnone c d false src hb]
  · rw [hres', registerResult_high s c vl d aaa false src b hb]

/-! ## MemRead after MemWrite -/

/-- Byte `n` of a value above its bytes `n-1 .. 0` makes its bytes `n .. 0`. -/
theorem extractLsb'_append_low {w : Nat} (v : BitVec w) (n : Nat) :
    (v.extractLsb' (8 * n) 8 ++ v.extractLsb' 0 (8 * n)).cast (by omega) = v.extractLsb' 0 (8 * (n + 1)) := by
  rw [BitVec.extractLsb'_append_extractLsb'_eq_extractLsb' (by omega)]
  apply BitVec.eq_of_toNat_eq
  rw [BitVec.toNat_cast, BitVec.extractLsb'_toNat, BitVec.extractLsb'_toNat, Nat.mul_succ, Nat.add_comm]

/-- Where memory holds the bytes of a value, MemRead gives as many of its low bytes as it reads (20_memory.md R39). -/
theorem Memory.readLE_of_bytes (is64 : Bool) (m : Memory) (a : QWord) {w : Nat} (v : BitVec w) (n : Nat)
    (h : ∀ i, i < n → m.read (byteAddr is64 a i).toNat = some (v.extractLsb' (8 * i) 8)) :
    m.readLE is64 a n = some (v.extractLsb' 0 (8 * n)) := by
  induction n with
  | zero => simp [Memory.readLE]
  | succ n ih =>
    have hlow := ih fun i hi => h i (Nat.lt_succ_of_lt hi)
    have htop := h n (Nat.lt_succ_self n)
    simp only [Memory.readLE, hlow, htop, extractLsb'_append_low]

/-- Settles O41. -/
theorem memReadAfterMemWrite : Obligations.MemReadAfterMemWrite := by
  intro is64 m a n v hn
  rw [Memory.readLE_of_bytes is64 _ a v n fun i hi => Memory.writeLE_read_self is64 m a n v i hn hi]
  simp

/-! ## What stops a store -/

theorem mem_enabledBytes_of_enabled {s : State} {vl : VL} {aaa : BitVec 3} {j b : Nat} (hj : j < vl.kl)
    (hen : s.ElementEnabled aaa j) (hb : b < 2) : 2 * j + b ∈ s.enabledBytes vl aaa :=
  (mem_enabledBytes s vl aaa _).2 ⟨j, ⟨hj, hen⟩, by omega⟩

/-- A ready memory form whose store is stopped ends as the stop says. -/
theorem exec_memForm_of_stop {s : State} {vl : VL} {pfx : Prefixes} {m : MemOperand} {aaa : BitVec 3} {e : Stop}
    (hr : s.Ready vl) (hs : s.storeStop vl pfx m aaa = some e) (c : Conversion) (src : BitVec 5) :
    exec (.memForm c vl pfx m aaa src) s = e.outcome := by
  simp [exec_memForm, execMemory, (checkEnabled_eq_none_iff s vl).2 hr, hs]

/-- A memory fault comes before the other stops of a store (60_exceptions.md R122). -/
theorem exec_memForm_of_memoryFault {s : State} {vl : VL} {pfx : Prefixes} {m : MemOperand} {aaa : BitVec 3}
    {e : Exception} (hr : s.Ready vl) (hf : s.memoryFault vl pfx m aaa = some e) (c : Conversion) (src : BitVec 5) :
    exec (.memForm c vl pfx m aaa src) s = .fault (.exception e) :=
  exec_memForm_of_stop (e := .fault (.exception e)) hr (by rw [State.storeStop, hf]) c src

/-! ## Segment and canonical violations -/

/-- A segment or canonical violation of one enabled byte is the fault of the store, whatever the other bytes do. -/
theorem memoryFault_of_segmentViolation {s : State} {vl : VL} {pfx : Prefixes} {m : MemOperand} {aaa : BitVec 3}
    {i : Nat} (hi : i ∈ s.enabledBytes vl aaa) (hv : s.segmentViolation vl pfx m i = true) :
    s.memoryFault vl pfx m aaa = some (s.segmentException pfx m) := by
  rw [State.memoryFault, if_pos (List.any_eq_true.2 ⟨i, hi, hv⟩)]

/-- The fault of a violation at an enabled byte: #SS(0) through SS, else #GP(0) (60_exceptions.md R117, R118). -/
theorem exec_memForm_of_segmentViolation {s : State} {vl : VL} {pfx : Prefixes} {m : MemOperand} {aaa : BitVec 3}
    {j b : Nat} (hr : s.Ready vl) (hj : j < vl.kl) (hen : s.ElementEnabled aaa j) (hb : b < 2)
    (hv : s.segmentViolation vl pfx m (2 * j + b) = true) (c : Conversion) (src : BitVec 5) :
    (s.accessSegment pfx m = .ss → exec (.memForm c vl pfx m aaa src) s = .fault (.exception .ss0)) ∧
    (s.accessSegment pfx m ≠ .ss → exec (.memForm c vl pfx m aaa src) s = .fault (.exception .gp0)) := by
  have hexec := exec_memForm_of_memoryFault hr
    (memoryFault_of_segmentViolation (mem_enabledBytes_of_enabled hj hen hb) hv) c src
  constructor <;> intro hss <;> simpa [State.segmentException, hss] using hexec

theorem segmentViolation_of_is64 {s : State} (h : s.is64 = true) (vl : VL) (pfx : Prefixes) (m : MemOperand) (i : Nat) :
    s.segmentViolation vl pfx m i = !s.canonical (s.operandByte vl pfx m i) := by
  simp [State.segmentViolation, h]

/-- Settles O47. -/
theorem nonCanonicalStoreFaults : Obligations.NonCanonicalStoreFaults := by
  intro c vl pfx m aaa src s j b hm hr hj hen hb hc
  refine exec_memForm_of_segmentViolation hr hj hen hb ?_ c src
  rw [segmentViolation_of_is64 (State.is64_eq_true hm), hc]
  rfl

/-- A selector with bits 15:2 zero is null. -/
theorem Segment.isNull_of_lt {g : Segment} (h : g.selector.toNat < 4) : g.isNull = true := by
  rw [Segment.isNull, beq_iff_eq]
  apply BitVec.eq_of_toNat_eq
  simp [BitVec.extractLsb'_toNat, Nat.shiftRight_eq_div_pow, Nat.div_eq_of_lt h]

/-- The model's SegCheck32 in integers (log 9). -/
theorem Segment.violated_of {g : Segment} {ea : QWord}
    (h : g.limit.toNat < ea.toNat % 2 ^ 32 ∨ g.writable = false ∨ g.selector.toNat < 4) : g.violated ea = true := by
  rcases h with hl | hw | hn
  · rw [← BitVec.toNat_setWidth, ← BitVec.lt_def] at hl
    simp [Segment.violated, hl]
  · simp [Segment.violated, hw]
  · simp [Segment.violated, Segment.isNull_of_lt hn]

theorem segmentViolation_of_not_is64 {s : State} (h : s.is64 = false) (vl : VL) (pfx : Prefixes) (m : MemOperand)
    (i : Nat) : s.segmentViolation vl pfx m i =
      (s.segment (s.accessSegment pfx m)).violated (byteAddr false (s.effectiveAddress vl pfx m) i) := by
  simp [State.segmentViolation, h]

/-- Settles O48. -/
theorem segmentCheck32 : Obligations.SegmentCheck32 := by
  intro c vl pfx m aaa src s j b hm hr hj hen hb hv
  refine exec_memForm_of_segmentViolation hr hj hen hb ?_ c src
  rw [segmentViolation_of_not_is64 (State.is64_eq_false (by simp [hm]))]
  apply Segment.violated_of
  rwa [byteAddr_false_toNat, Nat.mod_mod]

/-! ## Page faults -/

/-- The bits of the error code that 60_exceptions.md R119 fixes: P, W/R, U/S and I/D. -/
theorem pageFaultCode_bits (s : State) (a : QWord) :
    (s.pageFaultCode a).getLsbD 0 = s.mapped a ∧ (s.pageFaultCode a).getLsbD 1 = true ∧
      (s.pageFaultCode a).getLsbD 2 = (s.cpl == 3#2) ∧ (s.pageFaultCode a).getLsbD 4 = false := by
  unfold State.pageFaultCode
  cases s.mapped a <;> by_cases hc : s.cpl = 3#2 <;> simp [hc]

theorem isStoredByte_of_mem_enabledBytes {s : State} {vl : VL} {aaa : BitVec 3} {i : Nat} (pfx : Prefixes)
    (m : MemOperand) (h : i ∈ s.enabledBytes vl aaa) : s.IsStoredByte vl pfx m aaa (s.operandByte vl pfx m i).toNat := by
  obtain ⟨j, ⟨hj, hen⟩, rfl | rfl⟩ := (mem_enabledBytes s vl aaa i).1 h
  · exact ⟨j, hj, hen, .inl rfl⟩
  · exact ⟨j, hj, hen, .inr rfl⟩

/-- Where no enabled byte has a violation and one is not writable, the fault is a page fault at an enabled byte that is not
writable (60_exceptions.md R119). -/
theorem memoryFault_of_not_writable {s : State} {vl : VL} {pfx : Prefixes} {m : MemOperand} {aaa : BitVec 3} {i : Nat}
    (hv : ∀ k ∈ s.enabledBytes vl aaa, s.segmentViolation vl pfx m k = false) (hi : i ∈ s.enabledBytes vl aaa)
    (hw : s.writable (s.operandByte vl pfx m i) = false) :
    ∃ k ∈ s.enabledBytes vl aaa, s.writable (s.operandByte vl pfx m k) = false ∧ s.memoryFault vl pfx m aaa =
      some (.pf (s.pageFaultCode (s.operandByte vl pfx m k)) (s.operandByte vl pfx m k)) := by
  cases hf : s.memoryFault vl pfx m aaa with
  | none => simp [((memoryFault_eq_none_iff s vl pfx m aaa).1 hf i hi).2] at hw
  | some e =>
    rcases memoryFault_eq_some s vl pfx m aaa e hf with ⟨-, k, hk, hviol⟩ | ⟨-, k, hk, hkw, rfl⟩
    · simp [hv k hk] at hviol
    · exact ⟨k, hk, hkw, rfl⟩

/-- Settles O49: the address is the drawn byte's, which is one of the candidates. -/
theorem pageFaultOfAStore : Obligations.PageFaultOfAStore := by
  intro c vl pfx m aaa src s j b hr hv hj hen hb hw
  have hv' := (forall_enabledBytes s vl aaa (s.segmentViolation vl pfx m · = false)).2 hv
  obtain ⟨k, hk, hkw, hf⟩ := memoryFault_of_not_writable hv' (mem_enabledBytes_of_enabled hj hen hb) hw
  obtain ⟨hp, hwr, hus, hid⟩ := pageFaultCode_bits s (s.operandByte vl pfx m k)
  exact ⟨_, _, exec_memForm_of_memoryFault hr hf c src, isStoredByte_of_mem_enabledBytes pfx m hk, hkw,
    hp, hwr, hus, hid, rfl, rfl⟩

/-! ## Alignment, and the refused stores -/

/-- With every element enabled a form stores to all its elements. -/
theorem enabledElements_length_of_all {s : State} {vl : VL} {aaa : BitVec 3}
    (h : ∀ j, j < vl.kl → s.ElementEnabled aaa j) : (s.enabledElements vl aaa).length = vl.kl := by
  rw [State.enabledElements, List.filter_eq_self.2 fun j hj => (enabled_iff s aaa j).2 (h j (List.mem_range.1 hj)),
    List.length_range]

theorem VL.kl_pos (vl : VL) : 0 < vl.kl := by cases vl <;> decide

/-- The unaligned store that 60_exceptions.md R120 settles: 4 or 8 bytes, every element enabled (log 12). -/
theorem alignmentStop_of_unaligned {s : State} {vl : VL} {pfx : Prefixes} {m : MemOperand} {aaa : BitVec 3}
    (hvl : vl ≠ .v512) (hac : s.alignmentChecking = true) (hla : (s.linearAddress vl pfx m).toNat % vl.operandBytes ≠ 0)
    (hall : ∀ j, j < vl.kl → s.ElementEnabled aaa j) :
    s.alignmentStop vl pfx m aaa = some (.fault (.exception .ac0)) := by
  have hlen := enabledElements_length_of_all hall
  have hne : s.enabledElements vl aaa ≠ [] := List.ne_nil_of_length_pos (hlen ▸ VL.kl_pos vl)
  simp [State.alignmentStop, hac, hne, hla, hvl, hlen]

/-- Settles O50. -/
theorem alignmentCheckOfAStore : Obligations.AlignmentCheckOfAStore := by
  intro c vl pfx m aaa src s hvl hr hac hla hall hadm
  have hbytes := (forall_enabledBytes s vl aaa (s.ByteStorable vl pfx m)).2 hadm
  have hfault : s.memoryFault vl pfx m aaa = none := (memoryFault_eq_none_iff s vl pfx m aaa).2 fun i hi =>
    have ⟨hseg, hwr, _⟩ := hbytes i hi
    ⟨hseg, hwr⟩
  refine exec_memForm_of_stop (e := .fault (.exception .ac0)) hr ?_ c src
  rw [State.storeStop, hfault, alignmentStop_of_unaligned hvl hac hla hall]

theorem storeRefusal_of_inProgram {s : State} {vl : VL} {pfx : Prefixes} {m : MemOperand} {aaa : BitVec 3} {i : Nat}
    (hi : i ∈ s.enabledBytes vl aaa) (hp : s.inProgram (s.operandByte vl pfx m i) = true) :
    s.storeRefusal vl pfx m aaa = some (.refuse .storeIntoProgram) := by
  rw [State.storeRefusal, if_pos (List.any_eq_true.2 ⟨i, hi, hp⟩)]

/-- A store to a device is refused, as such or because it also meets the program text. -/
theorem storeRefusal_of_isDevice {s : State} {vl : VL} {pfx : Prefixes} {m : MemOperand} {aaa : BitVec 3} {i : Nat}
    (hi : i ∈ s.enabledBytes vl aaa) (hd : s.isDevice (s.operandByte vl pfx m i) = true) :
    ∃ r, s.storeRefusal vl pfx m aaa = some (.refuse r) := by
  cases hs : s.storeRefusal vl pfx m aaa with
  | none => simp [((storeRefusal_eq_none_iff s vl pfx m aaa).1 hs i hi).2] at hd
  | some e =>
    rcases storeRefusal_eq_some s vl pfx m aaa e hs with rfl | rfl
    · exact ⟨_, rfl⟩
    · exact ⟨_, rfl⟩

/-- Settles O51: the faults and the alignment check pass, so the store is stopped by its refusal. -/
theorem programAndDeviceStoresAreRefused : Obligations.ProgramAndDeviceStoresAreRefused := by
  intro c vl pfx m aaa src s j b hr hal hok hj hen hb
  have hmem := mem_enabledBytes_of_enabled hj hen hb
  have hfault := (memoryFault_eq_none_iff s vl pfx m aaa).2
    ((forall_enabledBytes s vl aaa _).2 fun i hi he => ⟨hok i hi he 0 (by decide), hok i hi he 1 (by decide)⟩)
  have hstop : s.storeStop vl pfx m aaa = s.storeRefusal vl pfx m aaa := by
    rw [State.storeStop, hfault, alignmentStop_of_accepted s vl pfx m aaa hal]
  refine ⟨fun hp => ?_, fun hd => ?_⟩
  · exact exec_memForm_of_stop hr (hstop.trans (storeRefusal_of_inProgram hmem hp)) c src
  · obtain ⟨r, hrefuse⟩ := storeRefusal_of_isDevice hmem hd
    exact ⟨r, exec_memForm_of_stop hr (hstop.trans hrefuse) c src⟩

/-! ## The stops before a fetch -/

/-- Only a 16-bit code segment has no rules to decode by (60_exceptions.md R127). -/
theorem decodeMode_eq_none_iff (s : State) : s.decodeMode = none ↔ s.mode = .code16 := by
  unfold State.decodeMode
  cases s.mode <;> simp

theorem textLeft_of_not_inProgram {s : State} (h : s.inProgram (s.codeAddress 0) = false) : s.textLeft = 0 := by
  unfold State.textLeft
  cases s.program with
  | none => rfl
  | some t => simp [h]

/-- A machine that fetches outside the program text needs a first byte and has none. -/
theorem step_of_not_inProgram {s : State} {mode : DecodeMode} (hf : s.Fetches mode)
    (h : s.inProgram (s.codeAddress 0) = false) : step s = .refused .outsideProgram :=
  step_of_text_ended (mode := mode) (bs := [])
    ⟨hf, Nat.zero_le _, fun _ hj => absurd hj (Nat.not_lt_zero _), .inl rfl⟩ (textLeft_of_not_inProgram h).symm

/-- Settles O6: the tests of the fetch in their order, and then the empty window. -/
theorem stepStopsBeforeFetch : Obligations.StepStopsBeforeFetch := by
  intro s
  refine ⟨fun hend => ?_, fun hend hdbg => ?_, fun hend hdbg hac => ?_, fun hend hdbg hac hm => ?_,
    fun hend hdbg hac hm hp => ?_⟩
  · exact step_of_fetch_stop (e := .refuse .runEnded) (by simp [State.fetch, hend])
  · exact step_of_fetch_stop (e := .refuse .debugArmed) (by simp [State.fetch, hend, hdbg])
  · exact step_of_fetch_stop (e := .refuse .alignmentCheckingOn) (by simp [State.fetch, hend, hdbg, hac])
  · have hmode := (decodeMode_eq_none_iff s).2 hm
    exact step_of_fetch_stop (e := .refuse .codeSegment16) (by simp [State.fetch, hend, hdbg, hac, hmode])
  · obtain ⟨mode, hmode⟩ := Option.ne_none_iff_exists'.1 (mt (decodeMode_eq_none_iff s).1 hm)
    exact step_of_not_inProgram ⟨hend, hdbg, hac, hmode⟩ hp

/-! ## The segment of an access, and linear addresses in 64-bit mode -/

/-- In 64-bit mode an override for CS, DS, ES or SS leaves the default segment (20_memory.md R36). -/
theorem accessSegment_of_ignored {s : State} {seg : SegReg} (h : s.is64 = true) (hfs : seg ≠ .fs) (hgs : seg ≠ .gs)
    (a : Bool) (m : MemOperand) : s.accessSegment ⟨some seg, a⟩ m = defaultSegment m := by
  cases seg with
  | fs => exact absurd rfl hfs
  | gs => exact absurd rfl hgs
  | es | cs | ss | ds => simp [State.accessSegment, h]

/-- An override for FS or GS counts in every mode, and any override outside 64-bit mode. -/
theorem accessSegment_of_named {s : State} {seg : SegReg} (h : seg = .fs ∨ seg = .gs ∨ s.mode ≠ .mode64) (a : Bool)
    (m : MemOperand) : s.accessSegment ⟨some seg, a⟩ m = seg := by
  rcases h with rfl | rfl | hm
  · rfl
  · rfl
  · exact accessSegment_of_override m (State.is64_eq_false hm) rfl

/-- Settles O44. -/
theorem segmentOfAnAccess : Obligations.SegmentOfAnAccess := by
  intro s a b index disp d
  refine ⟨?_, ?_, rfl, rfl, fun seg m => ⟨fun h => accessSegment_of_named h a m, fun hfs hgs hm => ?_⟩⟩
  · simp [State.accessSegment, defaultSegment, baseReg]
  · simp [State.accessSegment, defaultSegment, baseReg]
  · exact accessSegment_of_ignored (State.is64_eq_true hm) hfs hgs a m

theorem linearAddress_of_is64 {s : State} (h : s.is64 = true) (vl : VL) (pfx : Prefixes) (m : MemOperand) :
    s.linearAddress vl pfx m = s.segmentBase (s.accessSegment pfx m) + s.effectiveAddress vl pfx m := by
  simp [State.linearAddress, wrapAddr, h]

/-- The default segments, SS and DS, have no base in 64-bit mode. -/
theorem segmentBase_defaultSegment {s : State} (h : s.is64 = true) (m : MemOperand) :
    s.segmentBase (defaultSegment m) = 0 := by
  unfold defaultSegment
  split <;> simp [State.segmentBase, h]

/-- Where the segment of the access is the default one, the linear address is the effective address. -/
theorem linearAddress_of_defaultSegment {s : State} {pfx : Prefixes} {m : MemOperand} (h : s.is64 = true)
    (hseg : s.accessSegment pfx m = defaultSegment m) (vl : VL) :
    s.linearAddress vl pfx m = s.effectiveAddress vl pfx m := by
  rw [linearAddress_of_is64 h, hseg, segmentBase_defaultSegment h]
  exact BitVec.zero_add _

/-- Settles O45. -/
theorem linearAddress64 : Obligations.LinearAddress64 := by
  intro s vl a m seg hm
  have h64 := State.is64_eq_true hm
  refine ⟨?_, ?_, linearAddress_of_defaultSegment h64 rfl vl, fun hfs hgs => ?_⟩
  · simp [linearAddress_of_is64 h64, State.accessSegment, State.segmentBase, h64]
  · simp [linearAddress_of_is64 h64, State.accessSegment, State.segmentBase, h64]
  · have hseg := accessSegment_of_ignored h64 hfs hgs a m
    exact ⟨linearAddress_of_defaultSegment h64 hseg vl, hseg⟩

end Sys2Proof.Machine
end

section
/-! SUPPORT. What the decoder and the encoder do, step by step, what a step does with bytes that are no instruction, and the
effective address as an integer: the lemmas of the statements of 30_encoding.md, and their proofs. -/

namespace Sys2Proof.Machine

/-! ## Legacy prefixes -/

/-- What a classified byte counts as: a segment override, 67h, one of those that make the instruction #UD. -/
def prefixKind : PrefixByte → Bool × Bool × Bool
  | .segOverride _ => (true, false, false)
  | .addressSize => (false, true, false)
  | .forbidden => (false, false, true)
  | .notAPrefix => (false, false, false)

theorem prefixKind_classifyByte (mode : DecodeMode) (b : Byte) :
    prefixKind (classifyByte mode b) = (isOverride b, b == 0x67#8, isForbiddenPrefix mode b) := by
  cases mode <;> revert b <;> decide

/-- Step 1 of 30_encoding.md R84 tells bytes apart as R67 and R68 do. -/
theorem classifyByte_cases (mode : DecodeMode) (b : Byte) :
    (∃ s, classifyByte mode b = .segOverride s ∧ isOverride b = true ∧ b ≠ 0x67#8 ∧
      isForbiddenPrefix mode b = false) ∨
    (classifyByte mode b = .addressSize ∧ isOverride b = false ∧ b = 0x67#8 ∧ isForbiddenPrefix mode b = false) ∨
    (classifyByte mode b = .forbidden ∧ isOverride b = false ∧ b ≠ 0x67#8 ∧ isForbiddenPrefix mode b = true) ∨
    (classifyByte mode b = .notAPrefix ∧ ¬ IsPrefixByte mode b) := by
  have hk := (prefixKind_classifyByte mode b).symm
  cases hc : classifyByte mode b <;>
    simp only [hc, prefixKind, Prod.mk.injEq, beq_iff_eq, beq_eq_false_iff_ne] at hk
  case segOverride s => exact .inl ⟨s, rfl, hk⟩
  case addressSize => exact .inr (.inl ⟨rfl, hk⟩)
  case forbidden => exact .inr (.inr (.inl ⟨rfl, hk⟩))
  case notAPrefix => exact .inr (.inr (.inr ⟨rfl, by simp [IsPrefixByte, hk]⟩))

theorem classifyByte_of_not_isPrefixByte {mode : DecodeMode} {b : Byte} (h : ¬ IsPrefixByte mode b) :
    classifyByte mode b = .notAPrefix := by
  rcases classifyByte_cases mode b with ⟨s, -, ho, -⟩ | ⟨-, -, ha, -⟩ | ⟨-, -, -, hf⟩ | ⟨hc, -⟩
  · exact absurd (.inl ho) h
  · exact absurd (.inr (.inl ha)) h
  · exact absurd (.inr (.inr hf)) h
  · exact hc

theorem not_isPrefixByte_evex (mode : DecodeMode) : ¬ IsPrefixByte mode 0x62#8 := by
  cases mode <;> simp [IsPrefixByte, isOverride, isForbiddenPrefix]

/-- Reading prefixes that repeat neither a segment override nor 67h, those read before them counted too. -/
theorem readPrefixes_of_no_repeat {mode : DecodeMode} {b : Byte} (hb : ¬ IsPrefixByte mode b) (bs ps : List Byte)
    (p : Prefixes) (f : Bool) (hps : ∀ x ∈ ps, IsPrefixByte mode x)
    (hseg : p.seg.isSome.toNat + ps.countP isOverride ≤ 1) (haddr : p.addrSize.toNat + ps.count 0x67#8 ≤ 1) :
    ∃ q : Prefixes, (q.addrSize = true ↔ p.addrSize = true ∨ 0x67#8 ∈ ps) ∧
      readPrefixes mode p f (ps ++ b :: bs) = .done q (f || ps.any (isForbiddenPrefix mode)) (b :: bs) := by
  induction ps generalizing p f with
  | nil => exact ⟨p, by simp, by simp [readPrefixes, classifyByte_of_not_isPrefixByte hb]⟩
  | cons x xs ih =>
    have hxs : ∀ y ∈ xs, IsPrefixByte mode y := fun y hy => hps y (List.mem_cons_of_mem x hy)
    rcases classifyByte_cases mode x with ⟨s, hx, ho, ha, hf⟩ | ⟨hx, ho, rfl, hf⟩ | ⟨hx, ho, ha, hf⟩ | ⟨-, hx⟩
    · rw [List.countP_cons_of_pos ho] at hseg
      rw [List.count_cons_of_ne ha] at haddr
      have hp : p.seg.isSome = false := by
        cases hs : p.seg.isSome <;> simp [hs] at hseg ⊢
      rw [hp, Bool.toNat_false] at hseg
      obtain ⟨q, hq, hr⟩ := ih { p with seg := some s } f hxs
        (by simp only [Option.isSome_some, Bool.toNat_true]; omega) haddr
      exact ⟨q, by simpa [ha.symm] using hq, by simp [readPrefixes, hx, hp, hr, hf]⟩
    · rw [List.countP_cons_of_neg (by simp [ho])] at hseg
      rw [List.count_cons_self] at haddr
      have hp : p.addrSize = false := by
        cases hs : p.addrSize <;> simp [hs] at haddr ⊢
      rw [hp, Bool.toNat_false] at haddr
      obtain ⟨q, hq, hr⟩ := ih { p with addrSize := true } f hxs hseg (by simp only [Bool.toNat_true]; omega)
      exact ⟨q, by simpa using hq, by simp [readPrefixes, hx, hp, hr, hf]⟩
    · rw [List.countP_cons_of_neg (by simp [ho])] at hseg
      rw [List.count_cons_of_ne ha] at haddr
      obtain ⟨q, hq, hr⟩ := ih p true hxs hseg haddr
      exact ⟨q, by simpa [ha.symm] using hq, by simp [readPrefixes, hx, hr, hf]⟩
    · exact absurd (hps x List.mem_cons_self) hx

/-- Reading prefixes that repeat a segment override or 67h, those read before them counted too. -/
theorem readPrefixes_of_repeat {mode : DecodeMode} (ps rest : List Byte) (p : Prefixes) (f : Bool)
    (hps : ∀ x ∈ ps, IsPrefixByte mode x)
    (h : 2 ≤ p.seg.isSome.toNat + ps.countP isOverride ∨ 2 ≤ p.addrSize.toNat + ps.count 0x67#8) :
    readPrefixes mode p f (ps ++ rest) = .refuse .repeatedPrefix := by
  induction ps generalizing p f with
  | nil =>
    have := p.seg.isSome.toNat_le
    have := p.addrSize.toNat_le
    simp at h
    omega
  | cons x xs ih =>
    have hxs : ∀ y ∈ xs, IsPrefixByte mode y := fun y hy => hps y (List.mem_cons_of_mem x hy)
    rcases classifyByte_cases mode x with ⟨s, hx, ho, ha, -⟩ | ⟨hx, ho, rfl, -⟩ | ⟨hx, ho, ha, -⟩ | ⟨-, hx⟩
    · rw [List.countP_cons_of_pos ho, List.count_cons_of_ne ha] at h
      cases hp : p.seg.isSome with
      | true => simp [readPrefixes, hx, hp]
      | false =>
        rw [hp, Bool.toNat_false] at h
        simpa [readPrefixes, hx, hp] using ih { p with seg := some s } f hxs
          (by simp only [Option.isSome_some, Bool.toNat_true]; omega)
    · rw [List.countP_cons_of_neg (by simp [ho]), List.count_cons_self] at h
      cases hp : p.addrSize with
      | true => simp [readPrefixes, hx, hp]
      | false =>
        rw [hp, Bool.toNat_false] at h
        simpa [readPrefixes, hx, hp] using ih { p with addrSize := true } f hxs
          (by simp only [Bool.toNat_true]; omega)
    · rw [List.countP_cons_of_neg (by simp [ho]), List.count_cons_of_ne ha] at h
      simpa [readPrefixes, hx] using ih p true hxs h
    · exact absurd (hps x List.mem_cons_self) hx

/-- The record of a forbidden one is kept to the end. -/
theorem readPrefixes_forbidden {mode : DecodeMode} {bs rest : List Byte} {p q : Prefixes} {g : Bool}
    (h : readPrefixes mode p true bs = .done q g rest) : g = true := by
  induction bs generalizing p with
  | nil => cases h
  | cons b bs ih =>
    unfold readPrefixes at h
    split at h
    · split at h
      · cases h
      · exact ih h
    · split at h
      · cases h
      · exact ih h
    · exact ih h
    · cases h
      rfl

/-- Where none of the forbidden ones was read, the prefixes are the bytes they count (30_encoding.md R65, `npfx`). -/
theorem readPrefixes_length {mode : DecodeMode} {bs rest : List Byte} {p q : Prefixes} {f : Bool}
    (h : readPrefixes mode p f bs = .done q false rest) : p.length + bs.length = q.length + rest.length := by
  induction bs generalizing p f with
  | nil => cases h
  | cons b bs ih =>
    unfold readPrefixes at h
    split at h
    · split at h
      · cases h
      · rename_i hs
        have := ih h
        simp [Prefixes.length, hs] at this ⊢
        omega
    · split at h
      · cases h
      · rename_i hs
        have := ih h
        simp [Prefixes.length, hs] at this ⊢
        omega
    · exact absurd (readPrefixes_forbidden h) (by simp)
    · cases h
      rfl

/-! ## The header: steps 1 to 3 of 30_encoding.md R84 -/

theorem isBound_eq_false_iff (mode : DecodeMode) (p0 : Byte) :
    isBound mode p0 = false ↔ mode = .mode64 ∨ p0.extractLsb' 6 2 = 0b11#2 := by
  simp only [isBound, Bool.and_eq_false_iff, bne_eq_false_iff_eq]

/-- After prefixes without a repetition comes step 2. -/
theorem readHeader_prefixBytes {mode : DecodeMode} {ps : List Byte} {b : Byte} (hps : PrefixBytes mode ps)
    (hb : ¬ IsPrefixByte mode b) (bs : List Byte) :
    ∃ q : Prefixes, (q.addrSize = true ↔ 0x67#8 ∈ ps) ∧
      readHeader mode (ps ++ b :: bs) = readEvex mode q (ps.any (isForbiddenPrefix mode)) (b :: bs) := by
  obtain ⟨hall, hseg, haddr⟩ := hps
  obtain ⟨q, hq, hr⟩ := readPrefixes_of_no_repeat hb bs ps ⟨none, false⟩ false hall (by simpa using hseg)
    (by simpa using haddr)
  exact ⟨q, by simpa using hq, by simp [readHeader, hr]⟩

/-- The EVEX bytes of the group are read as they stand. -/
theorem readEvex_evexBytes {mode : DecodeMode} {p0 p1 : Byte} (h : InGroup mode p0 p1) (q : Prefixes) (f : Bool)
    (p2 : Byte) (c : Conversion) (rest : List Byte) :
    readEvex mode q f (evexBytes p0 p1 p2 c rest) = .header ⟨q, f, p0, p1, p2, c, rest⟩ := by
  obtain ⟨hbound, hmm, hpp⟩ := h
  simp [readEvex, evexBytes, (isBound_eq_false_iff mode p0).2 hbound, readOpcode, mmField, hmm, ppField, hpp,
    conversionOf_opcode]

/-- Prefixes and the EVEX bytes of the group are read as a header. -/
theorem readHeader_evexBytes {mode : DecodeMode} {ps : List Byte} {p0 p1 : Byte} (hps : PrefixBytes mode ps)
    (hg : InGroup mode p0 p1) (p2 : Byte) (c : Conversion) (rest : List Byte) :
    ∃ q : Prefixes, (q.addrSize = true ↔ 0x67#8 ∈ ps) ∧
      readHeader mode (ps ++ evexBytes p0 p1 p2 c rest) =
        .header ⟨q, ps.any (isForbiddenPrefix mode), p0, p1, p2, c, rest⟩ := by
  obtain ⟨q, hq, hr⟩ := readHeader_prefixBytes hps (not_isPrefixByte_evex mode) (p0 :: p1 :: p2 :: c.opcode :: rest)
  exact ⟨q, hq, hr.trans (readEvex_evexBytes hg q _ p2 c rest)⟩

theorem opcode_of_conversionOf {op : Byte} {c : Conversion} (h : conversionOf op = some c) : op = c.opcode := by
  unfold conversionOf at h
  split at h
  · cases h
    assumption
  · split at h
    · cases h
      assumption
    · split at h
      · cases h
        assumption
      · cases h

/-- What steps 2 and 3 read as a header are EVEX bytes of the group. -/
theorem readEvex_eq_header {mode : DecodeMode} {q : Prefixes} {f : Bool} {bs : List Byte} {h : Header}
    (hr : readEvex mode q f bs = .header h) :
    bs = evexBytes h.p0 h.p1 h.p2 h.conv h.rest ∧ InGroup mode h.p0 h.p1 ∧ h.pfx = q ∧ h.forbidden = f := by
  unfold readEvex at hr
  split at hr
  · split at hr
    · rename_i hb
      subst hb
      split at hr
      · split at hr
        · cases hr
        · rename_i hbound
          unfold readOpcode at hr
          split at hr
          · split at hr
            · rename_i hm
              split at hr
              · rename_i hc
                cases hr
                exact ⟨by rw [evexBytes, opcode_of_conversionOf hc],
                  ⟨(isBound_eq_false_iff _ _).1 (by simpa using hbound), hm⟩, rfl, rfl⟩
              · cases hr
            · cases hr
          · cases hr
      · cases hr
    · cases hr
  · cases hr

/-- A header read without any of the forbidden prefixes takes its prefixes and the five bytes from 62h to the opcode. -/
theorem readHeader_eq_header {mode : DecodeMode} {bs : List Byte} {h : Header} (hr : readHeader mode bs = .header h) :
    InGroup mode h.p0 h.p1 ∧ (h.forbidden = false → bs.length = h.pfx.length + 5 + h.rest.length) := by
  unfold readHeader at hr
  split at hr
  · rename_i q f rest hp
    obtain ⟨hrest, hg, hq, hf⟩ := readEvex_eq_header hr
    refine ⟨hg, fun hforb => ?_⟩
    rw [← hf, hforb] at hp
    have hlen := readPrefixes_length hp
    rw [hrest, ← hq] at hlen
    simp [evexBytes, Prefixes.length] at hlen ⊢
    omega
  · cases hr
  · cases hr

/-! ## The decoder after the header: steps 4 to 8 of 30_encoding.md R84 -/

/-- No #UD condition of steps 4 and 5. -/
theorem headerUd_eq_false_iff (h : Header) :
    headerUd h = false ↔ h.forbidden = false ∧ h.p0.extractLsb' 2 2 = 0b00#2 ∧ h.p1.getLsbD 2 = true ∧
      h.p1.getLsbD 7 = false ∧ vvvvField h.p1 = 0b1111#4 ∧ h.p2.getLsbD 3 = true ∧ (vlField h.p2).isSome = true ∧
      h.p2.getLsbD 4 = false ∧ (zField h.p2 = true → aaaField h.p2 ≠ 0#3) := by
  cases hv : vlField h.p2 <;> simp [headerUd, hv, and_assoc]

/-- `L'L = 11b` is the one value without a vector length (30_encoding.md R58). -/
theorem vlField_eq_none_iff (p2 : Byte) : vlField p2 = none ↔ p2.extractLsb' 5 2 = 0b11#2 := by
  revert p2; decide

theorem decode_of_readHeader_refuse {mode : DecodeMode} {bs : List Byte} {r : DecodeRefusal}
    (h : readHeader mode bs = .refuse r) : decode mode bs = .refuse r := by
  simp [decode, h]

theorem decode_of_headerUd {mode : DecodeMode} {bs : List Byte} {h : Header} (hr : readHeader mode bs = .header h)
    (hu : mode = .realOrV86 ∨ headerUd h = true) : decode mode bs = .ud := by
  simp [decode, hr, hu]

theorem decode_of_header {mode : DecodeMode} {bs : List Byte} {h : Header} {vl : VL}
    (hr : readHeader mode bs = .header h) (hm : mode ≠ .realOrV86) (hu : headerUd h = false)
    (hv : vlField h.p2 = some vl) : decode mode bs = readOperands mode h vl h.rest := by
  simp [decode, hr, hm, hu, hv]

/-- Everything the decoder went through where it answers an instruction. -/
theorem decode_eq_instr {mode : DecodeMode} {bs rest : List Byte} {i : Instr} (hd : decode mode bs = .instr i rest) :
    ∃ (h : Header) (vl : VL), readHeader mode bs = .header h ∧ mode ≠ .realOrV86 ∧ headerUd h = false ∧
      readOperands mode h vl h.rest = .instr i rest := by
  unfold decode at hd
  split at hd
  · cases hd
  · cases hd
  · rename_i h hr
    split at hd
    · cases hd
    · rename_i hu
      rw [not_or, Bool.not_eq_true] at hu
      split at hd
      · cases hd
      · rename_i vl _
        exact ⟨h, vl, hr, hu.1, hu.2, hd⟩

/-! ## The operands: step 6 of 30_encoding.md R84 -/

theorem takeDisp32_length {bs rest : List Byte} {d : BitVec 32} (h : takeDisp32 bs = some (d, rest)) :
    bs.length = 4 + rest.length := by
  unfold takeDisp32 at h
  split at h
  · cases h
    simp
    omega
  · cases h

theorem takeDisp32_isSome {bs : List Byte} (h : 4 ≤ bs.length) : (takeDisp32 bs).isSome = true := by
  match bs with
  | _ :: _ :: _ :: _ :: _ => rfl

/-- A displacement has its own length, and only `mod = 00b` means none (30_encoding.md R61). -/
theorem takeDisp_eq_some {mod : BitVec 2} {bs rest : List Byte} {d : Disp} (h : takeDisp mod bs = some (d, rest)) :
    bs.length = d.length + rest.length ∧ (d = .none → mod = 0b00#2) := by
  unfold takeDisp at h
  split at h
  · rename_i hm
    cases h
    exact ⟨by simp [Disp.length], fun _ => hm⟩
  · split at h
    · split at h
      · cases h
        exact ⟨by simp [Disp.length]; omega, by simp⟩
      · cases h
    · obtain ⟨⟨d', r⟩, hd, he⟩ := Option.map_eq_some_iff.1 h
      cases he
      exact ⟨takeDisp32_length hd, by simp⟩

/-- Every operand `readMem` reads, with the bytes it takes: the four shapes of 30_encoding.md R61 and R62. -/
theorem readMem_cases {p0 modrm : Byte} {bs rest : List Byte} {m : MemOperand}
    (h : readMem p0 modrm bs = some (m, rest)) :
    (∃ d, m = .dispOnly d ∧ takeDisp32 bs = some (d, rest)) ∨
    (∃ d, m = .base (invertedBit p0 5 ++ rmField modrm) d ∧ rmField modrm ≠ 0b100#3 ∧
      ¬ (modField modrm = 0b00#2 ∧ rmField modrm = 0b101#3) ∧ takeDisp (modField modrm) bs = some (d, rest)) ∨
    (∃ sib tail d, bs = sib :: tail ∧ m = .sib (invertedBit p0 5 ++ rmField sib) (sibIndex p0 sib) d ∧
      ¬ (rmField sib = 0b101#3 ∧ modField modrm = 0b00#2) ∧ takeDisp (modField modrm) tail = some (d, rest)) ∨
    (∃ sib tail d, bs = sib :: tail ∧ m = .sibNoBase (sibIndex p0 sib) d ∧ takeDisp32 tail = some (d, rest)) := by
  unfold readMem at h
  split at h
  · unfold readSib at h
    split at h
    · rename_i sib tail
      split at h
      · obtain ⟨⟨d, r⟩, hd, he⟩ := Option.map_eq_some_iff.1 h
        cases he
        exact .inr (.inr (.inr ⟨sib, tail, d, rfl, rfl, hd⟩))
      · rename_i hb
        obtain ⟨⟨d, r⟩, hd, he⟩ := Option.map_eq_some_iff.1 h
        cases he
        exact .inr (.inr (.inl ⟨sib, tail, d, rfl, rfl, hb, hd⟩))
    · cases h
  · rename_i hrm
    split at h
    · obtain ⟨⟨d, r⟩, hd, he⟩ := Option.map_eq_some_iff.1 h
      cases he
      exact .inl ⟨d, rfl, hd⟩
    · rename_i hb
      obtain ⟨⟨d, r⟩, hd, he⟩ := Option.map_eq_some_iff.1 h
      cases he
      exact .inr (.inl ⟨d, rfl, hrm, hb, hd⟩)

/-- A memory operand takes its own SIB and displacement bytes (30_encoding.md R65). -/
theorem readMem_length {p0 modrm : Byte} {bs rest : List Byte} {m : MemOperand}
    (h : readMem p0 modrm bs = some (m, rest)) : bs.length = m.length + rest.length := by
  rcases readMem_cases h with ⟨d, rfl, hd⟩ | ⟨d, rfl, -, -, hd⟩ | ⟨sib, tail, d, rfl, rfl, -, hd⟩ |
    ⟨sib, tail, d, rfl, rfl, hd⟩
  · exact takeDisp32_length hd
  · exact (takeDisp_eq_some hd).1
  · have := (takeDisp_eq_some hd).1
    simp only [List.length_cons, MemOperand.length]
    omega
  · have := takeDisp32_length hd
    simp only [List.length_cons, MemOperand.length]
    omega

/-! ### The register numbers that are read -/

theorem generalNumber_low (x : BitVec 1) (r : BitVec 3) : (x ++ r).extractLsb' 0 3 = r := by revert x r; decide

theorem generalNumber_high (x : BitVec 1) (r : BitVec 3) : (x ++ r).extractLsb' 3 1 = x := by revert x r; decide

theorem invertedBit_of_set {b : Byte} {n : Nat} (h : b.getLsbD n = true) : invertedBit b n = 0#1 := by
  simp [invertedBit, h]

/-- Register number 4 is never read as an index (30_encoding.md R62). -/
theorem indexOk_sibIndex (p0 sib : Byte) : indexOk (sibIndex p0 sib) = true := by
  unfold sibIndex
  split
  · rfl
  · simpa [indexOk]

theorem indexLow_sibIndex {p0 : Byte} (hX : p0.getLsbD 6 = true) (sib : Byte) : indexLow (sibIndex p0 sib) = true := by
  unfold sibIndex
  split
  · rfl
  · simp [indexLow, generalNumber_high, invertedBit_of_set hX]

/-- The displacement read after a base register is one that the register admits. -/
theorem presentFor101_of_takeDisp {mod : BitVec 2} {bs rest : List Byte} {d : Disp} {x : BitVec 1} {rm : BitVec 3}
    (h : takeDisp mod bs = some (d, rest)) (hb : ¬ (rm = 0b101#3 ∧ mod = 0b00#2)) :
    d.presentFor101 (x ++ rm) = true := by
  by_cases hrm : rm = 0b101#3
  · have hd : d ≠ .none := fun hd => hb ⟨hrm, (takeDisp_eq_some h).2 hd⟩
    simp [Disp.presentFor101, hd]
  · simp [Disp.presentFor101, generalNumber_low, hrm]

/-- What is read has an encoding. -/
theorem readMem_encodable {p0 modrm : Byte} {bs rest : List Byte} {m : MemOperand}
    (h : readMem p0 modrm bs = some (m, rest)) : m.encodable = true := by
  rcases readMem_cases h with ⟨d, rfl, -⟩ | ⟨d, rfl, hrm, hb, hd⟩ | ⟨sib, tail, d, -, rfl, hb, hd⟩ |
    ⟨sib, tail, d, -, rfl, -⟩
  · rfl
  · simp [MemOperand.encodable, generalNumber_low, hrm, presentFor101_of_takeDisp hd (mt And.symm hb)]
  · simp [MemOperand.encodable, indexOk_sibIndex, presentFor101_of_takeDisp hd hb]
  · exact indexOk_sibIndex p0 sib

/-- With stored X̄ = 1 and B̄ = 1 only the general registers 0 to 7 are read. -/
theorem readMem_low {p0 modrm : Byte} {bs rest : List Byte} {m : MemOperand} (hX : p0.getLsbD 6 = true)
    (hB : p0.getLsbD 5 = true) (h : readMem p0 modrm bs = some (m, rest)) : m.low = true := by
  rcases readMem_cases h with ⟨d, rfl, -⟩ | ⟨d, rfl, -⟩ | ⟨sib, tail, d, -, rfl, -⟩ | ⟨sib, tail, d, -, rfl, -⟩
  · rfl
  · simp [MemOperand.low, generalNumber_high, invertedBit_of_set hB]
  · simp [MemOperand.low, generalNumber_high, invertedBit_of_set hB, indexLow_sibIndex hX]
  · exact indexLow_sibIndex hX sib

/-- A vector register that the mode names: in 32-bit mode the bits above the low three are 0 (10_state.md R20). -/
theorem vectorReachable_iff (mode : DecodeMode) (r : BitVec 5) :
    vectorReachable mode r = true ↔ mode = .mode64 ∨ r.getLsbD 3 = false ∧ r.getLsbD 4 = false := by
  cases mode <;> revert r <;> decide

theorem vectorReachable_join {mode : DecodeMode} {x b : BitVec 1} (r : BitVec 3)
    (h : mode ≠ .mode64 → x = 0#1 ∧ b = 0#1) : vectorReachable mode (x ++ b ++ r) = true := by
  by_cases hm : mode = .mode64
  · exact (vectorReachable_iff mode _).2 (.inl hm)
  · obtain ⟨rfl, rfl⟩ := h hm
    exact (vectorReachable_iff mode _).2 (.inr (by revert r; decide))

/-- Every instruction steps 6 to 8 read. -/
theorem readOperands_eq_instr {mode : DecodeMode} {h : Header} {vl : VL} {bs rest : List Byte} {i : Instr}
    (hr : readOperands mode h vl bs = .instr i rest) :
    mode32BitsOpen mode h.p0 = false ∧ ∃ modrm tail, bs = modrm :: tail ∧
      ((i.form = .reg h.conv vl h.pfx (destNumber h.p0 modrm) (aaaField h.p2) (zField h.p2) (sourceNumber h.p0 modrm) ∧
        rest = tail) ∨
       ∃ m, readMem h.p0 modrm tail = some (m, rest) ∧ (mode = .mode32 → h.pfx.addrSize = false) ∧
        i.form = .mem h.conv vl h.pfx m (aaaField h.p2) (sourceNumber h.p0 modrm)) := by
  unfold readOperands at hr
  split at hr
  · rename_i modrm tail
    split at hr
    · split at hr
      · cases hr
      · rename_i ho
        cases hr
        exact ⟨by simpa using ho, modrm, _, rfl, .inl ⟨regForm_form .., rfl⟩⟩
    · split at hr
      · cases hr
      · split at hr
        · cases hr
        · rename_i m _ hm
          split at hr
          · cases hr
          · rename_i ho
            split at hr
            · cases hr
            · rename_i ha
              cases hr
              exact ⟨by simpa using ho, modrm, tail, rfl, .inr ⟨m, hm, by simpa using ha, memForm_form ..⟩⟩
  · cases hr

/-! ## What the decoder reads -/

theorem wellFormed_of_reg {i : Instr} {c : Conversion} {vl : VL} {pfx : Prefixes} {d : BitVec 5} {aaa : BitVec 3}
    {z : Bool} {src : BitVec 5} (hi : i.form = .reg c vl pfx d aaa z src) (mode : DecodeMode) :
    WellFormed mode i = true ↔ mode ≠ .realOrV86 ∧ (z = true → aaa ≠ 0#3) ∧ vectorReachable mode d = true ∧
      vectorReachable mode src = true := by
  cases mode <;> cases z <;> simp [WellFormed, hi, and_assoc]

theorem wellFormed_of_mem {i : Instr} {c : Conversion} {vl : VL} {pfx : Prefixes} {m : MemOperand} {aaa : BitVec 3}
    {src : BitVec 5} (hi : i.form = .mem c vl pfx m aaa src) (mode : DecodeMode) :
    WellFormed mode i = true ↔ mode ≠ .realOrV86 ∧ m.encodable = true ∧ vectorReachable mode src = true ∧
      (mode = .mode32 → m.low = true ∧ pfx.addrSize = false) := by
  cases mode <;> simp [WellFormed, hi]
  tauto

/-- In 32-bit mode P0 of the group that leaves no register bit open has all four inverted register bits set
(30_encoding.md R66). -/
theorem p0_bits_of_mode32 {mode : DecodeMode} {p0 p1 : Byte} (hm : mode ≠ .realOrV86) (hg : InGroup mode p0 p1)
    (ho : mode32BitsOpen mode p0 = false) (h64 : mode ≠ .mode64) :
    p0.getLsbD 7 = true ∧ p0.getLsbD 6 = true ∧ p0.getLsbD 5 = true ∧ p0.getLsbD 4 = true := by
  have h32 : mode = .mode32 := by cases mode <;> simp at hm h64 ⊢
  subst h32
  have htop : p0.extractLsb' 6 2 = 0b11#2 := hg.1.resolve_left h64
  clear hg
  revert p0
  decide

/-- What is decoded is well-formed. -/
theorem wellFormed_of_decode {mode : DecodeMode} {bs rest : List Byte} {i : Instr}
    (hd : decode mode bs = .instr i rest) : WellFormed mode i = true := by
  obtain ⟨h, vl, hr, hm, hu, ho⟩ := decode_eq_instr hd
  obtain ⟨hopen, modrm, tail, -, hop⟩ := readOperands_eq_instr ho
  have hbits := p0_bits_of_mode32 hm (readHeader_eq_header hr).1 hopen
  have hsrc : vectorReachable mode (sourceNumber h.p0 modrm) = true := vectorReachable_join _ fun h64 => by
    obtain ⟨h7, -, -, h4⟩ := hbits h64
    exact ⟨invertedBit_of_set h4, invertedBit_of_set h7⟩
  rcases hop with ⟨hi, -⟩ | ⟨m, hmem, ha, hi⟩
  · obtain ⟨-, -, -, -, -, -, -, -, hz⟩ := (headerUd_eq_false_iff h).1 hu
    refine (wellFormed_of_reg hi mode).2 ⟨hm, hz, vectorReachable_join _ fun h64 => ?_, hsrc⟩
    obtain ⟨-, h6, h5, -⟩ := hbits h64
    exact ⟨invertedBit_of_set h6, invertedBit_of_set h5⟩
  · refine (wellFormed_of_mem hi mode).2 ⟨hm, readMem_encodable hmem, hsrc, fun h32 => ⟨?_, ha h32⟩⟩
    obtain ⟨-, h6, h5, -⟩ := hbits (by simp [h32])
    exact readMem_low h6 h5 hmem

/-- What is decoded takes the instruction's length (30_encoding.md R65). -/
theorem length_of_decode {mode : DecodeMode} {bs rest : List Byte} {i : Instr} (hd : decode mode bs = .instr i rest) :
    bs.length = i.length + rest.length := by
  obtain ⟨h, vl, hr, -, hu, ho⟩ := decode_eq_instr hd
  obtain ⟨hforb, -⟩ := (headerUd_eq_false_iff h).1 hu
  have hlen := (readHeader_eq_header hr).2 hforb
  obtain ⟨-, modrm, tail, htail, hop⟩ := readOperands_eq_instr ho
  rw [htail, List.length_cons] at hlen
  rcases hop with ⟨hi, rfl⟩ | ⟨m, hmem, -, hi⟩
  · simp only [Instr.length, hi, regLength]
    omega
  · have hm := readMem_length hmem
    simp only [Instr.length, hi, memLength]
    omega

/-- Settles O15: well-formed by the fields that were read, the rest by the length of what stands before it. -/
theorem decodedIsWellFormed : Obligations.DecodedIsWellFormed := by
  intro mode bs i rest hd
  have hlen := length_of_decode hd
  refine ⟨wellFormed_of_decode hd, ?_, by omega⟩
  obtain ⟨pre, rfl, -⟩ := decode_local mode bs i rest hd
  rw [List.drop_left' (by simp at hlen; omega)]

/-! ## The decoder reads what the encoder writes -/

/-- The register bits a mode has: outside 64-bit mode R, X, B and R' are 0 (30_encoding.md R66). -/
def RegisterBitsExist (mode : DecodeMode) (r x b r' : Bool) : Prop :=
  mode = .mode64 ∨ r = false ∧ x = false ∧ b = false ∧ r' = false

section
variable {mode : DecodeMode} {r x b r' : Bool}

theorem inGroup_encodeP0 (h : RegisterBitsExist mode r x b r') : InGroup mode (encodeP0 r x b r') 0x7E#8 := by
  refine ⟨?_, encodeP0_mm r x b r', by decide⟩
  rcases h with h | ⟨rfl, rfl, -, -⟩
  · exact .inl h
  · exact .inr (encodeP0_top ..)

theorem mode32BitsOpen_encodeP0 (h : RegisterBitsExist mode r x b r') :
    mode32BitsOpen mode (encodeP0 r x b r') = false := by
  rcases h with rfl | ⟨-, -, rfl, rfl⟩
  · rfl
  · simp [mode32BitsOpen, encodeP0_bit5, encodeP0_bit4]

/-- Steps 1 to 5 pass the encoded bytes up to the opcode. -/
theorem decode_encoded_header (hm : mode ≠ .realOrV86) (h : RegisterBitsExist mode r x b r') (pfx : Prefixes) (z : Bool)
    (vl : VL) {aaa : BitVec 3} (hz : z = true → aaa ≠ 0#3) (c : Conversion) (rest : List Byte) :
    decode mode (encodePrefixes pfx ++ evexBytes (encodeP0 r x b r') 0x7E#8 (encodeP2 z vl aaa) c rest) =
      readOperands mode ⟨pfx, false, encodeP0 r x b r', 0x7E#8, encodeP2 z vl aaa, c, rest⟩ vl rest := by
  have hp := readPrefixes_encode mode pfx 0x62#8
    (encodeP0 r x b r' :: 0x7E#8 :: encodeP2 z vl aaa :: c.opcode :: rest) (classifyByte_evex mode)
  refine decode_of_header ?_ hm ?_ (encodeP2_vl z vl aaa)
  · rw [readHeader, evexBytes, hp]
    exact readEvex_evexBytes (inGroup_encodeP0 h) pfx false _ c rest
  · obtain ⟨hp1, hw, hv⟩ : (0x7E#8).getLsbD 2 = true ∧ (0x7E#8).getLsbD 7 = false ∧ vvvvField 0x7E#8 = 0b1111#4 := by
      decide
    exact (headerUd_eq_false_iff _).2 ⟨rfl, encodeP0_reserved .., hp1, hw, hv, encodeP2_bit3 ..,
      by simp [encodeP2_vl], encodeP2_bit4 .., by simpa [encodeP2_z, encodeP2_aaa] using hz⟩

end

/-- The source register number is read back from R', R and ModRM.reg (30_encoding.md R59). -/
theorem sourceNumber_encode (src : BitVec 5) (x b : Bool) (top : BitVec 2) (rm : BitVec 3) :
    sourceNumber (encodeP0 (src.getLsbD 3) x b (src.getLsbD 4)) (packByte top (src.extractLsb' 0 3) rm) = src := by
  rw [sourceNumber, encodeP0_R', encodeP0_R, packByte_reg, vectorNumber_join]

/-- The register destination number is read back from X, B and ModRM.r/m (30_encoding.md R60). -/
theorem destNumber_encode (d : BitVec 5) (r r' : Bool) (top : BitVec 2) (reg : BitVec 3) :
    destNumber (encodeP0 r (d.getLsbD 4) (d.getLsbD 3) r') (packByte top reg (d.extractLsb' 0 3)) = d := by
  rw [destNumber, encodeP0_X, encodeP0_B, packByte_rm, vectorNumber_join]

/-- The index is read back from X, SIB.index and SIB.scale (30_encoding.md R62). -/
theorem sibIndex_encode {index : Option ScaledIndex} (h : indexOk index = true) (r b r' : Bool) (low : BitVec 3) :
    sibIndex (encodeP0 r (indexX index) b r') (packByte (scaleBits index) (indexBits index) low) = index := by
  rw [sibIndex, encodeP0_X, packByte_reg, packByte_scale]
  cases index with
  | none => rfl
  | some si =>
    simp only [indexX, indexBits, scaleBits, generalNumber_join]
    exact if_neg (by simpa [indexOk] using h)

theorem dispMod_ne_register (d : Disp) : d.mod ≠ 0b11#2 := by cases d <;> simp [Disp.mod]

theorem memMod_ne_register (m : MemOperand) : m.mod ≠ 0b11#2 := by
  cases m with
  | dispOnly d => simp [MemOperand.mod]
  | base b d => exact dispMod_ne_register d
  | sib b index d => exact dispMod_ne_register d
  | sibNoBase index d => simp [MemOperand.mod]

/-- A displacement that register `b` admits does not make another operand of it (30_encoding.md R61, R62). -/
theorem mod_of_presentFor101 {b : BitVec 4} {d : Disp} (h : d.presentFor101 b = true) :
    ¬ (b.extractLsb' 0 3 = 0b101#3 ∧ d.mod = 0b00#2) := by
  rintro ⟨hb, hmod⟩
  cases d <;> simp [Disp.mod, Disp.presentFor101, hb] at hmod h

/-- A memory operand is read back from its bytes and from the bits of P0 and of ModRM that it has. -/
theorem readMem_encode {m : MemOperand} (h : m.encodable = true) (r r' : Bool) (reg : BitVec 3) (rest : List Byte) :
    readMem (encodeP0 r m.bitX m.bitB r') (packByte m.mod reg m.rm) (m.tail ++ rest) = some (m, rest) := by
  rw [readMem, packByte_rm, packByte_mod]
  cases m with
  | dispOnly d => simp [MemOperand.rm, MemOperand.mod, MemOperand.tail, takeDisp32_bytes32]
  | base b d =>
    simp only [MemOperand.encodable, Bool.and_eq_true, bne_iff_ne] at h
    have hmod := mt And.symm (mod_of_presentFor101 h.2)
    simp only [MemOperand.rm, MemOperand.mod, MemOperand.tail, MemOperand.bitB, encodeP0_B, if_neg h.1, if_neg hmod,
      takeDisp_bytes, generalNumber_join, Option.map_some]
  | sib b index d =>
    simp only [MemOperand.encodable, Bool.and_eq_true] at h
    have hmod := mod_of_presentFor101 h.2
    simp only [MemOperand.rm, MemOperand.mod, MemOperand.tail, MemOperand.bitB, MemOperand.bitX, encodeP0_B, if_true,
      List.cons_append, readSib, packByte_rm, if_neg hmod, takeDisp_bytes, generalNumber_join, Option.map_some,
      sibIndex_encode h.1]
  | sibNoBase index d =>
    simp only [MemOperand.rm, MemOperand.mod, MemOperand.tail, MemOperand.bitX, if_true, List.cons_append, readSib,
      packByte_rm, and_self, takeDisp32_bytes32, Option.map_some, sibIndex_encode (index := index) h]

/-- A well-formed register form names registers that the mode's bits can name. -/
theorem registerBitsExist_of_reachable {mode : DecodeMode} {d src : BitVec 5} (hd : vectorReachable mode d = true)
    (hs : vectorReachable mode src = true) :
    RegisterBitsExist mode (src.getLsbD 3) (d.getLsbD 4) (d.getLsbD 3) (src.getLsbD 4) := by
  rcases (vectorReachable_iff mode d).1 hd with hm | ⟨hd3, hd4⟩
  · exact .inl hm
  · exact ((vectorReachable_iff mode src).1 hs).imp id fun ⟨hs3, hs4⟩ => ⟨hs3, hd4, hd3, hs4⟩

theorem generalBit_of_low {r : BitVec 4} (h : (r.extractLsb' 3 1 == 0#1) = true) : r.getLsbD 3 = false := by
  revert r; decide

theorem indexX_of_low {index : Option ScaledIndex} (h : indexLow index = true) : indexX index = false := by
  cases index with
  | none => rfl
  | some si => exact generalBit_of_low h

/-- A memory operand of 32-bit mode has X = 0 and B = 0 (30_encoding.md R66). -/
theorem memBits_of_low {m : MemOperand} (h : m.low = true) : m.bitX = false ∧ m.bitB = false := by
  cases m with
  | dispOnly d => exact ⟨rfl, rfl⟩
  | base b d => exact ⟨rfl, generalBit_of_low h⟩
  | sib b index d =>
    obtain ⟨hb, hi⟩ := (Bool.and_eq_true _ _).mp h
    exact ⟨indexX_of_low hi, generalBit_of_low hb⟩
  | sibNoBase index d => exact ⟨indexX_of_low h, rfl⟩

/-- A well-formed memory form names registers that the mode's bits can name. -/
theorem registerBitsExist_of_low {mode : DecodeMode} {m : MemOperand} {src : BitVec 5} (hm : mode ≠ .realOrV86)
    (hl : mode = .mode32 → m.low = true) (hs : vectorReachable mode src = true) :
    RegisterBitsExist mode (src.getLsbD 3) m.bitX m.bitB (src.getLsbD 4) := by
  rcases (vectorReachable_iff mode src).1 hs with h64 | ⟨hs3, hs4⟩
  · exact .inl h64
  · cases mode with
    | mode64 => exact .inl rfl
    | mode32 =>
      obtain ⟨hX, hB⟩ := memBits_of_low (hl rfl)
      exact .inr ⟨hs3, hX, hB, hs4⟩
    | realOrV86 => exact absurd rfl hm

theorem regForm_of_form {i : Instr} {c : Conversion} {vl : VL} {pfx : Prefixes} {d : BitVec 5} {aaa : BitVec 3}
    {z : Bool} {src : BitVec 5} (h : i.form = .reg c vl pfx d aaa z src) : Instr.regForm c vl pfx d aaa z src = i := by
  cases i <;> cases h <;> rfl

theorem memForm_of_form {i : Instr} {c : Conversion} {vl : VL} {pfx : Prefixes} {m : MemOperand} {aaa : BitVec 3}
    {src : BitVec 5} (h : i.form = .mem c vl pfx m aaa src) : Instr.memForm c vl pfx m aaa src = i := by
  cases i <;> cases h <;> rfl

theorem decode_encodeReg {mode : DecodeMode} {d src : BitVec 5} {aaa : BitVec 3} {z : Bool} (hm : mode ≠ .realOrV86)
    (hz : z = true → aaa ≠ 0#3) (hd : vectorReachable mode d = true) (hs : vectorReachable mode src = true)
    (c : Conversion) (vl : VL) (pfx : Prefixes) (rest : List Byte) :
    decode mode (encodeReg c vl pfx d aaa z src ++ rest) = .instr (.regForm c vl pfx d aaa z src) rest := by
  have hb := registerBitsExist_of_reachable hd hs
  rw [encodeReg, List.append_assoc]
  refine (decode_encoded_header hm hb pfx z vl hz c
    (packByte 0b11#2 (src.extractLsb' 0 3) (d.extractLsb' 0 3) :: rest)).trans ?_
  simp only [readOperands, packByte_mod, mode32BitsOpen_encodeP0 hb, if_true, Bool.false_eq_true, if_false,
    destNumber_encode, encodeP2_aaa, encodeP2_z, sourceNumber_encode]

theorem decode_encodeMem {mode : DecodeMode} {m : MemOperand} {src : BitVec 5} {pfx : Prefixes}
    (hm : mode ≠ .realOrV86) (he : m.encodable = true) (hs : vectorReachable mode src = true)
    (h32 : mode = .mode32 → m.low = true ∧ pfx.addrSize = false) (c : Conversion) (vl : VL) (aaa : BitVec 3)
    (rest : List Byte) :
    decode mode (encodeMem c vl pfx m aaa src ++ rest) = .instr (.memForm c vl pfx m aaa src) rest := by
  have hb := registerBitsExist_of_low hm (fun h => (h32 h).1) hs
  have ha : (mode == .mode32 && pfx.addrSize) = false := by
    cases mode <;> simp [h32]
  rw [encodeMem, List.append_assoc, List.append_assoc]
  refine (decode_encoded_header hm hb pfx false vl (by simp) c
    (packByte m.mod (src.extractLsb' 0 3) m.rm :: (m.tail ++ rest))).trans ?_
  simp only [readOperands, packByte_mod, memMod_ne_register m, encodeP2_z, readMem_encode he,
    mode32BitsOpen_encodeP0 hb, ha, Bool.false_eq_true, if_false, encodeP2_aaa, sourceNumber_encode]

/-- Settles O14: a register form by its fields, a memory form by `readMem_encode`. -/
theorem decodeEncodeRoundTrip : Obligations.DecodeEncodeRoundTrip := by
  intro mode i rest hwf
  rw [encode]
  cases hi : i.form with
  | reg c vl pfx d aaa z src =>
    obtain ⟨hm, hz, hd, hs⟩ := (wellFormed_of_reg hi mode).1 hwf
    rw [← regForm_of_form hi]
    exact decode_encodeReg hm hz hd hs c vl pfx rest
  | mem c vl pfx m aaa src =>
    obtain ⟨hm, he, hs, h32⟩ := (wellFormed_of_mem hi mode).1 hwf
    rw [← memForm_of_form hi]
    exact decode_encodeMem hm he hs h32 c vl aaa rest

/-! ## A step that fetches an instruction's bytes -/

/-- Bytes that stand in the program text and can be fetched begin the window. -/
theorem fetchWindow_of_bytes {s : State} {bs : List Byte} (hle : bs.length ≤ s.textLeft)
    (hb : ∀ k, (h : k < bs.length) → s.fetchByte k = .ok bs[k]) : ∃ more, s.fetchWindow.1 = bs ++ more :=
  ⟨_, congrArg Prod.fst (fetchFrom_of_bytes s bs 0 s.textLeft hle (by simpa using hb))⟩

/-- Settles O4: the window begins with the encoding, which decodes whatever follows. -/
theorem stepRunsEncodedInstruction : Obligations.StepRunsEncodedInstruction := by
  intro s mode i hf hwf hle hb
  obtain ⟨more, hw⟩ := fetchWindow_of_bytes (by rwa [encode_length]) hb
  exact stepRunsDecodedInstruction s mode i more hf (hw ▸ decodeEncodeRoundTrip mode i more hwf)

/-! ## The first step after a launch -/

/-- An instruction has 6 to 13 bytes (30_encoding.md R53, R65). -/
theorem instr_length_bounds (i : Instr) : 6 ≤ i.length ∧ i.length ≤ 13 := by
  rw [Instr.length]
  cases i.form with
  | reg c vl pfx d aaa z src => exact regLength_bounds pfx
  | mem c vl pfx m aaa src => exact memLength_bounds pfx m

/-- After writes of the bytes of a list at different addresses, each address holds its byte. -/
theorem read_foldl_write_zipIdx (f : Nat → Nat) (bs : List Byte) (m : Memory) (n k : Nat) (hk : k < bs.length)
    (hf : ∀ i j, i < n + bs.length → j < n + bs.length → f i = f j → i = j) :
    ((bs.zipIdx n).foldl (fun m p => m.write (f p.2) p.1) m).read (f (n + k)) = some bs[k] := by
  induction bs using List.reverseRecOn with
  | nil => exact absurd hk (Nat.not_lt_zero k)
  | append_singleton bs b ih =>
    rw [List.length_append, List.length_singleton] at hk hf
    rw [List.zipIdx_append, List.foldl_append, List.zipIdx_singleton, List.foldl_cons, List.foldl_nil]
    by_cases h : k = bs.length
    · subst h
      rw [Nat.add_comm n, Memory.read_write_self, List.getElem_concat_length rfl]
    · have hlt : k < bs.length := by omega
      rw [Memory.read_write_ne _ _ _ _ fun e => h (by have := hf _ _ (by omega) (by omega) e; omega),
        List.getElem_append_left hlt]
      exact ih hlt fun i j hi hj => hf i j (by omega) (by omega)

/-- In 64-bit mode the bytes that are placed stand where they are fetched. -/
theorem readByte_placeCode {s : State} (h64 : s.is64 = true) {bs : List Byte} (hlen : bs.length ≤ 2 ^ 32) {k : Nat}
    (hk : k < bs.length) : (s.placeCode bs).readByte (s.codeAddress k) = some bs[k] := by
  have hinj : ∀ i j, i < 0 + bs.length → j < 0 + bs.length →
      (s.codeAddress i).toNat = (s.codeAddress j).toNat → i = j := by
    intro i j hi hj he
    rw [codeAddress_of_is64 h64, codeAddress_of_is64 h64] at he
    exact byteAddr_injective true s.pc i j (by omega) (by omega) he
  have hr := read_foldl_write_zipIdx (fun i => (s.codeAddress i).toNat) bs s.mem 0 k hk hinj
  rwa [Nat.zero_add] at hr

/-- In 64-bit mode a program text of `n` bytes from `pc` on has `n` bytes left at `pc`. -/
theorem textLeft_declareText {s : State} (h64 : s.is64 = true) {n : Nat} (hpos : 0 < n) (hn : n < 2 ^ 64) :
    (s.declareText n).textLeft = n := by
  have hend : s.nextPc n - s.pc = BitVec.ofNat 64 n := by
    rw [State.nextPc_of_is64 h64, BitVec.add_comm, BitVec.add_sub_cancel]
  have hnat : (BitVec.ofNat 64 n).toNat = n := by rw [BitVec.toNat_ofNat, Nat.mod_eq_of_lt hn]
  have hin : (s.declareText n).inProgram ((s.declareText n).codeAddress 0) = true := by
    rw [codeAddress_of_is64 (s := s.declareText n) h64]
    have hlt : 0#64 < BitVec.ofNat 64 n := by rwa [BitVec.lt_def, hnat]
    simpa [State.inProgram, State.codeBase, h64, wrapAddr, hend] using hlt
  simp only [State.textLeft, State.declareText_program, hin, if_true, State.declareText_is64, State.declareText_pc, h64,
    wrapAddr, hend, hnat]

/-- The run of a program that has bytes is not over at its first. -/
theorem atEnd_declareText {s : State} (h64 : s.is64 = true) {n : Nat} (hpos : 0 < n) (hn : n < 2 ^ 64) :
    (s.declareText n).atEnd = false := by
  have hne : s.pc ≠ s.nextPc n := by
    rw [State.nextPc_of_is64 h64]
    bv_omega
  simpa [State.atEnd] using hne

/-- In 64-bit mode the bytes of a loaded program are fetched where they may be executed. -/
theorem fetchByte_load {s : State} (h64 : s.is64 = true) {bs : List Byte} (hlen : bs.length ≤ 2 ^ 32) {k : Nat}
    (hk : k < bs.length) (hv : s.fetchViolation k = false) (hx : s.executable (s.codeAddress k) = true) :
    (s.load bs).fetchByte k = .ok bs[k] := by
  have hv' : (s.placeCode bs).fetchViolation k = false := hv
  have hx' : (s.placeCode bs).executable (s.codeAddress k) = true := hx
  rw [State.load, State.declareText_fetchByte, State.fetchByte]
  simp [hv', hx', readByte_placeCode h64 hlen hk]

/-- In 64-bit mode a step of a machine that has just been loaded with an instruction, where nothing is in the way of its
fetch, runs it. -/
theorem step_load {s : State} {bs rest : List Byte} {i : Instr} (h64 : s.is64 = true)
    (hm : s.decodeMode = some .mode64) (hdebug : s.debugArmed = false) (hac : s.alignmentChecking = false)
    (hlen : bs.length ≤ 2 ^ 32)
    (hx : ∀ k < bs.length, s.fetchViolation k = false ∧ s.executable (s.codeAddress k) = true)
    (hd : decode .mode64 bs = .instr i rest) : step (s.load bs) = exec i (s.load bs) := by
  obtain ⟨pre, hbs, hlocal⟩ := decode_local .mode64 bs i rest hd
  have hpre : pre.length = i.length := by
    have := length_of_decode hd
    rw [hbs, List.length_append] at this
    omega
  have hprog : programLength s.decodeMode bs = i.length := by simp [programLength, hm, hd]
  obtain ⟨hlow, hhigh⟩ := instr_length_bounds i
  have hend : (s.load bs).atEnd = false := by
    rw [State.load, hprog]
    exact atEnd_declareText h64 (by omega) (by omega)
  have hleft : (s.load bs).textLeft = i.length := by
    rw [State.load, hprog]
    exact textLeft_declareText h64 (by omega) (by omega)
  obtain ⟨more, hw⟩ := fetchWindow_of_bytes (s := s.load bs) (bs := pre) (by omega) fun k hk => by
    have hk' : k < bs.length := by rw [hbs, List.length_append]; omega
    rw [fetchByte_load h64 hlen hk' (hx k hk').1 (hx k hk').2]
    simp [hbs, List.getElem_append_left hk]
  exact stepRunsDecodedInstruction _ .mode64 i more ⟨hend, hdebug, hac, hm⟩ (hw ▸ hlocal more)

/-- The model's boot (log 1) leaves a machine that fetches in 64-bit mode. -/
theorem reset_boot_mode : State.reset.boot.is64 = true ∧ State.reset.boot.decodeMode = some .mode64 ∧
    State.reset.boot.debugArmed = false ∧ State.reset.boot.alignmentChecking = false := by
  decide

theorem reset_launch : State.reset.launch = State.reset.boot := if_neg (by decide)

theorem reset_boot_fetchable : ∀ k < longestInstruction, State.reset.boot.fetchViolation k = false ∧
    State.reset.boot.executable (State.reset.boot.codeAddress k) = true := by
  decide

theorem tableBytes_length (nbits w : Nat) : (tableBytes nbits w).length = longestInstruction := by
  simp [tableBytes, bytesOfNat]

theorem decode_of_decodeTableWord {nbits w : Nat} {i : Instr} (h : decodeTableWord nbits w = some i) :
    ∃ rest, decode .mode64 (tableBytes nbits w) = .instr i rest := by
  unfold decodeTableWord at h
  split at h
  · rename_i rest hd
    cases h
    exact ⟨rest, hd⟩
  · cases h

/-- Settles O5: the launch of the reset state is the boot, and the table's bytes are loaded and fetched after it. -/
theorem firstInstructionAfterLaunchRuns : Obligations.FirstInstructionAfterLaunchRuns := by
  intro nbits w i h
  obtain ⟨rest, hd⟩ := decode_of_decodeTableWord h
  obtain ⟨h64, hm, hdebug, hac⟩ := reset_boot_mode
  have hlen := tableBytes_length nbits w
  rw [State.withFetchWord, reset_launch]
  exact step_load h64 hm hdebug hac (hlen ▸ by decide) (hlen ▸ reset_boot_fetchable) hd

/-! ## A form whose bytes are all there -/

theorem takeDisp_isSome {mod : BitVec 2} {bs : List Byte} (h1 : mod = 0b01#2 → 1 ≤ bs.length)
    (h4 : mod ≠ 0b00#2 → mod ≠ 0b01#2 → 4 ≤ bs.length) : (takeDisp mod bs).isSome = true := by
  unfold takeDisp
  split
  · rfl
  · split
    · cases bs with
      | nil => simp_all
      | cons b bs => rfl
    · rw [Option.isSome_map]
      exact takeDisp32_isSome (h4 ‹_› ‹_›)

theorem memoryMod_cases {mod : BitVec 2} (h : mod ≠ 0b11#2) : mod = 0b00#2 ∨ mod = 0b01#2 ∨ mod = 0b10#2 := by
  revert mod; decide

/-- The bytes that a ModRM byte asks for, with its fields by name (30_encoding.md R61, R62). -/
theorem operandBytesAfter_eq {modrm : Byte} (hm : modField modrm ≠ 0b11#2) (tail : List Byte) :
    operandBytesAfter modrm tail = (if rmField modrm = 0b100#3 then 1 else 0) +
      (if modField modrm = 0b01#2 then 1
       else if modField modrm = 0b10#2 then 4
       else if rmField modrm = 0b101#3 ∨ rmField modrm = 0b100#3 ∧ rmField (tail.headD 0) = 0b101#3 then 4
       else 0) := by
  show (if modField modrm ≠ 0b11#2 ∧ rmField modrm = 0b100#3 then 1 else 0) +
    (if modField modrm = 0b01#2 then 1 else if modField modrm = 0b10#2 then 4
     else if modField modrm = 0b00#2 ∧ (rmField modrm = 0b101#3 ∨
       rmField modrm = 0b100#3 ∧ rmField (tail.headD 0) = 0b101#3) then 4 else 0) = _
  rcases memoryMod_cases hm with hmod | hmod | hmod <;> simp [hmod]

/-- A memory operand is read where the bytes that its ModRM byte asks for are there. -/
theorem readMem_isSome (p0 : Byte) {modrm : Byte} {tail : List Byte} (hm : modField modrm ≠ 0b11#2)
    (h : operandBytesAfter modrm tail ≤ tail.length) : (readMem p0 modrm tail).isSome = true := by
  rw [operandBytesAfter_eq hm] at h
  have h4 : modField modrm ≠ 0b00#2 → modField modrm ≠ 0b01#2 → modField modrm = 0b10#2 := fun h0 h1 =>
    ((memoryMod_cases hm).resolve_left h0).resolve_left h1
  rw [readMem]
  split
  · rename_i hrm
    cases tail with
    | nil => simp [hrm] at h
    | cons sib tail =>
      rw [readSib]
      split
      · rename_i hsib
        rw [Option.isSome_map]
        exact takeDisp32_isSome (by simp [hrm, hsib] at h; omega)
      · rw [Option.isSome_map]
        exact takeDisp_isSome (fun h1 => by simp [hrm, h1] at h; omega)
          fun h0 h1 => by simp [hrm, h4 h0 h1] at h; omega
  · split
    · rename_i hd
      rw [Option.isSome_map]
      exact takeDisp32_isSome (by simpa [hd] using h)
    · rename_i hrm _
      rw [Option.isSome_map]
      exact takeDisp_isSome (fun h1 => by simpa [hrm, h1] using h) fun h0 h1 => by simpa [hrm, h4 h0 h1] using h

/-- Where the operands of a form are there, the form has its last byte. -/
theorem operandsEnd_isSome (p0 : Byte) {rest : List Byte} (h : OperandsPresent rest) :
    (operandsEnd p0 rest).isSome = true := by
  obtain ⟨modrm, tail, rfl, hlen⟩ := h
  rw [operandsEnd]
  split
  · rfl
  · rename_i hm
    rw [Option.isSome_map]
    exact readMem_isSome p0 hm hlen

/-! ## #UD and refusals, from the decoder to the step -/

/-- What the decoder refuses, a step that fetches it refuses. -/
theorem bytesAreRefused_of_decode {mode : DecodeMode} {bs : List Byte} {r : DecodeRefusal}
    (h : decode mode bs = .refuse r) : BytesAreRefused mode bs r := by
  refine ⟨h, fun s hf hw => step_of_fetch_stop (e := .refuse (refusalOf r)) ?_⟩
  rw [fetch_of_fetches hf, fetchedOf, hw, h]

/-- What the decoder answers #UD for after a header, a step that fetches it to its last byte raises #UD for. -/
theorem formRaisesUd_of_decode {mode : DecodeMode} {ps : List Byte} {p0 p1 p2 : Byte} {c : Conversion}
    {rest : List Byte} (hps : PrefixBytes mode ps) (hg : InGroup mode p0 p1)
    (h : decode mode (ps ++ evexBytes p0 p1 p2 c rest) = .ud) : FormRaisesUd mode ps p0 p1 p2 c rest := by
  refine ⟨h, fun s hf hw hp => step_of_fetch_stop (e := .fault (.exception .ud)) ?_⟩
  obtain ⟨q, -, hr⟩ := readHeader_evexBytes hps hg p2 c rest
  have hc : formComplete mode (ps ++ evexBytes p0 p1 p2 c rest) = true := by
    simpa [formComplete, hr] using operandsEnd_isSome p0 hp
  rw [fetch_of_fetches hf, fetchedOf, hw, h]
  simp [hc]

/-- A form that meets a #UD condition of the header raises #UD. -/
theorem formRaisesUd_of_header {mode : DecodeMode} {ps : List Byte} {p0 p1 p2 : Byte} {c : Conversion}
    {rest : List Byte} (hps : PrefixBytes mode ps) (hg : InGroup mode p0 p1)
    (hu : ∀ q : Prefixes, headerUd ⟨q, ps.any (isForbiddenPrefix mode), p0, p1, p2, c, rest⟩ ≠ false) :
    FormRaisesUd mode ps p0 p1 p2 c rest := by
  obtain ⟨q, -, hr⟩ := readHeader_evexBytes hps hg p2 c rest
  exact formRaisesUd_of_decode hps hg (decode_of_headerUd hr (.inr (by simpa using hu q)))

/-- Settles O17. -/
theorem reservedVvvvRaisesUd : Obligations.ReservedVvvvRaisesUd := by
  refine ⟨fun mode ps p0 p1 p2 c rest hps hg hv => formRaisesUd_of_header hps hg fun q hu => ?_, rfl, rfl, rfl⟩
  obtain ⟨-, -, -, -, hvvvv, -⟩ := (headerUd_eq_false_iff _).1 hu
  exact hv hvvvv

/-- Settles O19. -/
theorem forbiddenPrefixRaisesUd : Obligations.ForbiddenPrefixRaisesUd := by
  intro mode ps p0 p1 p2 c rest hps hg h
  have hany : ps.any (isForbiddenPrefix mode) = true := by
    rw [List.any_eq_true]
    rcases h with ⟨b, hb, h⟩ | ⟨rfl, b, hb, h⟩
    · exact ⟨b, hb, by rcases h with rfl | rfl | rfl | rfl <;> simp [isForbiddenPrefix]⟩
    · exact ⟨b, hb, by simp [isForbiddenPrefix, h]⟩
  refine formRaisesUd_of_header hps hg fun q hu => ?_
  obtain ⟨hforb, -⟩ := (headerUd_eq_false_iff _).1 hu
  simp [hany] at hforb

/-- `z = 1` with a memory destination is #UD (30_encoding.md R72). -/
theorem readOperands_of_zeroing_memory {mode : DecodeMode} {modrm : Byte} (h : Header) (hz : zField h.p2 = true)
    (hm : modField modrm ≠ 0b11#2) (vl : VL) (bs : List Byte) : readOperands mode h vl (modrm :: bs) = .ud := by
  simp [readOperands, hm, hz]

/-- A form with `z = 1` and a memory destination raises #UD. -/
theorem formRaisesUd_of_zeroing_memory {mode : DecodeMode} {ps : List Byte} {p0 p1 p2 modrm : Byte} {bs : List Byte}
    (hps : PrefixBytes mode ps) (hg : InGroup mode p0 p1) (hz : zField p2 = true) (hm : modField modrm ≠ 0b11#2)
    (c : Conversion) : FormRaisesUd mode ps p0 p1 p2 c (modrm :: bs) := by
  obtain ⟨q, -, hr⟩ := readHeader_evexBytes hps hg p2 c (modrm :: bs)
  refine formRaisesUd_of_decode hps hg ?_
  by_cases hu : mode = .realOrV86 ∨ headerUd ⟨q, ps.any (isForbiddenPrefix mode), p0, p1, p2, c, modrm :: bs⟩ = true
  · exact decode_of_headerUd hr hu
  · rw [not_or, Bool.not_eq_true] at hu
    obtain ⟨-, -, -, -, -, -, hvl, -⟩ := (headerUd_eq_false_iff _).1 hu.2
    obtain ⟨vl, hv⟩ := Option.isSome_iff_exists.1 hvl
    rw [decode_of_header hr hu.1 hu.2 hv]
    exact readOperands_of_zeroing_memory ⟨q, _, p0, p1, p2, c, _⟩ hz hm vl bs

/-- A check that fails before the operands are looked at ends every form in its exception. -/
theorem exec_of_checkEnabled {i : Instr} {s : State} {e : Exception} (h : s.checkEnabled i.vl = some e) :
    exec i s = .fault (.exception e) := by
  rw [exec_eq_execForm]
  rw [Instr.vl] at h
  cases hi : i.form with
  | reg c vl pfx d aaa z src =>
    rw [hi] at h
    simp [execForm, execRegister, h, raise]
  | mem c vl pfx m aaa src =>
    rw [hi] at h
    simp [execForm, execMemory, h, raise]

theorem checkEnabled_of_not_hasVL {s : State} {vl : VL} (h : s.hasVL vl = false) : s.checkEnabled vl = some .ud := by
  simp [State.checkEnabled, h]

/-- Settles O18: the first part by the conditions of the header, and by the operands where the destination is memory. -/
theorem reservedCombinationsRaiseUd : Obligations.ReservedCombinationsRaiseUd := by
  refine ⟨fun mode ps p0 p1 p2 c rest hps hg h => ?_, fun i s h => exec_of_checkEnabled (checkEnabled_of_not_hasVL ?_)⟩
  · by_cases hmem : p2.getLsbD 7 = true ∧ ∃ modrm bs, rest = modrm :: bs ∧ modrm.extractLsb' 6 2 ≠ 0b11#2
    · obtain ⟨hz, modrm, bs, rfl, hm⟩ := hmem
      exact formRaisesUd_of_zeroing_memory hps hg hz hm c
    · refine formRaisesUd_of_header hps hg fun q hu => ?_
      obtain ⟨-, hp0, hp1, hw, -, hv, hvl, hb, hz⟩ := (headerUd_eq_false_iff _).1 hu
      rcases h with h | h | h | h | ⟨hz', haaa⟩ | h | h | h
      · cases h.symm.trans hv
      · cases h.symm.trans hb
      · cases h.symm.trans hw
      · simp [(vlField_eq_none_iff p2).2 h] at hvl
      · exact hz hz' haaa
      · exact hmem h
      · exact h hp0
      · cases h.symm.trans hp1
  · rcases h with ⟨hvl, hno⟩ | hno
    · simp [State.hasVL, hno, hvl]
    · simp [State.hasVL, hno]

/-! ## Bytes that are no instruction -/

/-- Settles O21. -/
theorem repeatedPrefixIsRefused : Obligations.RepeatedPrefixIsRefused := by
  intro mode ps rest hps h
  refine bytesAreRefused_of_decode (decode_of_readHeader_refuse ?_)
  rw [readHeader, readPrefixes_of_repeat ps rest ⟨none, false⟩ false hps (by simpa using h)]

/-- What step 2 or 3 refuses after the prefixes is refused. -/
theorem bytesAreRefused_of_readEvex {mode : DecodeMode} {ps bs : List Byte} {b : Byte} {r : DecodeRefusal}
    (hps : PrefixBytes mode ps) (hb : ¬ IsPrefixByte mode b)
    (h : ∀ q f, readEvex mode q f (b :: bs) = .refuse r) : BytesAreRefused mode (ps ++ b :: bs) r := by
  obtain ⟨q, -, hr⟩ := readHeader_prefixBytes hps hb bs
  exact bytesAreRefused_of_decode (decode_of_readHeader_refuse (hr.trans (h q _)))

theorem conversionOf_eq_none {op : Byte} (h : op ∉ [0x14#8, 0x24#8, 0x34#8]) : conversionOf op = none := by
  simp only [List.mem_cons, List.not_mem_nil, or_false, not_or] at h
  obtain ⟨h14, h24, h34⟩ := h
  simp [conversionOf, h14, h24, h34]

/-- Another map (`mm`), `pp` or opcode is refused (30_encoding.md R74). -/
theorem readOpcode_of_not_group {p0 p1 op : Byte}
    (h : mmField p0 ≠ 0b10#2 ∨ ppField p1 ≠ 0b10#2 ∨ op ∉ [0x14#8, 0x24#8, 0x34#8]) (q : Prefixes) (f : Bool)
    (p2 : Byte) (rest : List Byte) : readOpcode q f p0 (p1 :: p2 :: op :: rest) = .refuse .notInGroup := by
  rw [readOpcode]
  split
  · rename_i hm
    rw [conversionOf_eq_none ((h.resolve_left (not_not_intro hm.1)).resolve_left (not_not_intro hm.2))]
  · rfl

/-- Settles O20. -/
theorem otherBytesAreRefused : Obligations.OtherBytesAreRefused := by
  refine fun mode ps b p0 p1 p2 op rest hps => ⟨fun hb h62 => ?_, fun hbound h => ?_⟩
  · exact bytesAreRefused_of_readEvex hps hb fun q f => by simp [readEvex, h62]
  · refine bytesAreRefused_of_readEvex hps (not_isPrefixByte_evex mode) fun q f => ?_
    simp [readEvex, (isBound_eq_false_iff mode p0).2 hbound, readOpcode_of_not_group h]

/-! ## 32-bit mode -/

theorem mode32BitsOpen_iff (p0 : Byte) :
    mode32BitsOpen .mode32 p0 = true ↔ p0.getLsbD 5 = false ∨ p0.getLsbD 4 = false := by
  simp [mode32BitsOpen]

/-- Steps 6 to 8 of a form whose operands are there: the register bits that 32-bit mode leaves open are refused. -/
theorem readOperands_of_bits_open {modrm : Byte} {tail : List Byte} (h : Header)
    (ho : mode32BitsOpen .mode32 h.p0 = true) (hz : zField h.p2 = true → modField modrm = 0b11#2)
    (hlen : operandBytesAfter modrm tail ≤ tail.length) (vl : VL) :
    readOperands .mode32 h vl (modrm :: tail) = .refuse .mode32RegisterBits := by
  by_cases hm : modField modrm = 0b11#2
  · simp [readOperands, hm, ho]
  · obtain ⟨⟨m, rest⟩, hr⟩ := Option.isSome_iff_exists.1 (readMem_isSome h.p0 hm hlen)
    simp [readOperands, hm, mt hz hm, hr, ho]

/-- Steps 6 to 8 of a memory form whose operands are there: 67h in 32-bit mode is 16-bit addressing, and refused. -/
theorem readOperands_of_addrSize {modrm : Byte} {tail : List Byte} (h : Header)
    (ho : mode32BitsOpen .mode32 h.p0 = false) (ha : h.pfx.addrSize = true) (hm : modField modrm ≠ 0b11#2)
    (hz : zField h.p2 = true → modField modrm = 0b11#2) (hlen : operandBytesAfter modrm tail ≤ tail.length) (vl : VL) :
    readOperands .mode32 h vl (modrm :: tail) = .refuse .addressSize16 := by
  obtain ⟨⟨m, rest⟩, hr⟩ := Option.isSome_iff_exists.1 (readMem_isSome h.p0 hm hlen)
  simp [readOperands, hm, mt hz hm, hr, ho, ha]

/-- Bytes of the group that meet no #UD condition are read as steps 6 to 8 read the operands. -/
theorem decode_of_noEncodingUd {mode : DecodeMode} {ps : List Byte} {p0 p1 p2 modrm : Byte} (hm : mode ≠ .realOrV86)
    (hps : PrefixBytes mode ps) (hg : InGroup mode p0 p1) (hn : NoEncodingUd mode ps p0 p1 p2 modrm) (c : Conversion)
    (tail : List Byte) :
    ∃ (q : Prefixes) (vl : VL), (q.addrSize = true ↔ 0x67#8 ∈ ps) ∧
      decode mode (ps ++ evexBytes p0 p1 p2 c (modrm :: tail)) =
        readOperands mode ⟨q, false, p0, p1, p2, c, modrm :: tail⟩ vl (modrm :: tail) := by
  obtain ⟨hforb, hp0, hw, hvvvv, hp1, hv, hb, hvl, hz⟩ := hn
  obtain ⟨q, hq, hr⟩ := readHeader_evexBytes hps hg p2 c (modrm :: tail)
  have hany : ps.any (isForbiddenPrefix mode) = false := by simpa using hforb
  rw [hany] at hr
  obtain ⟨vl, hvl⟩ := Option.ne_none_iff_exists'.1 (mt (vlField_eq_none_iff p2).1 hvl)
  refine ⟨q, vl, hq, decode_of_header hr hm ((headerUd_eq_false_iff _).2 ?_) hvl⟩
  exact ⟨rfl, hp0, hp1, hw, hvvvv, hv, by simp [hvl], hb, fun h => (hz h).1⟩

/-- Settles O22. -/
theorem mode32Restrictions : Obligations.Mode32Restrictions := by
  refine ⟨fun ps p0 rest hps hp0 => ?_, fun ps p0 p1 p2 c rest hps hg hbits i bs hd => ?_,
    fun bs c vl pfx m aaa src rest hd => ?_, fun ps p0 p1 p2 c modrm tail hps hg hn hlen => ?_⟩
  · refine bytesAreRefused_of_readEvex hps (not_isPrefixByte_evex .mode32) fun q f => ?_
    have hbound : isBound .mode32 p0 = true := by simp [isBound, hp0]
    simp [readEvex, hbound]
  · obtain ⟨h, vl, hr, -, -, ho⟩ := decode_eq_instr hd
    obtain ⟨q, -, hr'⟩ := readHeader_evexBytes hps hg p2 c rest
    obtain rfl := HeaderResult.header.inj (hr'.symm.trans hr)
    have hopen := (readOperands_eq_instr ho).1
    rw [(mode32BitsOpen_iff p0).2 hbits] at hopen
    cases hopen
  · obtain ⟨-, -, -, h32⟩ := (wellFormed_of_mem (memForm_form ..) .mode32).1 (wellFormed_of_decode hd)
    exact (h32 rfl).2
  · obtain ⟨q, vl, hq, hd⟩ := decode_of_noEncodingUd (by simp) hps hg hn c tail
    obtain ⟨-, -, -, -, -, -, -, -, hz⟩ := hn
    refine ⟨fun hbits => bytesAreRefused_of_decode (hd.trans ?_),
      fun h5 h4 h67 hm => bytesAreRefused_of_decode (hd.trans ?_)⟩
    · exact readOperands_of_bits_open ⟨q, _, p0, p1, p2, c, _⟩ ((mode32BitsOpen_iff p0).2 hbits) (fun h => (hz h).2)
        hlen vl
    · have ho : mode32BitsOpen .mode32 p0 = false := by simp [mode32BitsOpen, h5, h4]
      exact readOperands_of_addrSize ⟨q, _, p0, p1, p2, c, _⟩ ho (hq.2 h67) hm (fun h => (hz h).2) hlen vl

/-! ## Addresses as integers -/

/-- A word stands for an integer modulo `2^bits`. -/
def StandsFor (bits : Nat) (a : QWord) (x : Int) : Prop := (a.toNat : Int) ≡ x [ZMOD 2 ^ bits]

section
variable {bits : Nat} (hbits : bits ≤ 64)
include hbits

/-- Wrapping modulo 2^64 keeps an integer modulo `2^bits`. -/
theorem wrap64_modEq (n : Int) : n % 2 ^ 64 ≡ n [ZMOD 2 ^ bits] :=
  (Int.mod_modEq n (2 ^ 64)).of_dvd (pow_dvd_pow 2 hbits)

theorem StandsFor.add {a b : QWord} {x y : Int} (ha : StandsFor bits a x) (hb : StandsFor bits b y) :
    StandsFor bits (a + b) (x + y) := by
  rw [StandsFor, BitVec.toNat_add]
  push_cast
  exact (wrap64_modEq hbits _).trans (Int.ModEq.add ha hb)

theorem StandsFor.mul {a b : QWord} {x y : Int} (ha : StandsFor bits a x) (hb : StandsFor bits b y) :
    StandsFor bits (a * b) (x * y) := by
  rw [StandsFor, BitVec.toNat_mul]
  push_cast
  exact (wrap64_modEq hbits _).trans (Int.ModEq.mul ha hb)

theorem StandsFor.shiftLeft {a : QWord} {x : Int} (ha : StandsFor bits a x) (n : Nat) :
    StandsFor bits (a <<< n) (x * 2 ^ n) := by
  rw [StandsFor, BitVec.toNat_shiftLeft, Nat.shiftLeft_eq]
  push_cast
  exact (wrap64_modEq hbits _).trans (Int.ModEq.mul_right _ ha)

theorem standsFor_ofNat (n : Nat) : StandsFor bits (BitVec.ofNat 64 n) n := by
  rw [StandsFor, BitVec.toNat_ofNat]
  push_cast
  exact wrap64_modEq hbits _

/-- A word stands for its signed value too. -/
theorem standsFor_toInt (a : QWord) : StandsFor bits a a.toInt := by
  have h : (a.toNat : Int) ≡ a.toInt [ZMOD 2 ^ 64] := by
    rw [BitVec.toInt_eq_toNat_bmod]
    exact (Int.bmod_emod ..).symm
  exact h.of_dvd (pow_dvd_pow 2 hbits)

/-- A displacement is sign-extended (30_encoding.md R61, R63). -/
theorem standsFor_signExtend {w : Nat} (hw : w ≤ 64) (d : BitVec w) : StandsFor bits (d.signExtend 64) d.toInt := by
  have h := standsFor_toInt hbits (d.signExtend 64)
  rwa [BitVec.toInt_signExtend_of_le hw] at h

theorem standsFor_dispValue (n : Nat) (d : Disp) : StandsFor bits (dispValue n d) (dispAmount n d) := by
  cases d with
  | none => exact Int.ModEq.refl 0
  | disp8 d => exact (standsFor_ofNat hbits n).mul hbits (standsFor_signExtend hbits (by decide) d)
  | disp32 d => exact standsFor_signExtend hbits (by decide) d

/-- In 64-bit mode the next instruction is at `pc + len` (10_state.md R25). -/
theorem standsFor_nextPc {s : State} (h64 : s.is64 = true) (len : Nat) :
    StandsFor bits (s.nextPc len) (s.pc.toNat + len) := by
  rw [State.nextPc_of_is64 h64]
  exact StandsFor.add hbits (Int.ModEq.refl _) (standsFor_ofNat hbits len)

end

/-- The address size in bits (30_encoding.md R64, R66). -/
def addressBits (a32 : Bool) : Nat := if a32 then 32 else 64

theorem addressBits_le (a32 : Bool) : addressBits a32 ≤ 64 := by cases a32 <;> decide

/-- An address is taken modulo its size. -/
theorem wrapAddr_toNat (a32 : Bool) (a : QWord) : (wrapAddr (!a32) a).toNat = a.toNat % 2 ^ addressBits a32 := by
  cases a32 with
  | true => exact wrapAddr_false_toNat a
  | false => exact (Nat.mod_eq_of_lt a.isLt).symm

theorem addrReg_eq_wrapAddr (s : State) (a32 : Bool) (r : BitVec 4) :
    s.addrReg a32 r = wrapAddr (!a32) (s.getGpr r) := by
  cases a32 <;> rfl

theorem standsFor_addrReg (s : State) (a32 : Bool) (r : BitVec 4) :
    StandsFor (addressBits a32) (s.addrReg a32 r) (s.registerAmount (addressBits a32) r) := by
  rw [StandsFor, State.registerAmount, addrReg_eq_wrapAddr, wrapAddr_toNat]

theorem standsFor_indexValue (s : State) (a32 : Bool) (index : Option ScaledIndex) :
    StandsFor (addressBits a32) (s.indexValue a32 index) (s.indexAmount (addressBits a32) index) := by
  cases index with
  | none => exact Int.ModEq.refl 0
  | some si => exact (standsFor_addrReg s a32 si.index).shiftLeft (addressBits_le a32) si.scale.toNat

/-- The effective address is the integer that the sum stands for, modulo the address size. -/
theorem effectiveAddress_toNat {s : State} {pfx : Prefixes} {a32 : Bool} (ha : s.addr32 pfx = a32) {vl : VL}
    {m : MemOperand} {x : Int}
    (h : StandsFor (addressBits a32) (s.addressSum a32 vl.operandBytes (memLength pfx m) m) x) :
    ((s.effectiveAddress vl pfx m).toNat : Int) = x % 2 ^ addressBits a32 := by
  rw [State.effectiveAddress, ha, wrapAddr_toNat]
  push_cast
  exact h

/-- Every operand shape, from what the shape without base and SIB byte adds its displacement to. -/
theorem effectiveAddressRule_of_next {s : State} {pfx : Prefixes} {a32 : Bool} (ha : s.addr32 pfx = a32) (vl : VL)
    {next : Int} (hn : StandsFor (addressBits a32) (if s.is64 then s.nextPc (pfx.length + 10) else 0) next) :
    s.EffectiveAddressRule vl pfx (addressBits a32) next := by
  have hb := addressBits_le a32
  have hd32 (d : BitVec 32) := standsFor_signExtend hb (by decide) d
  refine ⟨fun d => effectiveAddress_toNat ha ?_, fun b d => effectiveAddress_toNat ha ?_,
    fun b index d => effectiveAddress_toNat ha ?_, fun index d => effectiveAddress_toNat ha ?_⟩
  · exact hn.add hb (hd32 d)
  · exact (standsFor_addrReg s a32 b).add hb (standsFor_dispValue hb _ d)
  · exact ((standsFor_addrReg s a32 b).add hb (standsFor_indexValue s a32 index)).add hb (standsFor_dispValue hb _ d)
  · exact (standsFor_indexValue s a32 index).add hb (hd32 d)

/-- In 64-bit mode the shape without base and SIB byte is RIP-relative (30_encoding.md R61). -/
theorem effectiveAddressRule_of_is64 {s : State} {pfx : Prefixes} {a32 : Bool} (h64 : s.is64 = true)
    (ha : s.addr32 pfx = a32) (vl : VL) :
    s.EffectiveAddressRule vl pfx (addressBits a32) (s.pc.toNat + (pfx.length + 10)) := by
  refine effectiveAddressRule_of_next ha vl ?_
  rw [if_pos h64]
  exact_mod_cast standsFor_nextPc (addressBits_le a32) h64 (pfx.length + 10)

/-- Settles O42. -/
theorem effectiveAddress64 : Obligations.EffectiveAddress64 := by
  intro s vl pfx hm hp
  have h64 := State.is64_eq_true hm
  exact effectiveAddressRule_of_is64 (a32 := false) h64 (by simp [State.addr32, h64, hp]) vl

/-- Settles O43. -/
theorem effectiveAddress32 : Obligations.EffectiveAddress32 := by
  refine fun s vl pfx => ⟨fun hm hp => ?_, fun hm => ?_⟩
  · exact effectiveAddressRule_of_is64 (a32 := true) (State.is64_eq_true hm) (by simp [State.addr32, hp]) vl
  · have h64 := State.is64_eq_false hm
    refine effectiveAddressRule_of_next (a32 := true) (by simp [State.addr32, h64]) vl ?_
    rw [h64]
    exact Int.ModEq.refl 0

/-- Settles O16, by running the decoder on each of the four words. -/
theorem sampleWordsDecode : Obligations.SampleWordsDecode := by
  refine ⟨?_, ?_, ?_, ?_⟩ <;> decide

end Sys2Proof.Machine
end

section
/-! SUPPORT. The conversions as numbers, the rules of a register and of a memory form, and a mask with every element
enabled: the lemmas of the statements of 40_down_convert_qword_to_word.md, and their proofs. -/

namespace Sys2Proof.Machine

/-! ## The conversions (R90 to R92, R109) -/

/-- The low word as an unsigned number. -/
theorem lowWord_toNat (q : QWord) : (q.extractLsb' 0 16).toNat = q.toNat % 65536 := by
  rw [BitVec.extractLsb'_toNat, Nat.shiftRight_zero]

/-- The low word of a quad-word in the signed range is its value, as a signed number. -/
theorem lowWord_toInt {q : QWord} (hlow : -32768 ≤ q.toInt) (hhigh : q.toInt ≤ 32767) :
    (q.extractLsb' 0 16).toInt = q.toInt := by
  rw [BitVec.toInt_extractLsb', Nat.shiftRight_zero, ← Int.bmod_bmod_of_dvd (m := 2 ^ 64) (by decide),
    ← BitVec.toInt_eq_toNat_bmod]
  exact Int.bmod_eq_of_le (by omega) (by omega)

theorem saturateSigned_of_above {q : QWord} (h : 32767 < q.toInt) : saturateSignedQuadWordToWord q = 0x7FFF#16 :=
  if_pos h

theorem saturateSigned_of_below {q : QWord} (h : q.toInt < -32768) : saturateSignedQuadWordToWord q = 0x8000#16 := by
  rw [saturateSignedQuadWordToWord, if_neg (by omega), if_pos h]

theorem saturateSigned_of_fits {q : QWord} (hlow : -32768 ≤ q.toInt) (hhigh : q.toInt ≤ 32767) :
    saturateSignedQuadWordToWord q = q.extractLsb' 0 16 := by
  rw [saturateSignedQuadWordToWord, if_neg (by omega), if_neg (by omega)]

theorem saturateUnsigned_of_above {q : QWord} (h : 65535 < q.toNat) : saturateUnsignedQuadWordToWord q = 0xFFFF#16 :=
  if_pos h

theorem saturateUnsigned_of_fits {q : QWord} (h : q.toNat ≤ 65535) :
    saturateUnsignedQuadWordToWord q = q.extractLsb' 0 16 :=
  if_neg (by omega)

/-- Settles O25: truncation is the low word. -/
theorem truncateConversion : Obligations.TruncateConversion := lowWord_toNat

/-- Settles O26: the clamp has three branches, as the conversion has. -/
theorem signedSaturateConversion : Obligations.SignedSaturateConversion := by
  refine fun q => ⟨?_, saturateSigned_of_fits⟩
  by_cases habove : 32767 < q.toInt
  · have hmax : (0x7FFF#16).toInt = 32767 := by decide
    rw [saturateSigned_of_above habove]
    omega
  by_cases hbelow : q.toInt < -32768
  · have hmin : (0x8000#16).toInt = -32768 := by decide
    rw [saturateSigned_of_below hbelow]
    omega
  · rw [saturateSigned_of_fits (by omega) (by omega), lowWord_toInt (by omega) (by omega)]
    omega

/-- Settles O27. -/
theorem unsignedSaturateConversion : Obligations.UnsignedSaturateConversion := by
  refine fun q => ⟨?_, saturateUnsigned_of_fits⟩
  by_cases h : q.toNat ≤ 65535
  · rw [saturateUnsigned_of_fits h, lowWord_toNat]
    omega
  · have hmax : (0xFFFF#16).toNat = 65535 := by decide
    rw [saturateUnsigned_of_above (by omega)]
    omega

/-- A quad-word up to FFFFh has bit 63 clear, so its signed value is its unsigned one. -/
theorem toInt_eq_toNat_of_le {q : QWord} (h : q.toNat ≤ 65535) : q.toInt = q.toNat :=
  BitVec.toInt_eq_toNat_of_lt (by omega)

/-- A negative quad-word has bit 63 set, so it is a large unsigned number (R92). -/
theorem lt_toNat_of_toInt_neg {q : QWord} (h : q.toInt ≤ -1) : 65535 < q.toNat := by
  have hcond := BitVec.toInt_eq_toNat_cond q
  split at hcond <;> omega

/-- Settles O28: in each range the two readings of `q` say which branch each conversion takes. -/
theorem relationsOfTheConversions : Obligations.RelationsOfTheConversions := by
  refine fun q => ⟨fun h => ?_, fun hlow hhigh => ?_, fun hlow hhigh => ?_⟩
  · have hint := toInt_eq_toNat_of_le (q := q) (by omega)
    exact ⟨rfl, saturateSigned_of_fits (by omega) (by omega), saturateUnsigned_of_fits (by omega)⟩
  · have hint := toInt_eq_toNat_of_le hhigh
    exact ⟨rfl, saturateUnsigned_of_fits hhigh, saturateSigned_of_above (by omega)⟩
  · exact ⟨rfl, saturateSigned_of_fits hlow (by omega), saturateUnsigned_of_above (lt_toNat_of_toInt_neg hhigh)⟩

/-! ## The checks before the operands (R96) -/

theorem checkEnabled_eq_ud {s : State} {vl : VL} (h : s.avx512Enabled = false ∨ s.hasVL vl = false) :
    s.checkEnabled vl = some .ud := by
  rcases h with h | h <;> simp [State.checkEnabled, h]

theorem checkEnabled_eq_nm {s : State} {vl : VL} (ha : s.avx512Enabled = true) (hv : s.hasVL vl = true)
    (ht : s.ts = true) : s.checkEnabled vl = some .nm := by
  simp [State.checkEnabled, ha, hv, ht]

theorem exec_regForm_of_checkEnabled {s : State} {vl : VL} {e : Exception} (h : s.checkEnabled vl = some e)
    (c : Conversion) (pfx : Prefixes) (d : BitVec 5) (aaa : BitVec 3) (z : Bool) (src : BitVec 5) :
    exec (.regForm c vl pfx d aaa z src) s = .fault (.exception e) :=
  exec_of_checkEnabled (by simpa [Instr.vl] using h)

theorem exec_memForm_of_checkEnabled {s : State} {vl : VL} {e : Exception} (h : s.checkEnabled vl = some e)
    (c : Conversion) (pfx : Prefixes) (m : MemOperand) (aaa : BitVec 3) (src : BitVec 5) :
    exec (.memForm c vl pfx m aaa src) s = .fault (.exception e) :=
  exec_of_checkEnabled (by simpa [Instr.vl] using h)

/-! ## The register forms (R97, R99, R101) -/

/-- The register form of every conversion and vector length meets its rule. -/
theorem registerRule_regForm (c : Conversion) (vl : VL) : RegisterRule (Instr.regForm c vl) vl (convert c) := by
  intro pfx d aaa z src s
  refine ⟨fun h => ?_, fun ha hv ht => ?_, fun hr => ?_⟩
  · exact exec_regForm_of_checkEnabled (checkEnabled_eq_ud h) c pfx d aaa z src
  · exact exec_regForm_of_checkEnabled (checkEnabled_eq_nm ha hv ht) c pfx d aaa z src
  · refine ⟨s.registerResult c vl d aaa z src, s.draws + 1, ?_, fun j hj hen => ?_, fun j hj hen => ?_, fun b hb => ?_⟩
    · rw [exec_regForm, execRegister_of_ready hr]
      rfl
    · rw [wordElement_registerResult s c vl d aaa z src j hj, if_pos ((enabled_iff s aaa j).2 hen)]
    · rw [wordElement_registerResult s c vl d aaa z src j hj, if_neg (mt (enabled_iff s aaa j).1 hen)]
    · exact registerResult_high s c vl d aaa z src b hb

/-- Settles O29. -/
theorem vpmovqwRegisterForms : Obligations.VpmovqwRegisterForms :=
  ⟨registerRule_regForm .truncate .v128, registerRule_regForm .truncate .v256, registerRule_regForm .truncate .v512⟩

/-- Settles O31. -/
theorem vpmovsqwRegisterForms : Obligations.VpmovsqwRegisterForms :=
  ⟨registerRule_regForm .signedSaturate .v128, registerRule_regForm .signedSaturate .v256,
    registerRule_regForm .signedSaturate .v512⟩

/-- Settles O33. -/
theorem vpmovusqwRegisterForms : Obligations.VpmovusqwRegisterForms :=
  ⟨registerRule_regForm .unsignedSaturate .v128, registerRule_regForm .unsignedSaturate .v256,
    registerRule_regForm .unsignedSaturate .v512⟩

/-! ## The memory forms (R98, R100, R102) -/

/-- Byte `b` of the word at operand byte `i` is operand byte `i + b` (20_memory.md R41). -/
theorem byteAddr_operandByte (s : State) (vl : VL) (pfx : Prefixes) (m : MemOperand) (i b : Nat) :
    byteAddr s.is64 (s.operandByte vl pfx m i) b = s.operandByte vl pfx m (i + b) :=
  byteAddr_byteAddr s.is64 (s.linearAddress vl pfx m) i b

/-- Operand bytes at different offsets below 2^32 have different addresses. -/
theorem operandByte_injective {s : State} {vl : VL} {pfx : Prefixes} {m : MemOperand} {i j : Nat} (hi : i < 2 ^ 32)
    (hj : j < 2 ^ 32) (h : (s.operandByte vl pfx m i).toNat = (s.operandByte vl pfx m j).toNat) : i = j :=
  byteAddr_injective s.is64 (s.linearAddress vl pfx m) i j hi hj h

/-- After the words of the elements in `l` are stored in turn, both bytes of each read as stored: the store of another element
misses them. -/
theorem read_foldl_writeLE (s : State) (vl : VL) (pfx : Prefixes) (m : MemOperand) (w : Nat → Word) (l : List Nat)
    (mem : Memory) {j b : Nat} (hl : ∀ k ∈ l, k < 2 ^ 31) (hj : j ∈ l) (hb : b < 2) :
    (l.foldl (fun mem k => Memory.writeLE s.is64 mem (s.operandByte vl pfx m (2 * k)) 2 (w k)) mem).read
      (s.operandByte vl pfx m (2 * j + b)).toNat = some ((w j).extractLsb' (8 * b) 8) := by
  induction l using List.reverseRecOn with
  | nil => cases hj
  | append_singleton l k ih =>
    rw [List.foldl_append, List.foldl_cons, List.foldl_nil]
    by_cases hjk : j = k
    · rw [hjk, ← byteAddr_operandByte]
      exact Memory.writeLE_read_self s.is64 _ _ 2 (w k) b (by decide) hb
    · have hj' : j ∈ l := by simpa [hjk] using hj
      have hjlt := hl j hj
      have hklt := hl k (by simp)
      rw [Memory.writeLE_read_ne, ih (fun k hk => hl k (List.mem_append_left _ hk)) hj']
      intro i hi hne
      rw [byteAddr_operandByte] at hne
      have := operandByte_injective (by omega) (by omega) hne
      omega

/-- Byte `b` of an enabled word after a memory form (20_memory.md R41). -/
theorem storedMemory_read_self {s : State} {vl : VL} {aaa : BitVec 3} {j b : Nat} (hj : j < vl.kl)
    (hen : s.ElementEnabled aaa j) (hb : b < 2) (c : Conversion) (pfx : Prefixes) (m : MemOperand) (src : BitVec 5) :
    (s.storedMemory c vl pfx m aaa src).read (s.operandByte vl pfx m (2 * j + b)).toNat =
      some ((convert c (quadElement (s.getZmm src) j)).extractLsb' (8 * b) 8) := by
  refine read_foldl_writeLE s vl pfx m (fun j => convert c (quadElement (s.getZmm src) j)) _ s.mem (fun k hk => ?_)
    ((mem_enabledElements s vl aaa j).2 ⟨hj, hen⟩) hb
  obtain ⟨hk, -⟩ := (mem_enabledElements s vl aaa k).1 hk
  have := VL.kl_le vl
  omega

/-- The memory form of every conversion and vector length meets its rule. -/
theorem memoryRule_memForm (c : Conversion) (vl : VL) : MemoryRule (Instr.memForm c vl) vl (convert c) := by
  intro pfx m aaa src s
  refine ⟨fun h => ?_, fun ha hv ht => ?_, fun hadm t ht => ?_, fun hr hadm hal => ?_⟩
  · exact exec_memForm_of_checkEnabled (checkEnabled_eq_ud h) c pfx m aaa src
  · exact exec_memForm_of_checkEnabled (checkEnabled_eq_nm ha hv ht) c pfx m aaa src
  · rw [exec_memForm] at ht
    obtain ⟨-, hstop, -⟩ := execMemory_eq_next ht
    exact hadm (admitted_of_storeStop s vl pfx m aaa hstop)
  · refine ⟨s.storedMemory c vl pfx m aaa src, s.draws + 1, ?_, fun j hj hen => ?_, fun a ha => ?_⟩
    · rw [exec_memForm, execMemory_of_storeStop hr (storeStop_of_admitted s vl pfx m aaa hadm hal)]
      rfl
    · exact ⟨storedMemory_read_self (b := 0) hj hen (by decide) c pfx m src,
        storedMemory_read_self (b := 1) hj hen (by decide) c pfx m src⟩
    · exact storedMemory_read_ne s c vl pfx m aaa src a ha

/-- Settles O30. -/
theorem vpmovqwMemoryForms : Obligations.VpmovqwMemoryForms :=
  ⟨memoryRule_memForm .truncate .v128, memoryRule_memForm .truncate .v256, memoryRule_memForm .truncate .v512⟩

/-- Settles O32. -/
theorem vpmovsqwMemoryForms : Obligations.VpmovsqwMemoryForms :=
  ⟨memoryRule_memForm .signedSaturate .v128, memoryRule_memForm .signedSaturate .v256,
    memoryRule_memForm .signedSaturate .v512⟩

/-- Settles O34. -/
theorem vpmovusqwMemoryForms : Obligations.VpmovusqwMemoryForms :=
  ⟨memoryRule_memForm .unsignedSaturate .v128, memoryRule_memForm .unsignedSaturate .v256,
    memoryRule_memForm .unsignedSaturate .v512⟩

/-! ## The intrinsics (R111) -/

/-- Words 0 to 7 of a vector are the words of its low 128 bits. -/
theorem extractLsb'_low_eq_wordElement (v : Zmm) {j : Nat} (hj : j < 8) :
    (v.extractLsb' 0 128).extractLsb' (16 * j) 16 = wordElement v j := by
  rw [← BitVec.setWidth_eq_extractLsb' (by decide), BitVec.extractLsb'_setWidth_of_le (by omega), wordElement]

/-- With a mask register other than k0 the mask of an intrinsic is the low byte of that register. -/
theorem enabled_eq_maskByte (s : State) {kreg : BitVec 3} (hk : kreg ≠ 0#3) {j : Nat} (hj : j < 8) :
    s.enabled kreg j = ((s.getK kreg).extractLsb' 0 8).getLsbD j := by
  simp [State.enabled, hk, hj]

theorem registerResult_v512_high (s : State) (c : Conversion) (d : BitVec 5) (aaa : BitVec 3) (z : Bool)
    (src : BitVec 5) : (s.registerResult c .v512 d aaa z src).extractLsb' 128 384 = 0#384 := by
  apply BitVec.eq_of_getLsbD_eq
  intro b _
  simp [registerResult_high s c .v512 d aaa z src (128 + b) (Nat.le_add_right 128 b)]

/-- What a register form at VL = 512 leaves in its destination: the low 128 bits word by word, and zeros above. -/
theorem exec_regForm_v512_words {s : State} (hr : s.Ready .v512) (c : Conversion) (pfx : Prefixes) (d : BitVec 5)
    (aaa : BitVec 3) (z : Bool) (src : BitVec 5) :
    ∃ t, exec (.regForm c .v512 pfx d aaa z src) s = .next t ∧
      (∀ j, j < 8 → ((t.getZmm d).extractLsb' 0 128).extractLsb' (16 * j) 16 =
        if s.enabled aaa j then convert c (quadElement (s.getZmm src) j)
        else if z then 0#16 else ((s.getZmm d).extractLsb' 0 128).extractLsb' (16 * j) 16) ∧
      (t.getZmm d).extractLsb' 128 384 = 0#384 := by
  obtain ⟨t, ht, hres⟩ := exec_regForm_of_ready hr c pfx d aaa z src
  refine ⟨t, ht, fun j hj => ?_, hres ▸ registerResult_v512_high s c d aaa z src⟩
  rw [extractLsb'_low_eq_wordElement _ hj, extractLsb'_low_eq_wordElement _ hj, hres,
    wordElement_registerResult s c .v512 d aaa z src j hj]

/-- Settles O35: each shape is a register form with the mask and the zeroing that `intrinsicWord` has. -/
theorem intrinsicsReturnTheirWords : Obligations.IntrinsicsReturnTheirWords := by
  intro c shape d kreg src s hk hr
  cases shape with
  | plain =>
    obtain ⟨t, ht, hwords, hhigh⟩ := exec_regForm_v512_words hr c ⟨none, false⟩ d 0#3 false src
    exact ⟨t, ht, fun j hj => by rw [hwords j hj, intrinsicWord]; simp [State.enabled], hhigh⟩
  | mask =>
    obtain ⟨t, ht, hwords, hhigh⟩ := exec_regForm_v512_words hr c ⟨none, false⟩ d kreg false src
    exact ⟨t, ht, fun j hj => by rw [hwords j hj, enabled_eq_maskByte s hk hj]; rfl, hhigh⟩
  | maskz =>
    obtain ⟨t, ht, hwords, hhigh⟩ := exec_regForm_v512_words hr c ⟨none, false⟩ d kreg true src
    exact ⟨t, ht, fun j hj => by rw [hwords j hj, enabled_eq_maskByte s hk hj]; rfl, hhigh⟩

/-! ## A writemask with bits KL-1:0 one (R108) -/

section
variable {s : State} {vl : VL} {aaa bbb : BitVec 3} (h : s.enabledElements vl aaa = s.enabledElements vl bbb)
include h

/-- The checks of a store see the writemask by the elements it enables only. -/
theorem storeStop_congr_mask (pfx : Prefixes) (m : MemOperand) :
    s.storeStop vl pfx m aaa = s.storeStop vl pfx m bbb := by
  have hbytes : s.enabledBytes vl aaa = s.enabledBytes vl bbb := by rw [State.enabledBytes, State.enabledBytes, h]
  simp only [State.storeStop, State.memoryFault, State.alignmentStop, State.storeRefusal, hbytes, h]

/-- A memory form does the same, faults and refusals included, with writemasks that enable the same elements. -/
theorem exec_memForm_congr_mask (c : Conversion) (pfx : Prefixes) (m : MemOperand) (src : BitVec 5) :
    exec (.memForm c vl pfx m aaa src) s = exec (.memForm c vl pfx m bbb src) s := by
  have hmem : s.storedMemory c vl pfx m aaa src = s.storedMemory c vl pfx m bbb src := by
    rw [State.storedMemory, State.storedMemory, h]
  rw [exec_memForm, exec_memForm, execMemory, execMemory, storeStop_congr_mask h, hmem]

end

section
variable {s : State} {vl : VL} {aaa : BitVec 3} (h : ∀ j, j < vl.kl → s.enabled aaa j = true)
include h

theorem enabledElements_of_all_enabled : s.enabledElements vl aaa = List.range vl.kl :=
  List.filter_eq_self.2 fun j hj => h j (List.mem_range.1 hj)

/-- With every element enabled a register form neither zeroes nor keeps a word. -/
theorem registerResult_of_all_enabled (c : Conversion) (d : BitVec 5) (z : Bool) (src : BitVec 5) :
    s.registerResult c vl d aaa z src = packWords (fun j => convert c (quadElement (s.getZmm src) j)) vl.kl :=
  packWords_congr fun j hj => if_pos (h j hj)

end

/-- Settles O38: both writemasks enable every element. -/
theorem allOnesMaskIsNoMask : Obligations.AllOnesMaskIsNoMask := by
  intro c vl pfx d m aaa z src s hk
  have hall : ∀ j, j < vl.kl → s.enabled aaa j = true := fun j hj => (enabled_iff s aaa j).2 (.inr (hk j hj))
  have hzero : ∀ j, j < vl.kl → s.enabled 0#3 j = true := fun j _ => (enabled_iff s 0#3 j).2 (.inl rfl)
  constructor
  · rw [exec_regForm, exec_regForm, execRegister, execRegister, registerResult_of_all_enabled hall,
      registerResult_of_all_enabled hzero]
  · exact exec_memForm_congr_mask
      ((enabledElements_of_all_enabled hall).trans (enabledElements_of_all_enabled hzero).symm) c pfx m src

end Sys2Proof.Machine
end

section
/-! SUPPORT. The state and feature conditions in raw bits, and which exceptions a fetch, an instruction and a step can
raise: the lemmas of the statements of 60_exceptions.md, and their proofs. -/

namespace Sys2Proof.Machine

/-! ## The state and feature conditions (R114, R115) -/

/-- Rows 1 to 5 of 60_exceptions.md R114: one of them fails. -/
theorem avx512Enabled_eq_false_iff (s : State) :
    s.avx512Enabled = false ↔ s.cr0.getLsbD 0 = false ∨ s.rflags.getLsbD 17 = true ∨ s.cr4.getLsbD 18 = false ∨
      s.xcr0.extractLsb' 5 3 ≠ 0b111#3 ∨ s.xcr0.extractLsb' 1 2 ≠ 0b11#2 := by
  simp only [State.avx512Enabled, State.pe, State.vm, State.osxsave, Bool.and_eq_false_iff, Bool.not_eq_false',
    beq_eq_false_iff_ne, or_assoc]

/-- Rows 6 and 7 of 60_exceptions.md R114: one of them fails. -/
theorem hasVL_eq_false_iff (s : State) (vl : VL) :
    s.hasVL vl = false ↔ s.platform.hasAVX512F = false ∨ (vl ≠ .v512 ∧ s.platform.hasAVX512VL = false) := by
  simp only [State.hasVL, Bool.and_eq_false_iff, Bool.or_eq_false_iff, beq_eq_false_iff_ne]

/-- Settles O23: the seven rows are what the first check of every form tests. -/
theorem disabledStateRaisesUd : Obligations.DisabledStateRaisesUd := by
  intro i s h
  refine exec_of_checkEnabled (checkEnabled_eq_ud ?_)
  rw [avx512Enabled_eq_false_iff, hasVL_eq_false_iff]
  simpa only [or_assoc] using h

/-- Settles O24. -/
theorem taskSwitchedRaisesNm : Obligations.TaskSwitchedRaisesNm :=
  ⟨fun _ _ hts hen hvl => exec_of_checkEnabled (checkEnabled_eq_nm hen hvl hts), rfl, rfl⟩

/-! ## The exceptions of a fetch -/

/-- A byte that cannot be fetched is refused or has no value: it raises no exception (R122 step 1). -/
theorem fetchByte_ne_exception (s : State) (i : Nat) (e : Exception) :
    s.fetchByte i ≠ .error (.fault (.exception e)) := by
  cases hv : s.fetchViolation i with
  | true => simp [fetchByte_of_violation hv]
  | false =>
    cases hx : s.executable (s.codeAddress i) with
    | false => simp [fetchByte_of_not_executable hv hx]
    | true =>
      cases hr : s.readByte (s.codeAddress i) with
      | none => simp [fetchByte_of_unwritten hv hx hr]
      | some b => simp [State.fetchByte, hv, hx, hr]

/-- What ends a window is no exception: the end of the text, or the byte that cannot be fetched. -/
theorem fetchFrom_stop_ne_exception (s : State) (i n : Nat) (e : Exception) :
    (s.fetchFrom i n).2 ≠ .fault (.exception e) := by
  induction n generalizing i with
  | zero => simp [State.fetchFrom]
  | succ n ih =>
    cases hb : s.fetchByte i with
    | ok b => simpa [State.fetchFrom, hb] using ih (i + 1)
    | error stop =>
      have hne : stop ≠ .fault (.exception e) := fun h => fetchByte_ne_exception s i e (h ▸ hb)
      simpa [State.fetchFrom, hb] using hne

/-- A window that does not end in an exception raises none but #UD: no instruction is too long for #GP(0) (R122 step 4). -/
theorem fetchedOf_eq_exception {mode : DecodeMode} {window : List Byte × Stop} {e : Exception}
    (hw : window.2 ≠ .fault (.exception e)) (h : fetchedOf mode window = .stop (.fault (.exception e))) : e = .ud := by
  cases hd : decode mode window.1 with
  | instr i rest => simp [fetchedOf_instr mode window i rest hd] at h
  | refuse r => simp [fetchedOf, hd] at h
  | truncated =>
    rw [fetchedOf_incomplete mode window (.inl hd), Fetched.stop.injEq] at h
    exact absurd h hw
  | ud =>
    cases hc : formComplete mode window.1 with
    | true => simpa [fetchedOf, hd, hc, eq_comm] using h
    | false =>
      rw [fetchedOf_incomplete mode window (.inr ⟨hd, hc⟩), Fetched.stop.injEq] at h
      exact absurd h hw

/-- A fetch that stops before any byte refuses; any other is of a machine that fetches. -/
theorem fetch_cases (s : State) : (∃ r, s.fetch = .stop (.refuse r)) ∨ ∃ mode, s.Fetches mode := by
  cases hend : s.atEnd with
  | true => exact .inl ⟨.runEnded, by simp [State.fetch, hend]⟩
  | false =>
    cases hdebug : s.debugArmed with
    | true => exact .inl ⟨.debugArmed, by simp [State.fetch, hend, hdebug]⟩
    | false =>
      cases hac : s.alignmentChecking with
      | true => exact .inl ⟨.alignmentCheckingOn, by simp [State.fetch, hend, hdebug, hac]⟩
      | false =>
        cases hmode : s.decodeMode with
        | none => exact .inl ⟨.codeSegment16, by simp [State.fetch, hend, hdebug, hac, hmode]⟩
        | some mode => exact .inr ⟨mode, hend, hdebug, hac, hmode⟩

/-- The only exception of a fetch is the #UD of an encoding (R122 step 3). -/
theorem fetch_eq_exception {s : State} {e : Exception} (h : s.fetch = .stop (.fault (.exception e))) : e = .ud := by
  rcases fetch_cases s with ⟨r, hr⟩ | ⟨mode, hf⟩
  · simp [hr] at h
  · rw [fetch_of_fetches hf] at h
    exact fetchedOf_eq_exception (fetchFrom_stop_ne_exception s 0 s.textLeft e) h

/-- An instruction runs only with alignment checking off (R120; log 12). -/
theorem alignmentChecking_of_fetch_run {s : State} {i : Instr} (h : s.fetch = .run i) : s.alignmentChecking = false := by
  rcases fetch_cases s with ⟨r, hr⟩ | ⟨mode, -, -, hac, -⟩
  · simp [hr] at h
  · exact hac

/-! ## The exceptions of an instruction -/

/-- A stop that ends as an exception is that exception. -/
theorem Stop.outcome_eq_exception {stop : Stop} {e : Exception} (h : stop.outcome = .fault (.exception e)) :
    stop = .fault (.exception e) := by
  cases stop with
  | fault f => simpa [Stop.outcome] using h
  | refuse r => simp [Stop.outcome] at h

/-- With alignment checking off, the only exceptions that stop a store are its memory faults. -/
theorem memoryFault_of_storeStop {s : State} {vl : VL} {pfx : Prefixes} {m : MemOperand} {aaa : BitVec 3} {e : Exception}
    (hac : s.alignmentChecking = false) (h : s.storeStop vl pfx m aaa = some (.fault (.exception e))) :
    s.memoryFault vl pfx m aaa = some e := by
  cases hf : s.memoryFault vl pfx m aaa with
  | some x => simpa [State.storeStop, hf] using h
  | none =>
    rw [State.storeStop, hf, alignmentStop_of_accepted s vl pfx m aaa (.inl hac)] at h
    rcases storeRefusal_eq_some s vl pfx m aaa _ h with hr | hr <;> cases hr

/-- What raises an exception in an instruction that runs: the checks before the operands (R114, R115), or a memory fault of its
store (R117 to R119). -/
theorem exec_eq_exception {i : Instr} {s : State} {e : Exception} (hac : s.alignmentChecking = false)
    (h : exec i s = .fault (.exception e)) :
    (∃ vl, s.checkEnabled vl = some e) ∨ ∃ vl pfx m aaa, s.memoryFault vl pfx m aaa = some e := by
  rw [exec_eq_execForm] at h
  cases hi : i.form with
  | reg c vl pfx d aaa z src =>
    rw [hi, execForm] at h
    rcases execRegister_cases c vl pfx d aaa z src s with ⟨x, hx, he⟩ | ⟨-, he⟩
    · obtain rfl : x = e := by simpa [h, eq_comm] using he
      exact .inl ⟨vl, hx⟩
    · simp [h] at he
  | mem c vl pfx m aaa src =>
    rw [hi, execForm] at h
    rcases execMemory_cases c vl pfx m aaa src s with ⟨x, hx, he⟩ | ⟨-, stop, hs, he⟩ | ⟨-, -, he⟩
    · obtain rfl : x = e := by simpa [h, eq_comm] using he
      exact .inl ⟨vl, hx⟩
    · rw [Stop.outcome_eq_exception (he.symm.trans h)] at hs
      exact .inr ⟨vl, pfx, m, aaa, memoryFault_of_storeStop hac hs⟩
    · simp [h] at he

/-! ## The exceptions of a step -/

/-- What raises the exception of a step: the fetch, or the instruction it ran with alignment checking off. -/
theorem step_eq_exception {s : State} {e : Exception} (h : step s = .fault (.exception e)) :
    s.fetch = .stop (.fault (.exception e)) ∨
      ∃ i, s.alignmentChecking = false ∧ exec i s = .fault (.exception e) := by
  cases hf : s.fetch with
  | run i => exact .inr ⟨i, alignmentChecking_of_fetch_run hf, (step_of_fetch_run hf).symm.trans h⟩
  | stop stop => exact .inl (congrArg _ (Stop.outcome_eq_exception ((step_of_fetch_stop hf).symm.trans h)))

/-- The exceptions a step can raise; no step raises #AC. -/
theorem step_exception_cases {s : State} {e : Exception} (h : step s = .fault (.exception e)) :
    e = .ud ∨ e = .nm ∨ e = .ss0 ∨ e = .gp0 ∨ ∃ code a, e = .pf code a ∧ s.writable a = false := by
  rcases step_eq_exception h with hfetch | ⟨i, hac, hexec⟩
  · exact .inl (fetch_eq_exception hfetch)
  rcases exec_eq_exception hac hexec with ⟨vl, hcheck⟩ | ⟨vl, pfx, m, aaa, hfault⟩
  · rcases checkEnabled_eq_some s vl e hcheck with rfl | rfl
    · exact .inl rfl
    · exact .inr (.inl rfl)
  rcases memoryFault_eq_some s vl pfx m aaa e hfault with ⟨rfl, -⟩ | ⟨-, i, -, hw, rfl⟩
  · unfold State.segmentException
    split
    · exact .inr (.inr (.inl rfl))
    · exact .inr (.inr (.inr (.inl rfl)))
  · exact .inr (.inr (.inr (.inr ⟨_, _, rfl, hw⟩)))

/-- Settles O13: each exception of `step_exception_cases` is a row of the table of R112. -/
theorem stepRaisesOnlyListedExceptions : Obligations.StepRaisesOnlyListedExceptions := by
  intro s e h
  rcases step_exception_cases h with rfl | rfl | rfl | rfl | ⟨code, a, rfl, hw⟩
  · exact .inl ⟨rfl, rfl⟩
  · exact .inr (.inl ⟨rfl, rfl⟩)
  · exact .inr (.inr (.inl ⟨rfl, rfl⟩))
  · exact .inr (.inr (.inr (.inl ⟨rfl, rfl⟩)))
  · exact .inr (.inr (.inr (.inr ⟨rfl, code, a, rfl, rfl, hw⟩)))

end Sys2Proof.Machine
end

section
/-! SUPPORT. What the reset state holds, and why every form raises #UD there: the lemmas of the statement of
70_reset_and_hazards.md, and its proof. -/

namespace Sys2Proof.Machine

/-! ## The registers after reset (10_state.md R34) -/

@[simp] theorem reset_getZmm (r : BitVec 5) : State.reset.getZmm r = 0 :=
  Vector.getElem_replicate r.isLt

@[simp] theorem reset_getK (r : BitVec 3) : State.reset.getK r = 0 :=
  Vector.getElem_replicate r.isLt

/-- EDX holds the processor identification (log 5), so x[2] is the one general register that is not 0. -/
theorem reset_getGpr {r : BitVec 4} (h : r ≠ 2#4) : State.reset.getGpr r = 0 := by
  have hne : 2 ≠ r.toNat := fun e => h (BitVec.eq_of_toNat_eq e.symm)
  calc State.reset.getGpr r = (Vector.replicate 16 0#64)[r.toNat]'r.isLt := Vector.getElem_set_ne (by decide) r.isLt hne
    _ = 0 := Vector.getElem_replicate r.isLt

/-! ## The mode after reset (70_reset_and_hazards.md R132) -/

/-- CR0.PE is clear in 60000010h: what makes the mode real-address mode and every form #UD. -/
@[simp] theorem reset_pe : State.reset.pe = false := by decide

theorem mode_of_not_pe {s : State} (h : s.pe = false) : s.mode = .real := by
  simp [State.mode, h]

/-- Row 1 of 60_exceptions.md R114. -/
theorem exec_of_not_pe {s : State} (h : s.pe = false) (i : Instr) : exec i s = .fault (.exception .ud) :=
  disabledStateRaisesUd i s (.inl h)

/-- The entry point: the CS base plus the instruction pointer, taken modulo 2^32 (10_state.md R27). -/
theorem reset_codeAddress_zero : State.reset.codeAddress 0 = 0xFFFFFFF0#64 := by decide

/-- Settles O1: the register files by their lemmas, the fields as `State.reset` gives them, and the mode and the #UD of every
form by CR0.PE. -/
theorem resetStateAndEveryFormUd : Obligations.ResetStateAndEveryFormUd := by
  refine ⟨reset_getZmm, reset_getK, fun _ => reset_getGpr, ?mxcsr, ?pc, ?csBase, ?esBase, ?ssBase, ?dsBase, ?fsBase, ?gsBase,
    ?rflags, ?cr0, ?cr2, ?cr4, ?lma, ?xcr0, ?cpl, ?interruptFlag, mode_of_not_pe reset_pe, reset_codeAddress_zero,
    exec_of_not_pe reset_pe⟩
  case lma | cpl | interruptFlag => decide
  all_goals rfl

end Sys2Proof.Machine
end
